-- ==== Sys2Proof/Word.lean ====
section
/-! DEFINITION. The bit-vector types of the block: bytes, 64-bit words, the packet header and the header fields
that are numbers (00_scope.md R4, R5; 30_encoding.md R51, R52). -/

namespace Sys2Proof

/-- One byte of a backing store, of a payload or of a stream (10_state.md R19). -/
abbrev Byte := BitVec 8

/-- An operand word, a result word, `BIT_COUNT` or `CURSOR`: `XLEN` = 64 bits (00_scope.md R4). -/
abbrev Word := BitVec 64

/-- The header word `H` of a command packet (30_encoding.md R51). -/
abbrev Header := BitVec 32

/-- The header field `BUF`: a slot number 0 to 15 (30_encoding.md R52). -/
abbrev SlotNo := BitVec 4

/-- The header field `WIDTH`: 0 to 127, of which 1 to 64 are legal (30_encoding.md R52). -/
abbrev WidthField := BitVec 7

/-- The header field `STOP`: 0 and 1 are stop bits, 2 and 3 are the "non-binary stop bit" (30_encoding.md R52). -/
abbrev StopField := BitVec 2

end Sys2Proof
end

