-- ==== Sys2Proof/Config.lean ====
section
/-! DEFINITION. The implementation parameters of 00_scope.md R4. The three OPEN ones are plain data, carried
beside the state by `State.cfg`, so that a statement about every state is a statement about every value of them
(log entry 2). The fixed ones are constants. -/

namespace Sys2Proof

/-- `WMIN`, the smallest field width and CRC width (00_scope.md R4). -/
def wMin : Nat := 1

/-- `WMAX`, the largest field width and CRC width (00_scope.md R4). -/
def wMax : Nat := 64

/-- The OPEN parameters of one block (00_scope.md R4; 92_eei_decisions.md section 7). -/
structure Config where
  /-- `NBUF`, the number of Bit Buffer slots (D3). -/
  nbuf : Nat
  /-- `CAP_BYTES`, the bytes of backing store behind each slot (D4). -/
  capBytes : Nat
  /-- `CRC_BE_XFORM : Byte → Byte` as its table: entry `x` is the image of `x` (43_crc.md R132, D30). -/
  crcBeTable : List Byte
  deriving DecidableEq, Repr

/-- The constraints of 00_scope.md R4: `1 ≤ NBUF ≤ 16`, `1 ≤ CAP_BYTES ≤ 2^61 − 1`, and a table with one entry for
each byte. -/
abbrev Config.wf (c : Config) : Prop :=
  (1 ≤ c.nbuf ∧ c.nbuf ≤ 16) ∧ (1 ≤ c.capBytes ∧ c.capBytes ≤ 2 ^ 61 - 1) ∧ c.crcBeTable.length = 256

/-- `8 × CAP_BYTES`, the bits a store can hold (20_memory.md R38). -/
def Config.capBits (c : Config) : Nat := 8 * c.capBytes

/-- The parameter function `CRC_BE_XFORM` the table stands for (43_crc.md R132). -/
def Config.crcBeXform (c : Config) (x : Byte) : Byte := c.crcBeTable.getD x.toNat 0

end Sys2Proof
end

