-- ==== Sys2Proof/Syntax.lean ====
section
/-! DEFINITION. Command packets and the 18 commands: one constructor of `Instr` for each row of
spec/opcode_table.json. `SEEK` is another name for the packet of `SKIP` (30_encoding.md R61) and has no constructor. -/

namespace Sys2Proof

/-- The byte-order policy `BYO` (00_scope.md R8; 20_memory.md R31). -/
inductive ByteOrder where
  /-- Most-significant byte first, coded 0. -/
  | msbyte
  /-- Least-significant byte first, coded 1. -/
  | lsbyte
  deriving DecidableEq, Repr

/-- The bit-order policy `BIO` (00_scope.md R8; 20_memory.md R33). -/
inductive BitOrder where
  /-- Most-significant bit first, coded 0. -/
  | msbit
  /-- Least-significant bit first, coded 1. -/
  | lsbit
  deriving DecidableEq, Repr

/-- The policy pair of one command, the suffix `.pp` of the assembler (00_scope.md R8). -/
structure Policy where
  byo : ByteOrder
  bio : BitOrder
  deriving DecidableEq, Repr

/-- The unary flavor `FLAVOR` (30_encoding.md R52; 42_varlen.md R111). -/
inductive Flavor where
  /-- `WholeUnary`, coded 0: the value is the number of non-stop bits. -/
  | whole
  /-- `CountUnary`, coded 1: the value is the number of non-stop bits plus 1. -/
  | count
  deriving DecidableEq, Repr

/-- The field `SGN` of the Exponential-Golomb commands (30_encoding.md R52). -/
inductive Signedness where
  /-- Unsigned, coded 0. -/
  | unsigned
  /-- Signed, coded 1. -/
  | signed
  deriving DecidableEq, Repr

/-- The field `BE` of the CRC commands (30_encoding.md R52; 43_crc.md R132). -/
inductive DataOrder where
  /-- Data little-endian, coded 0. -/
  | little
  /-- Data big-endian, coded 1. -/
  | big
  deriving DecidableEq, Repr

/-- A command packet `(H, A, P)` (30_encoding.md R51). -/
structure Packet where
  header : Header
  operands : List Word
  payload : List Byte
  deriving DecidableEq, Repr

/-- The commands of 30_encoding.md R56 with their header fields and operands (R52, R54). Of a CRC packet the operand
`A2` is the length of the payload (R51) and is not held a second time (log entry 10). -/
inductive Instr where
  /-- `CREATE bN, cap` (40_buffer.md R70). -/
  | create (b : SlotNo) (cap : Word)
  /-- `DESTROY bN` (40_buffer.md R71). -/
  | destroy (b : SlotNo)
  /-- `BITLEN bN` (40_buffer.md R72). -/
  | bitlen (b : SlotNo)
  /-- `POS bN` (40_buffer.md R73). -/
  | pos (b : SlotNo)
  /-- `ISALIGN bN, g` (40_buffer.md R74). -/
  | isalign (b : SlotNo) (g : Word)
  /-- `ALIGN bN, g` (40_buffer.md R75). -/
  | align (b : SlotNo) (g : Word)
  /-- `SKIP bN, delta`, alias `SEEK` (40_buffer.md R76). -/
  | skip (b : SlotNo) (delta : Word)
  /-- `PEEK.pp bN, width` (41_bitcodec.md R94). -/
  | peek (b : SlotNo) (pp : Policy) (w : WidthField)
  /-- `READ.pp bN, width` (41_bitcodec.md R95). -/
  | read (b : SlotNo) (pp : Policy) (w : WidthField)
  /-- `WRITE.pp bN, width, value` (41_bitcodec.md R96). -/
  | write (b : SlotNo) (pp : Policy) (w : WidthField) (value : Word)
  /-- `RDUN.pp bN, flavor, stop` (42_varlen.md R112). -/
  | rdun (b : SlotNo) (pp : Policy) (flavor : Flavor) (stop : StopField)
  /-- `WRUN.pp bN, flavor, stop, value` (42_varlen.md R113). -/
  | wrun (b : SlotNo) (pp : Policy) (flavor : Flavor) (stop : StopField) (value : Word)
  /-- `RDEG.pp bN, sign, stop` (42_varlen.md R117). -/
  | rdeg (b : SlotNo) (pp : Policy) (sgn : Signedness) (stop : StopField)
  /-- `WREG.pp bN, sign, stop, value` (42_varlen.md R118). -/
  | wreg (b : SlotNo) (pp : Policy) (sgn : Signedness) (stop : StopField) (value : Word)
  /-- `CRCGEN.e width, poly, init, [bytes]` (43_crc.md R133). -/
  | crcgen (w : WidthField) (be : DataOrder) (poly start : Word) (data : List Byte)
  /-- `CRCVFY.e width, poly, init, embedded, [bytes]` (43_crc.md R134). -/
  | crcvfy (w : WidthField) (be : DataOrder) (poly start embedded : Word) (data : List Byte)
  /-- `REFILL bN, n` (44_stream.md R151). -/
  | refill (b : SlotNo) (n : Word)
  /-- `FLUSH bN` (44_stream.md R152). -/
  | flush (b : SlotNo)
  deriving DecidableEq, Repr

end Sys2Proof
end

