-- ==== Sys2Proof/WellFormed.lean ====
section
/-! DEFINITION. Which terms of `Instr` a packet can carry. Every field but one has the width of its header field or
operand word, so its type already bounds it; the payload of a CRC command must have a length that the 64-bit operand
`A2` can hold (30_encoding.md R51). -/

namespace Sys2Proof

/-- The payload's length fits the operand word `A2` (30_encoding.md R51, R54). -/
def payloadFits (data : List Byte) : Bool := data.length < 2 ^ 64

/-- An instruction that some packet encodes. -/
def Instr.wf (i : Instr) : Bool :=
  match i with
  | .create _ _ => true
  | .destroy _ => true
  | .bitlen _ => true
  | .pos _ => true
  | .isalign _ _ => true
  | .align _ _ => true
  | .skip _ _ => true
  | .peek _ _ _ => true
  | .read _ _ _ => true
  | .write _ _ _ _ => true
  | .rdun _ _ _ _ => true
  | .wrun _ _ _ _ _ => true
  | .rdeg _ _ _ _ => true
  | .wreg _ _ _ _ _ => true
  | .crcgen _ _ _ _ data => payloadFits data
  | .crcvfy _ _ _ _ _ data => payloadFits data
  | .refill _ _ => true
  | .flush _ => true

end Sys2Proof
end

