-- ==== Sys2Proof/Decode.lean ====
section
/-! DEFINITION. The opcode map of 30_encoding.md R56 as mask and match rows, the total decoder of R57, the encoder
written from the same field positions (R52), and the host's numbering of a packet's bits (log entry 9). -/

namespace Sys2Proof

/-! ### Header fields (30_encoding.md R52) -/

/-- `BUF`, bits [11:8]. -/
def bufOf (h : Header) : SlotNo := h.extractLsb' 8 4

/-- `WIDTH`, bits [22:16]. -/
def widthOf (h : Header) : WidthField := h.extractLsb' 16 7

/-- `STOP`, bits [15:14]. -/
def stopOf (h : Header) : StopField := h.extractLsb' 14 2

/-- `BYO`, bit 12: 0 = `MSBYTE`, 1 = `LSBYTE`. -/
def byoOf (h : Header) : ByteOrder := if h.getLsbD 12 then .lsbyte else .msbyte

/-- `BIO`, bit 13: 0 = `MSBIT`, 1 = `LSBIT`. -/
def bioOf (h : Header) : BitOrder := if h.getLsbD 13 then .lsbit else .msbit

/-- The policy pair of a header (00_scope.md R8). -/
def policyOf (h : Header) : Policy := ⟨byoOf h, bioOf h⟩

/-- `FLAVOR`, bit 23: 0 = `WholeUnary`, 1 = `CountUnary`. -/
def flavorOf (h : Header) : Flavor := if h.getLsbD 23 then .count else .whole

/-- `SGN`, bit 24: 0 = unsigned, 1 = signed. -/
def sgnOf (h : Header) : Signedness := if h.getLsbD 24 then .signed else .unsigned

/-- `BE`, bit 26: 0 = little-endian, 1 = big-endian data. -/
def beOf (h : Header) : DataOrder := if h.getLsbD 26 then .big else .little

/-! ### The opcode map (30_encoding.md R56) -/

/-- The 18 rows of the map, named by their mnemonics. -/
inductive Opcode where
  | create | destroy | bitlen | pos | isalign | align | skip
  | peek | read | write
  | rdun | wrun | rdeg | wreg
  | crcgen | crcvfy
  | refill | flush
  deriving DecidableEq, Repr

/-- One row: a header `h` selects it when `h AND mask = pattern`. `words` is the number of operand words. -/
structure Row where
  op : Opcode
  mask : Header
  pattern : Header
  words : Nat
  deriving DecidableEq, Repr

/-- Whether a header selects a row (30_encoding.md R56). -/
def Row.selects (r : Row) (h : Header) : Bool := h &&& r.mask == r.pattern

/-- The rows of the Bit Buffer commands (40_buffer.md): only `BUF` is used. -/
def bufferRows : List Row :=
  [ ⟨.create,  0xFFFFF0FF#32, 0x00000001#32, 1⟩,
    ⟨.destroy, 0xFFFFF0FF#32, 0x00000002#32, 0⟩,
    ⟨.bitlen,  0xFFFFF0FF#32, 0x00000003#32, 0⟩,
    ⟨.pos,     0xFFFFF0FF#32, 0x00000004#32, 0⟩,
    ⟨.isalign, 0xFFFFF0FF#32, 0x00000005#32, 1⟩,
    ⟨.align,   0xFFFFF0FF#32, 0x00000006#32, 1⟩,
    ⟨.skip,    0xFFFFF0FF#32, 0x00000007#32, 1⟩ ]

/-- The rows of the codec, coder, CRC and stream commands. -/
def codecRows : List Row :=
  [ ⟨.peek,   0xFF80C0FF#32, 0x00000010#32, 0⟩,
    ⟨.read,   0xFF80C0FF#32, 0x00000011#32, 0⟩,
    ⟨.write,  0xFF80C0FF#32, 0x00000012#32, 1⟩,
    ⟨.rdun,   0xFF7F00FF#32, 0x00000020#32, 0⟩,
    ⟨.wrun,   0xFF7F00FF#32, 0x00000021#32, 1⟩,
    ⟨.rdeg,   0xFEFF00FF#32, 0x00000022#32, 0⟩,
    ⟨.wreg,   0xFEFF00FF#32, 0x00000023#32, 1⟩,
    ⟨.crcgen, 0xFB80FFFF#32, 0x00000030#32, 3⟩,
    ⟨.crcvfy, 0xFB80FFFF#32, 0x00000031#32, 4⟩,
    ⟨.refill, 0xFFFFF0FF#32, 0x00000040#32, 1⟩,
    ⟨.flush,  0xFFFFF0FF#32, 0x00000041#32, 0⟩ ]

/-- The whole map, in the order of 30_encoding.md R56. -/
def opcodeMap : List Row := bufferRows ++ codecRows

/-- The row a header selects, if any. -/
def rowOf (h : Header) : Option Row := opcodeMap.find? (fun r => r.selects h)

/-! ### Operand words and payload (30_encoding.md R54, R57 item 2) -/

/-- A command without operand words and without payload. -/
def noWord (i : Instr) (a : List Word) (p : List Byte) : Option Instr :=
  match a, p with
  | [], [] => some i
  | _, _ => none

/-- A command with the one operand word `A0` and no payload. -/
def oneWord (f : Word → Instr) (a : List Word) (p : List Byte) : Option Instr :=
  match a, p with
  | [a0], [] => some (f a0)
  | _, _ => none

/-- `CRCGEN`: `A0` = poly, `A1` = init, `A2` = the length of the payload. -/
def crcGenWords (w : WidthField) (be : DataOrder) (a : List Word) (p : List Byte) : Option Instr :=
  match a with
  | [poly, start, len] => if p.length = len.toNat then some (.crcgen w be poly start p) else none
  | _ => none

/-- `CRCVFY`: as `CRCGEN`, and `A3` = embedded. -/
def crcVfyWords (w : WidthField) (be : DataOrder) (a : List Word) (p : List Byte) : Option Instr :=
  match a with
  | [poly, start, len, embedded] =>
    if p.length = len.toNat then some (.crcvfy w be poly start embedded p) else none
  | _ => none

/-- The instruction of a selected row from the header fields, the operand words and the payload; `none` when their
number is not the row's (30_encoding.md R54, R57 item 2). -/
def Opcode.build (op : Opcode) (h : Header) (a : List Word) (p : List Byte) : Option Instr :=
  match op with
  | .create => oneWord (.create (bufOf h)) a p
  | .destroy => noWord (.destroy (bufOf h)) a p
  | .bitlen => noWord (.bitlen (bufOf h)) a p
  | .pos => noWord (.pos (bufOf h)) a p
  | .isalign => oneWord (.isalign (bufOf h)) a p
  | .align => oneWord (.align (bufOf h)) a p
  | .skip => oneWord (.skip (bufOf h)) a p
  | .peek => noWord (.peek (bufOf h) (policyOf h) (widthOf h)) a p
  | .read => noWord (.read (bufOf h) (policyOf h) (widthOf h)) a p
  | .write => oneWord (.write (bufOf h) (policyOf h) (widthOf h)) a p
  | .rdun => noWord (.rdun (bufOf h) (policyOf h) (flavorOf h) (stopOf h)) a p
  | .wrun => oneWord (.wrun (bufOf h) (policyOf h) (flavorOf h) (stopOf h)) a p
  | .rdeg => noWord (.rdeg (bufOf h) (policyOf h) (sgnOf h) (stopOf h)) a p
  | .wreg => oneWord (.wreg (bufOf h) (policyOf h) (sgnOf h) (stopOf h)) a p
  | .crcgen => crcGenWords (widthOf h) (beOf h) a p
  | .crcvfy => crcVfyWords (widthOf h) (beOf h) a p
  | .refill => oneWord (.refill (bufOf h)) a p
  | .flush => noWord (.flush (bufOf h)) a p

/-- Why a packet is not a command (30_encoding.md R57). -/
inductive DecodeError where
  /-- No row matches the header: `ILLEGAL.ENCODING`. -/
  | encoding
  /-- Wrong number of operand words, a payload where none belongs, or a CRC payload whose length is not `A2`:
  `ILLEGAL.PACKET`. -/
  | packet
  deriving DecidableEq, Repr

/-- The total decoder (30_encoding.md R57). -/
def decode (p : Packet) : Except DecodeError Instr :=
  match rowOf p.header with
  | none => .error .encoding
  | some r =>
    match r.op.build p.header p.operands p.payload with
    | none => .error .packet
    | some i => .ok i

/-! ### The encoder -/

/-- The code of `BYO` (00_scope.md R8). -/
def ByteOrder.code (x : ByteOrder) : BitVec 1 :=
  match x with
  | .msbyte => 0
  | .lsbyte => 1

/-- The code of `BIO` (00_scope.md R8). -/
def BitOrder.code (x : BitOrder) : BitVec 1 :=
  match x with
  | .msbit => 0
  | .lsbit => 1

/-- The code of `FLAVOR` (30_encoding.md R52). -/
def Flavor.code (x : Flavor) : BitVec 1 :=
  match x with
  | .whole => 0
  | .count => 1

/-- The code of `SGN` (30_encoding.md R52). -/
def Signedness.code (x : Signedness) : BitVec 1 :=
  match x with
  | .unsigned => 0
  | .signed => 1

/-- The code of `BE` (30_encoding.md R52). -/
def DataOrder.code (x : DataOrder) : BitVec 1 :=
  match x with
  | .little => 0
  | .big => 1

/-- The header word from its fields, each at its bit position: `OPC` [7:0], `BUF` [11:8], `BYO` [12], `BIO` [13], `STOP`
[15:14], `WIDTH` [22:16], `FLAVOR` [23], `SGN` [24], `BE` [26]; `TRUNC` [25] and the reserved bits [31:27] are 0
(30_encoding.md R52). -/
def header (be sgn flavor : BitVec 1) (w : WidthField) (stop : StopField) (bio byo : BitVec 1) (b : SlotNo)
    (opc : BitVec 8) : Header :=
  opc.setWidth 32 ||| b.setWidth 32 <<< 8 ||| byo.setWidth 32 <<< 12 ||| bio.setWidth 32 <<< 13 |||
    stop.setWidth 32 <<< 14 ||| w.setWidth 32 <<< 16 ||| flavor.setWidth 32 <<< 23 ||| sgn.setWidth 32 <<< 24 |||
    be.setWidth 32 <<< 26

/-- The header of a command that uses `BUF` only. -/
def bufHeader (b : SlotNo) (opc : BitVec 8) : Header := header 0 0 0 0 0 0 0 b opc

/-- The header of a codec command: `BUF BYO BIO WIDTH`. -/
def fieldHeader (b : SlotNo) (pp : Policy) (w : WidthField) (opc : BitVec 8) : Header :=
  header 0 0 0 w 0 pp.bio.code pp.byo.code b opc

/-- The header of a unary command: `BUF BYO BIO STOP FLAVOR`. -/
def unaryHeader (b : SlotNo) (pp : Policy) (flavor : Flavor) (stop : StopField) (opc : BitVec 8) : Header :=
  header 0 0 flavor.code 0 stop pp.bio.code pp.byo.code b opc

/-- The header of an Exponential-Golomb command: `BUF BYO BIO STOP SGN`. -/
def golombHeader (b : SlotNo) (pp : Policy) (sgn : Signedness) (stop : StopField) (opc : BitVec 8) : Header :=
  header 0 sgn.code 0 0 stop pp.bio.code pp.byo.code b opc

/-- The header of a CRC command: `WIDTH BE`. -/
def crcHeader (w : WidthField) (be : DataOrder) (opc : BitVec 8) : Header := header be.code 0 0 w 0 0 0 0 opc

/-- The operand word `A2` of a CRC command: the number of data bytes (30_encoding.md R51). -/
def lengthWord (data : List Byte) : Word := BitVec.ofNat 64 data.length

/-- The packet of an instruction (30_encoding.md R52, R54, R56). -/
def encode (i : Instr) : Packet :=
  match i with
  | .create b cap => ⟨bufHeader b 0x01, [cap], []⟩
  | .destroy b => ⟨bufHeader b 0x02, [], []⟩
  | .bitlen b => ⟨bufHeader b 0x03, [], []⟩
  | .pos b => ⟨bufHeader b 0x04, [], []⟩
  | .isalign b g => ⟨bufHeader b 0x05, [g], []⟩
  | .align b g => ⟨bufHeader b 0x06, [g], []⟩
  | .skip b delta => ⟨bufHeader b 0x07, [delta], []⟩
  | .peek b pp w => ⟨fieldHeader b pp w 0x10, [], []⟩
  | .read b pp w => ⟨fieldHeader b pp w 0x11, [], []⟩
  | .write b pp w value => ⟨fieldHeader b pp w 0x12, [value], []⟩
  | .rdun b pp flavor stop => ⟨unaryHeader b pp flavor stop 0x20, [], []⟩
  | .wrun b pp flavor stop value => ⟨unaryHeader b pp flavor stop 0x21, [value], []⟩
  | .rdeg b pp sgn stop => ⟨golombHeader b pp sgn stop 0x22, [], []⟩
  | .wreg b pp sgn stop value => ⟨golombHeader b pp sgn stop 0x23, [value], []⟩
  | .crcgen w be poly start data => ⟨crcHeader w be 0x30, [poly, start, lengthWord data], data⟩
  | .crcvfy w be poly start embedded data =>
    ⟨crcHeader w be 0x31, [poly, start, lengthWord data, embedded], data⟩
  | .refill b n => ⟨bufHeader b 0x40, [n], []⟩
  | .flush b => ⟨bufHeader b 0x41, [], []⟩

/-! ### The host's numbering of a packet's bits (log entry 9)

Bit 0 is the least significant bit of `H`; the operand words follow from bit 32, 64 bits each, `A0` first; the payload
bytes follow the operand words, 8 bits each, first byte first. How a packet lies on wires is not in the spec
(30_encoding.md R51). -/

/-- The number of operand words the header's row asks for; none where no row is selected. -/
def wordCount (h : Header) : Nat :=
  match rowOf h with
  | none => 0
  | some r => r.words

/-- The number of payload bytes: the value of `A2` for a CRC command, else none (30_encoding.md R51). -/
def payloadCount (h : Header) (a : List Word) : Nat :=
  match rowOf h with
  | none => 0
  | some r =>
    match r.op, a with
    | .crcgen, [_, _, len] => len.toNat
    | .crcvfy, [_, _, len, _] => len.toNat
    | _, _ => 0

/-- The packet whose bits, numbered as above, are the low `nbits` bits of `w` and zeros above. -/
def packetOfBits (nbits w : Nat) : Packet :=
  let v := w % 2 ^ nbits
  let h := BitVec.ofNat 32 v
  let n := wordCount h
  let a := (List.range n).map (fun i => BitVec.ofNat 64 (v / 2 ^ (32 + 64 * i)))
  ⟨h, a, (List.range (payloadCount h a)).map (fun j => BitVec.ofNat 8 (v / 2 ^ (32 + 64 * n + 8 * j)))⟩

/-- The instruction the decoder reads from the bits `w` of an opcode-table row; `none` where it refuses. -/
def decodeTableWord (nbits w : Nat) : Option Instr :=
  match decode (packetOfBits nbits w) with
  | .ok i => some i
  | .error _ => none

end Sys2Proof
end

