-- ==== Sys2Proof/Machine/Flags.lean ====
section
/-! DEFINITION. The block has no flags and no condition codes (10_state.md R17). What a command reports instead is the
status byte of its response: this file holds the statuses of 60_exceptions.md R170, their codes, and the response
(30_encoding.md R55). None of it is stored in the block. -/

namespace Sys2Proof.Machine

/-- The statuses of 60_exceptions.md R170, one constructor for each row. -/
inductive Status where
  | ok
  | absentBuffer
  | widthRange
  | stopBit
  | granularity
  | skipBelowStart
  | valueDomain
  | slotInUse
  | partialTail
  | capacity
  | alloc
  | short
  /-- Reserved for the host-side adapter; the block never raises it (60_exceptions.md R175). -/
  | rstate
  | illegalEncoding
  | illegalPacket
  deriving DecidableEq, Repr

/-- The status byte `ST` (60_exceptions.md R170). -/
def Status.code (st : Status) : Byte :=
  match st with
  | .ok => 0x00
  | .absentBuffer => 0x11
  | .widthRange => 0x12
  | .stopBit => 0x13
  | .granularity => 0x14
  | .skipBelowStart => 0x15
  | .valueDomain => 0x16
  | .slotInUse => 0x17
  | .partialTail => 0x18
  | .capacity => 0x20
  | .alloc => 0x30
  | .short => 0x40
  | .rstate => 0x50
  | .illegalEncoding => 0x61
  | .illegalPacket => 0x62

/-- The status class `ST[7:4]` (60_exceptions.md R170). -/
def Status.statusClass (st : Status) : BitVec 4 := st.code.extractLsb' 4 4

/-- The statuses with which a command has changed the block: `OK` and `SHORT` (60_exceptions.md R177). Every other one
is an error. -/
def Status.isError (st : Status) : Bool := st ≠ .ok && st ≠ .short

/-- What one command answers: `(ST, R0, R1, OUT)` (30_encoding.md R55). -/
structure Response where
  st : Status
  r0 : Word
  r1 : Word
  /-- The bytes emitted on the stream-out port; empty for every command but `FLUSH`. -/
  out : List Byte
  deriving DecidableEq, Repr

/-- The response of a command that ends with an error status: both result words are 0 (30_encoding.md R55). -/
def Response.error (st : Status) : Response := ⟨st, 0, 0, []⟩

/-- The status of a packet that does not decode (30_encoding.md R57). -/
def decodeStatus (e : DecodeError) : Status :=
  match e with
  | .encoding => .illegalEncoding
  | .packet => .illegalPacket

end Sys2Proof.Machine
end

