-- ==== Sys2Proof/Machine/Params.lean ====
section
/-! DEFINITION. The values of the OPEN parameters that the test vectors use (92_eei_decisions.md section 7). They fill
`State.reset` and nothing else rests on them (log entry 2). -/

namespace Sys2Proof.Machine

/-- `bitrev8`: bit `j` of the result is bit `7 − j` of the argument (43_crc.md R132). -/
def bitrev8 (x : Byte) : Byte := x.reverse

/-- The table of a function on bytes, entry `x` for the byte `x`. -/
def byteTable (f : Byte → Byte) : List Byte := (List.range 256).map (fun x => f (BitVec.ofNat 8 x))

/-- The parameters of the vectors: `NBUF` = 2, `CAP_BYTES` = 4096, `CRC_BE_XFORM` = `bitrev8`. DESIGN CHOICE, log entry
2. -/
def vectorConfig : Config := ⟨2, 4096, byteTable bitrev8⟩

end Sys2Proof.Machine
end

