-- ==== Sys2Proof/Machine/State.lean ====
section
/-! DEFINITION. The state of the block (10_state.md R10: `NBUF` slots and nothing else), with the fields the model adds
to hold the parameters and the ports (log entries 1 and 2), the reasons a step can stop, and the state after reset. -/

namespace Sys2Proof.Machine

/-- The only stop a step can make. -/
inductive Fault where
  /-- A byte at an index at or above `CAP_BYTES` would be accessed, which does not exist (00_scope.md R7: `i <
  CAP_BYTES`). Raised by the commands that read a store (`PEEK`, `READ`, `RDUN`, `RDEG`, `REFILL`, `FLUSH`), and only in a
  state that breaks 10_state.md R13. Safe: the model stops where the spec describes no behaviour (log entry 7). -/
  | outsideStore
  deriving DecidableEq, Repr

/-- The reasons an instruction can be refused. No arm of `exec` uses one: every command is modelled. -/
inductive Refusal where
  /-- Raised by an arm of `exec` that has no meaning yet; none is left. Safe. -/
  | notModelled (mnemonic : String)
  deriving DecidableEq, Repr

/-- The backing store of one slot: (index, byte) pairs in one canonical form, `Memory.wf` (10_state.md R19). -/
structure Memory where
  cells : List Host.Cell
  deriving DecidableEq, Repr

/-- One Bit Buffer slot (10_state.md R10, R12). -/
structure Slot where
  /-- `VALID[b]`: the slot holds a Bit Buffer. -/
  valid : Bool
  /-- `BIT_COUNT[b]`: "total addressable bits currently valid in `bytes`". -/
  bitCount : Word
  /-- `CURSOR[b]`: "absolute bit offset into `bytes`". -/
  cursor : Word
  /-- `BYTES[b]`: the backing store (10_state.md R19). -/
  bytes : Memory
  deriving DecidableEq, Repr

/-- The host inputs of one command (44_stream.md R150): `S`, the bytes on the stream-in port, and `acc`, how many bytes
the stream-out port accepts. Only `REFILL` and `FLUSH` read them. -/
structure HostInput where
  bytes : List Byte
  accept : Nat
  deriving DecidableEq, Repr

/-- What the host presents on the command and reset ports (30_encoding.md R50). -/
inductive Event where
  /-- A command packet with its host inputs. -/
  | command (p : Packet) (input : HostInput)
  /-- The reset request (70_reset_and_hazards.md R200). -/
  | resetRequest
  deriving DecidableEq, Repr

/-- The machine. `slots` is the whole mutable state of the block (10_state.md R10); `cfg` holds its parameters, which
nothing changes (log entry 2); the other fields are the model's own and stand for the ports (log entry 1). -/
structure State where
  /-- The parameters of 00_scope.md R4. -/
  cfg : Config
  /-- The `NBUF` Bit Buffer slots. -/
  slots : List Slot
  /-- What the host will present, oldest first (the command and reset ports). -/
  pending : List Event
  /-- The stream-in bytes `S` of the command being run; empty between commands. -/
  streamIn : List Byte
  /-- The count `acc` the stream-out port accepts for the command being run; 0 between commands. -/
  streamAccept : Nat
  /-- The response the step just taken gave, if it gave one. -/
  response : Option Response
  deriving DecidableEq, Repr

/-- A slot as reset leaves it (10_state.md R21). Its bytes are unspecified; here nothing is listed (log entry 3). -/
def Slot.empty : Slot := ⟨false, 0, 0, ⟨[]⟩⟩

/-- The state after reset of a block with the given parameters (70_reset_and_hazards.md R200). -/
def State.afterReset (cfg : Config) (pending : List Event) : State :=
  { cfg := cfg, slots := List.replicate cfg.nbuf Slot.empty, pending := pending,
    streamIn := [], streamAccept := 0, response := none }

/-- The state after reset, with the vectors' parameters and nothing presented by the host (log entries 1 and 2). -/
def State.reset : State := State.afterReset vectorConfig []

end Sys2Proof.Machine
end

