-- ==== Sys2Proof/Machine/Store.lean ====
section
/-! DEFINITION. The backing store of one slot: reading and writing one byte, the zero fill, the byte moves of the
stream commands (00_scope.md R7; 20_memory.md R36; 44_stream.md R151, R152). -/

namespace Sys2Proof.Machine

/-- What a byte that nothing has written reads as. DESIGN CHOICE, log entry 3: the spec leaves it unspecified and
unobservable (10_state.md R20, R21). -/
def unlistedByte : Byte := 0x00

/-- The canonical form of a store: indices strictly rising, no entry equal to what an unlisted index reads as. -/
abbrev Memory.wf (m : Memory) : Prop :=
  m.cells.Pairwise (fun x y => x.1 < y.1) ∧ ∀ x ∈ m.cells, x.2 ≠ unlistedByte

/-- The byte listed at index `i`, or the unlisted byte. -/
def lookupCell (i : Nat) : List Host.Cell → Byte
  | [] => unlistedByte
  | c :: cs => if c.1 = i then c.2 else lookupCell i cs

/-- A list with the byte at `i` set to `v`, in canonical form if it was. -/
def putCell (i : Nat) (v : Byte) : List Host.Cell → List Host.Cell
  | [] => if v = unlistedByte then [] else [(i, v)]
  | c :: cs =>
    if i < c.1 then (if v = unlistedByte then c :: cs else (i, v) :: c :: cs)
    else if i = c.1 then (if v = unlistedByte then cs else (i, v) :: cs)
    else c :: putCell i v cs

/-- `MemRead(b, i, 1)` of 00_scope.md R7, on the store of the slot. -/
def Memory.read (m : Memory) (i : Nat) : Byte := lookupCell i m.cells

/-- `MemWrite(b, i, 1, v)` of 00_scope.md R7. -/
def Memory.write (m : Memory) (i : Nat) (v : Byte) : Memory := ⟨putCell i v m.cells⟩

/-- `for i in lo .. hi-1: MemWrite(b, i, 1, 0x00)` (20_memory.md R36; 40_buffer.md R70). Since 0x00 is what an unlisted
index reads as, the fill drops the entries of the range. -/
def Memory.zeroFill (m : Memory) (lo hi : Nat) : Memory :=
  ⟨m.cells.filter (fun c => decide (c.1 < lo) || decide (hi ≤ c.1))⟩

/-- `for i in 0 .. n-1: MemWrite(b, i, 1, MemRead(b, src + i, 1))`, ascending `i` (44_stream.md R151, R152). -/
def Memory.moveDown (m : Memory) (src : Nat) : Nat → Memory
  | 0 => m
  | n + 1 =>
    let m' := m.moveDown src n
    m'.write n (m'.read (src + n))

/-- `for i in 0 .. k-1: MemWrite(b, dst + i, 1, S[i])` (44_stream.md R151). -/
def Memory.writeAll (m : Memory) (dst : Nat) : List Byte → Memory
  | [] => m
  | v :: vs => (m.write dst v).writeAll (dst + 1) vs

/-- `[MemRead(b, 0, 1), ..., MemRead(b, k-1, 1)]` (44_stream.md R152). -/
def Memory.firstBytes (m : Memory) (k : Nat) : List Byte := (List.range k).map m.read

/-- The number of bytes that hold `bits` bits, `ceil(bits / 8)` (10_state.md R13). -/
def bytesFor (bits : Nat) : Nat := (bits + 7) / 8

end Sys2Proof.Machine
end

