-- ==== Sys2Proof/Machine/Operands.lean ====
section
/-! DEFINITION. Every form in which a command's operands are read: widths, stop bits, granularities, signed words, the
zigzag map, and the bit fields of the store under the four policy pairs (00_scope.md R5 to R8; 41_bitcodec.md R90 to
R92; 42_varlen.md R110, R115). Numbers are unbounded, as in the spec's pseudocode. -/

namespace Sys2Proof.Machine

/-- `mask(n) = 2^n − 1` (00_scope.md R5). -/
def mask (n : Nat) : Nat := 2 ^ n - 1

/-- A legal field or CRC width, 1 to 64 (41_bitcodec.md R93 item 2). -/
def widthLegal (w : WidthField) : Bool := decide (wMin ≤ w.toNat) && decide (w.toNat ≤ wMax)

/-- A stop bit is 0 or 1 (42_varlen.md R112). -/
def stopLegal (stop : StopField) : Bool := decide (stop.toNat ≤ 1)

/-- `IsPow2(g)`: `g ≠ 0` and `g AND (g − 1) = 0` (40_buffer.md, before R70). -/
def isPow2 (g : Word) : Bool := g != 0 && g &&& (g - 1) == 0

/-- `ceil(c / u) * u`, the least multiple of `u` that is not below `c` (40_buffer.md R75). -/
def alignUp (c u : Nat) : Nat := (c + u - 1) / u * u

/-- `signed(A)` (00_scope.md R6). -/
def signedWord (a : Word) : Int := a.toInt

/-- What a flavor adds to the count of non-stop bits: 0 for `WholeUnary`, 1 for `CountUnary` (42_varlen.md R111). -/
def flavorOffset (f : Flavor) : Nat :=
  match f with
  | .whole => 0
  | .count => 1

/-- The zigzag coding of a signed value (42_varlen.md R115). -/
def zigzag (v : Int) : Nat := if 0 ≤ v then (2 * v).toNat else (-2 * v - 1).toNat

/-- The zigzag decoding (42_varlen.md R115). -/
def unzigzag (u : Nat) : Int := if u % 2 = 0 then (u / 2 : Nat) else -((u + 1) / 2 : Nat)

/-- The result word of a decoded number (42_varlen.md R117; two's complement, 00_scope.md R6). -/
def golombResult (sgn : Signedness) (u : Nat) : Word :=
  match sgn with
  | .unsigned => BitVec.ofNat 64 u
  | .signed => BitVec.ofInt 64 (unzigzag u)

/-- The number `u` an Exponential-Golomb write codes, or `none` for the one unsigned and the one signed value that have
no code (42_varlen.md R118). -/
def golombNumber (sgn : Signedness) (a : Word) : Option Nat :=
  match sgn with
  | .unsigned => if a.toNat = 2 ^ 64 - 1 then none else some a.toNat
  | .signed => if signedWord a = -2 ^ 63 then none else some (zigzag (signedWord a))

/-! ### Bit fields -/

/-- A chunk: the bits of one field that lie in one byte (41_bitcodec.md R90; 00_scope.md R9). -/
structure Chunk where
  /-- `i`, the index of the byte. -/
  index : Nat
  /-- `o`, the offset in the byte of the chunk's first bit. -/
  offset : Nat
  /-- `n`, how many of the field's bits lie in the byte. -/
  size : Nat
  /-- `done`, how many of the field's bits lie in earlier bytes. -/
  start : Nat
  deriving DecidableEq, Repr

/-- The loop head of 41_bitcodec.md R90 and R91, on `fuel` bytes at most: the chunks from stream position `p` on, with
`done` of `w` bits behind them. -/
def cutFrom : Nat → Nat → Nat → Nat → List Chunk
  | 0, _, _, _ => []
  | fuel + 1, p, done, w =>
    if done < w then
      let n := min (8 - p % 8) (w - done)
      ⟨p / 8, p % 8, n, done⟩ :: cutFrom fuel (p + n) (done + n) w
    else []

/-- The chunks of the field of `w` bits at stream position `c`, in cursor order. Each chunk holds at least one bit, so
`w` rounds are enough. -/
def cut (c w : Nat) : List Chunk := cutFrom w c 0 w

/-- `sh`, the lowest physical bit of the chunk in its byte (20_memory.md R33). -/
def Chunk.shift (k : Chunk) (bio : BitOrder) : Nat :=
  match bio with
  | .msbit => 8 - k.offset - k.size
  | .lsbit => k.offset

/-- The chunk's bits as they stand in the store, `(MemRead(b, i, 1) div 2^sh) mod 2^n` (41_bitcodec.md R90). -/
def Chunk.load (k : Chunk) (bio : BitOrder) (m : Memory) : Nat :=
  (m.read k.index).toNat / 2 ^ k.shift bio % 2 ^ k.size

/-- How one chunk joins the value read so far (41_bitcodec.md R90). -/
def Chunk.join (k : Chunk) (byo : ByteOrder) (v piece : Nat) : Nat :=
  match byo with
  | .msbyte => v * 2 ^ k.size + piece
  | .lsbyte => v + piece * 2 ^ k.start

/-- The bits of the value `x` of a `w`-bit field that belong to the chunk (41_bitcodec.md R91). -/
def Chunk.piece (k : Chunk) (byo : ByteOrder) (w x : Nat) : Nat :=
  match byo with
  | .msbyte => x / 2 ^ (w - k.start - k.size) % 2 ^ k.size
  | .lsbyte => x / 2 ^ k.start % 2 ^ k.size

/-- Replace the chunk's bits in its byte and keep the others:
`(old AND NOT (mask(n) * 2^sh)) OR (chunk * 2^sh)` (41_bitcodec.md R91). -/
def Chunk.store (k : Chunk) (bio : BitOrder) (piece : Nat) (m : Memory) : Memory :=
  let sh := k.shift bio
  m.write k.index
    ((m.read k.index &&& ~~~(BitVec.ofNat 8 (mask k.size * 2 ^ sh))) ||| BitVec.ofNat 8 (piece * 2 ^ sh))

/-- `Extract(b, c, w, byo, bio)` (41_bitcodec.md R90). -/
def Memory.extract (m : Memory) (c w : Nat) (pp : Policy) : Nat :=
  (cut c w).foldl (fun v k => k.join pp.byo v (k.load pp.bio m)) 0

/-- `Insert(b, c, w, val, byo, bio)` (41_bitcodec.md R91). -/
def Memory.insert (m : Memory) (c w val : Nat) (pp : Policy) : Memory :=
  let x := val % 2 ^ w
  (cut c w).foldl (fun m k => k.store pp.bio (k.piece pp.byo w x) m) m

/-- `BitAt(b, p, bio)` (42_varlen.md R110). -/
def Memory.bitAt (m : Memory) (p : Nat) (bio : BitOrder) : Nat := m.extract p 1 ⟨.msbyte, bio⟩

/-- `PutBit(b, p, x, bio)` (42_varlen.md R110). -/
def Memory.putBit (m : Memory) (p x : Nat) (bio : BitOrder) : Memory := m.insert p 1 x ⟨.msbyte, bio⟩

/-- `for j in 0 .. k-1: PutBit(b, c + j, x, bio)` (42_varlen.md R113, R118). -/
def Memory.putRun (m : Memory) (c x : Nat) (bio : BitOrder) : Nat → Memory
  | 0 => m
  | k + 1 => (m.putRun c x bio k).putBit (c + k) x bio

/-- The unary code of the count `k`: `k` non-stop bits and one stop bit (42_varlen.md R111). -/
def Memory.putUnary (m : Memory) (c k stop : Nat) (bio : BitOrder) : Memory :=
  (m.putRun c (1 - stop) bio k).putBit (c + k) stop bio

/-- The scan for the stop bit: the count of non-stop bits from stream position `c + k` on, looking at `fuel` bits at
most; `none` when all of them are non-stop bits (42_varlen.md R112). -/
def Memory.scan (m : Memory) (c stop : Nat) (bio : BitOrder) : Nat → Nat → Option Nat
  | 0, _ => none
  | fuel + 1, k => if m.bitAt (c + k) bio = stop then some k else m.scan c stop bio fuel (k + 1)

end Sys2Proof.Machine
end

