-- ==== Sys2Proof/Machine/Ops.lean ====
section
/-! DEFINITION. The named operations over the state that the commands share: finding a slot, ending a command with a
result, ending it with an error status (this block's whole "trap entry", 60_exceptions.md R177), growth, the shared
checks, and the ports. "Trap return" is nothing (60_exceptions.md R178): the next command runs from the state the failed
one left. -/

namespace Sys2Proof.Machine

/-- What a command does to the machine. -/
abbrev Effect := Host.Outcome State Fault Refusal

/-- The slot `b`, absent when `b ≥ NBUF` (60_exceptions.md R171). -/
def State.slot? (s : State) (b : SlotNo) : Option Slot :=
  if b.toNat < s.cfg.nbuf then s.slots[b.toNat]? else none

/-- Write all registers and the store of slot `b`. -/
def State.setSlot (s : State) (b : SlotNo) (sl : Slot) : State := { s with slots := s.slots.set b.toNat sl }

/-- End the command: its response goes out and its host inputs are forgotten (10_state.md R11; 30_encoding.md R55). -/
def State.respond (s : State) (r : Response) : State :=
  { s with response := some r, streamIn := [], streamAccept := 0 }

/-- `raise <STATUS>`: taking an error. No register and no byte of any slot changes, the response carries the status and
zero result words (00_scope.md R7; 60_exceptions.md R177). -/
def raise (st : Status) (s : State) : Effect := .next (s.respond (Response.error st))

/-- `return (R0, R1)` with no change of state (00_scope.md R7). -/
def answer (r0 r1 : Word) (s : State) : Effect := .next (s.respond ⟨.ok, r0, r1, []⟩)

/-- `return (R0, R1)` after slot `b` has become `sl` (00_scope.md R7). -/
def finish (b : SlotNo) (sl : Slot) (r0 r1 : Word) (s : State) : Effect := answer r0 r1 (s.setSlot b sl)

/-- The end of `REFILL` and `FLUSH`: `OK` when all bytes asked for have moved, else `SHORT`; either way slot `b` has
become `sl` and both counts go out (44_stream.md R151 to R153). -/
def transfer (b : SlotNo) (sl : Slot) (asked moved : Nat) (out : List Byte) (s : State) : Effect :=
  .next ((s.setSlot b sl).respond
    ⟨if moved = asked then .ok else .short, BitVec.ofNat 64 asked, BitVec.ofNat 64 moved, out⟩)

/-- `NeedBuffer(b)`, then the rest of the command on the slot (60_exceptions.md R171). -/
def needBuffer (b : SlotNo) (s : State) (k : Slot → Effect) : Effect :=
  match s.slot? b with
  | none => raise .absentBuffer s
  | some sl => if sl.valid then k sl else raise .absentBuffer s

/-- `t > 8 * CAP_BYTES`, the condition of `ALLOC` (20_memory.md R38). -/
def State.noRoom (s : State) (t : Nat) : Bool := decide (t > s.cfg.capBits)

/-- The bytes below index `hi` exist (00_scope.md R7: `i < CAP_BYTES`). A command that accesses bytes without having
compared them with `CAP_BYTES` asks this first; in a state that keeps 10_state.md R13 the answer is always yes (log entry
7). -/
def State.inStore (s : State) (hi : Nat) : Bool := decide (hi ≤ s.cfg.capBytes)

/-- `LEN[b]`, the bytes in use (10_state.md R13). -/
def Slot.len (sl : Slot) : Nat := bytesFor sl.bitCount.toNat

/-- `Grow(b, t)` (20_memory.md R36). -/
def Slot.grow (sl : Slot) (t : Nat) : Slot :=
  { sl with bytes := sl.bytes.zeroFill sl.len (bytesFor t), bitCount := BitVec.ofNat 64 t }

/-- `if t > BIT_COUNT[b]: Grow(b, t)` (40_buffer.md R75, R76; 41_bitcodec.md R96). -/
def Slot.growTo (sl : Slot) (t : Nat) : Slot := if t > sl.bitCount.toNat then sl.grow t else sl

/-- `CURSOR[b] <- t`. -/
def Slot.seek (sl : Slot) (t : Nat) : Slot := { sl with cursor := BitVec.ofNat 64 t }

/-- The read shared by `PEEK` and `READ`: the width and capacity checks, then the rest with the value (41_bitcodec.md
R93, R94). -/
def readField (sl : Slot) (pp : Policy) (w : WidthField) (s : State) (k : Word → Effect) : Effect :=
  if !widthLegal w then raise .widthRange s
  else if sl.cursor.toNat + w.toNat > sl.bitCount.toNat then raise .capacity s
  else if !s.inStore (bytesFor (sl.cursor.toNat + w.toNat)) then .fault .outsideStore
  else k (BitVec.ofNat 64 (sl.bytes.extract sl.cursor.toNat w.toNat pp))

/-- The unary prefix at the cursor, then the rest with the count of non-stop bits (42_varlen.md R112, R117). Running out
of valid bits is `CAPACITY` (60_exceptions.md R173). The scan looks at no bit beyond the store. -/
def scanPrefix (sl : Slot) (bio : BitOrder) (stop : StopField) (s : State) (k : Nat → Effect) : Effect :=
  let c := sl.cursor.toNat
  let bc := sl.bitCount.toNat
  match sl.bytes.scan c stop.toNat bio (min bc s.cfg.capBits - c) 0 with
  | some n => k n
  | none => if bc ≤ max c s.cfg.capBits then raise .capacity s else .fault .outsideStore

/-! ### The ports (30_encoding.md R50) -/

/-- The head of the command port is taken and its host inputs stand on the stream ports; the previous response is gone
(20_memory.md R40; 44_stream.md R150). -/
def State.present (s : State) (input : HostInput) (rest : List Event) : State :=
  { s with pending := rest, streamIn := input.bytes, streamAccept := input.accept, response := none }

/-- Nothing is presented: nothing happens and no response goes out (log entry 6). -/
def State.idle (s : State) : State := { s with streamIn := [], streamAccept := 0, response := none }

/-- The reset transition: its result does not depend on the slots before it (70_reset_and_hazards.md R200), and it gives
no response (R201). The parameters and what the host has still to present stay. -/
def State.resetTo (s : State) (rest : List Event) : State := State.afterReset s.cfg rest

end Sys2Proof.Machine
end

