-- ==== Sys2Proof/Machine/Buffer.lean ====
section
/-! DEFINITION. The Bit Buffer commands (40_buffer.md R70 to R76). -/

namespace Sys2Proof.Machine

/-- `CREATE bN, cap` (40_buffer.md R70). The bytes at and above index `cap` may take any value (93_implementation_defined.md
U5); they are left as they stand: DESIGN CHOICE, log entry 4. -/
def execCreate (b : SlotNo) (cap : Word) (s : State) : Effect :=
  match s.slot? b with
  | none => raise .absentBuffer s
  | some sl =>
    if sl.valid then raise .slotInUse s
    else if cap.toNat > s.cfg.capBytes then raise .alloc s
    else finish b ⟨true, BitVec.ofNat 64 (8 * cap.toNat), 0, sl.bytes.zeroFill 0 cap.toNat⟩ 0 0 s

/-- `DESTROY bN` (40_buffer.md R71). The bytes become unspecified; they are left as they stand: DESIGN CHOICE,
log entry 4. -/
def execDestroy (b : SlotNo) (s : State) : Effect :=
  needBuffer b s fun sl => finish b ⟨false, 0, 0, sl.bytes⟩ 0 0 s

/-- `BITLEN bN` (40_buffer.md R72). -/
def execBitlen (b : SlotNo) (s : State) : Effect :=
  needBuffer b s fun sl => answer sl.bitCount 0 s

/-- `POS bN` (40_buffer.md R73). -/
def execPos (b : SlotNo) (s : State) : Effect :=
  needBuffer b s fun sl => answer sl.cursor 0 s

/-- `ISALIGN bN, g` (40_buffer.md R74). -/
def execIsalign (b : SlotNo) (g : Word) (s : State) : Effect :=
  needBuffer b s fun sl =>
    if !isPow2 g then raise .granularity s
    else if sl.cursor.toNat % (8 * g.toNat) = 0 then answer 1 0 s
    else answer 0 0 s

/-- The target of `ALIGN` (40_buffer.md R75). -/
def Slot.alignTarget (sl : Slot) (g : Word) : Nat := alignUp sl.cursor.toNat (8 * g.toNat)

/-- `ALIGN bN, g` (40_buffer.md R75). -/
def execAlign (b : SlotNo) (g : Word) (s : State) : Effect :=
  needBuffer b s fun sl =>
    if !isPow2 g then raise .granularity s
    else if s.noRoom (sl.alignTarget g) then raise .alloc s
    else finish b ((sl.growTo (sl.alignTarget g)).seek (sl.alignTarget g)) 0 0 s

/-- The target of `SKIP`, an unbounded integer (40_buffer.md R76). -/
def Slot.skipTarget (sl : Slot) (delta : Word) : Int := sl.cursor.toNat + signedWord delta

/-- `SKIP bN, delta`, alias `SEEK` (40_buffer.md R76). -/
def execSkip (b : SlotNo) (delta : Word) (s : State) : Effect :=
  needBuffer b s fun sl =>
    if sl.skipTarget delta < 0 then raise .skipBelowStart s
    else if s.noRoom (sl.skipTarget delta).toNat then raise .alloc s
    else finish b ((sl.growTo (sl.skipTarget delta).toNat).seek (sl.skipTarget delta).toNat) 0 0 s

end Sys2Proof.Machine
end

