-- ==== Sys2Proof/Machine/Codec.lean ====
section
/-! DEFINITION. The Bit Codec commands (41_bitcodec.md R94 to R96). -/

namespace Sys2Proof.Machine

/-- `PEEK.pp bN, w` (41_bitcodec.md R94). -/
def execPeek (b : SlotNo) (pp : Policy) (w : WidthField) (s : State) : Effect :=
  needBuffer b s fun sl => readField sl pp w s fun v => answer v 0 s

/-- `READ.pp bN, w` (41_bitcodec.md R95). -/
def execRead (b : SlotNo) (pp : Policy) (w : WidthField) (s : State) : Effect :=
  needBuffer b s fun sl =>
    readField sl pp w s fun v => finish b (sl.seek (sl.cursor.toNat + w.toNat)) v 0 s

/-- The slot after `WRITE`: grown if need be, the field stored, the cursor after it (41_bitcodec.md R96). -/
def Slot.writeField (sl : Slot) (pp : Policy) (w : Nat) (value : Word) : Slot :=
  let t := sl.cursor.toNat + w
  let g := sl.growTo t
  Slot.seek { g with bytes := g.bytes.insert sl.cursor.toNat w value.toNat pp } t

/-- `WRITE.pp bN, w, value` (41_bitcodec.md R96). -/
def execWrite (b : SlotNo) (pp : Policy) (w : WidthField) (value : Word) (s : State) : Effect :=
  needBuffer b s fun sl =>
    if !widthLegal w then raise .widthRange s
    else if s.noRoom (sl.cursor.toNat + w.toNat) then raise .alloc s
    else finish b (sl.writeField pp w.toNat value) 0 0 s

end Sys2Proof.Machine
end

