-- ==== Sys2Proof/Machine/Crc.lean ====
section
/-! DEFINITION. The CRC engine (43_crc.md R130 to R134). It reads and writes no slot. -/

namespace Sys2Proof.Machine

/-- The low `w` bits of a word, `a mod 2^w` (43_crc.md R130). -/
def lowBits (a : Word) (w : Nat) : Word := BitVec.ofNat 64 (a.toNat % 2 ^ w)

/-- One step of the division: shift right, and XOR the polynomial in if the bit shifted out was 1 (43_crc.md R130). -/
def crcStep (pm r : Word) : Word := if r.toNat % 2 = 1 then (r >>> 1) ^^^ pm else r >>> 1

/-- `n` steps of the division. -/
def crcSteps (pm : Word) : Nat → Word → Word
  | 0, r => r
  | n + 1, r => crcSteps pm n (crcStep pm r)

/-- One data byte: XOR it into bits 7..0 of the register, then 8 steps (43_crc.md R130). -/
def crcByte (pm r : Word) (x : Byte) : Word := crcSteps pm 8 (r ^^^ x.setWidth 64)

/-- The transform applied to each data byte: none for `BE` = 0, `CRC_BE_XFORM` for `BE` = 1 (43_crc.md R132). -/
def dataByte (cfg : Config) (be : DataOrder) (x : Byte) : Byte :=
  match be with
  | .little => x
  | .big => cfg.crcBeXform x

/-- `CrcGen(data, be, poly, w, init)` (43_crc.md R130). -/
def crcGen (cfg : Config) (data : List Byte) (be : DataOrder) (poly : Word) (w : Nat) (start : Word) : Word :=
  data.foldl (fun r x => crcByte (lowBits poly w) r (dataByte cfg be x)) (lowBits start w)

/-- `CRCGEN.e w, poly, init, [bytes]` (43_crc.md R133). -/
def execCrcgen (w : WidthField) (be : DataOrder) (poly start : Word) (data : List Byte) (s : State) : Effect :=
  if !widthLegal w then raise .widthRange s
  else answer (crcGen s.cfg data be poly w.toNat start) 0 s

/-- `CRCVFY.e w, poly, init, embedded, [bytes]` (43_crc.md R134). -/
def execCrcvfy (w : WidthField) (be : DataOrder) (poly start embedded : Word) (data : List Byte) (s : State) :
    Effect :=
  if !widthLegal w then raise .widthRange s
  else if crcGen s.cfg data be poly w.toNat start = embedded then answer 1 0 s
  else answer 0 0 s

end Sys2Proof.Machine
end

