-- ==== Sys2Proof/Machine/Stream.lean ====
section
/-! DEFINITION. The stream commands (44_stream.md R150 to R153). The host inputs `S` and `acc` stand on the stream ports,
`State.streamIn` and `State.streamAccept`. -/

namespace Sys2Proof.Machine

/-- The bytes `REFILL` keeps: the partly read byte and everything after it, `T = L − q` (44_stream.md R151). -/
def Slot.keptBytes (sl : Slot) : Nat := sl.bitCount.toNat / 8 - sl.cursor.toNat / 8

/-- One past the last byte that `REFILL` keeps; 0 where it keeps none. -/
def Slot.keptEnd (sl : Slot) : Nat := if sl.keptBytes = 0 then 0 else sl.cursor.toNat / 8 + sl.keptBytes

/-- The slot after `REFILL` has taken the bytes `fresh` (44_stream.md R151). -/
def Slot.refilled (sl : Slot) (fresh : List Byte) : Slot :=
  { sl with
    bytes := (sl.bytes.moveDown (sl.cursor.toNat / 8) sl.keptBytes).writeAll sl.keptBytes fresh
    cursor := BitVec.ofNat 64 (sl.cursor.toNat % 8)
    bitCount := BitVec.ofNat 64 (8 * (sl.keptBytes + fresh.length)) }

/-- `REFILL bN, n <- S` (44_stream.md R151). -/
def execRefill (b : SlotNo) (n : Word) (s : State) : Effect :=
  needBuffer b s fun sl =>
    if sl.bitCount.toNat % 8 ≠ 0 then raise .partialTail s
    else if sl.keptBytes + n.toNat > s.cfg.capBytes then raise .alloc s
    else if !s.inStore sl.keptEnd then .fault .outsideStore
    else transfer b (sl.refilled (s.streamIn.take n.toNat)) n.toNat (s.streamIn.take n.toNat).length [] s

/-- The slot after `FLUSH` has emitted its first `k` bytes (44_stream.md R152). -/
def Slot.flushed (sl : Slot) (k : Nat) : Slot :=
  { sl with
    bytes := sl.bytes.moveDown k (sl.len - k)
    cursor := BitVec.ofNat 64 (sl.cursor.toNat - 8 * k)
    bitCount := BitVec.ofNat 64 (sl.bitCount.toNat - 8 * k) }

/-- `F`, the whole bytes used: the cursor rounded down to bytes (44_stream.md R152). -/
def Slot.usedBytes (sl : Slot) : Nat := sl.cursor.toNat / 8

/-- `k = min(acc, F)`, the bytes the stream-out port takes (44_stream.md R152). -/
def Slot.emitCount (sl : Slot) (accept : Nat) : Nat := min accept sl.usedBytes

/-- `FLUSH bN -> acc` (44_stream.md R152). -/
def execFlush (b : SlotNo) (s : State) : Effect :=
  needBuffer b s fun sl =>
    if !s.inStore (max (sl.emitCount s.streamAccept) sl.len) then .fault .outsideStore
    else transfer b (sl.flushed (sl.emitCount s.streamAccept)) sl.usedBytes (sl.emitCount s.streamAccept)
      (sl.bytes.firstBytes (sl.emitCount s.streamAccept)) s

end Sys2Proof.Machine
end

