-- ==== Sys2Proof/Machine/VarLen.lean ====
section
/-! DEFINITION. The Variable-Length Coder: unary and Exponential-Golomb codes (42_varlen.md R112 to R118). -/

namespace Sys2Proof.Machine

/-- `RDUN.pp bN, flavor, stop` (42_varlen.md R112). -/
def execRdun (b : SlotNo) (pp : Policy) (flavor : Flavor) (stop : StopField) (s : State) : Effect :=
  needBuffer b s fun sl =>
    if !stopLegal stop then raise .stopBit s
    else scanPrefix sl pp.bio stop s fun k =>
      finish b (sl.seek (sl.cursor.toNat + k + 1)) (BitVec.ofNat 64 (k + flavorOffset flavor)) 0 s

/-- The slot after the unary code of the count `k` has been written at the cursor (42_varlen.md R113). -/
def Slot.writeUnary (sl : Slot) (bio : BitOrder) (stop k : Nat) : Slot :=
  let t := sl.cursor.toNat + k + 1
  let g := sl.growTo t
  Slot.seek { g with bytes := g.bytes.putUnary sl.cursor.toNat k stop bio } t

/-- The number of non-stop bits that code a value, `A0 - flavor` (42_varlen.md R113). -/
def unaryCount (flavor : Flavor) (value : Word) : Nat := value.toNat - flavorOffset flavor

/-- `WRUN.pp bN, flavor, stop, value` (42_varlen.md R113). -/
def execWrun (b : SlotNo) (pp : Policy) (flavor : Flavor) (stop : StopField) (value : Word) (s : State) : Effect :=
  needBuffer b s fun sl =>
    if !stopLegal stop then raise .stopBit s
    else if flavor = .count ∧ value = 0 then raise .valueDomain s
    else if s.noRoom (sl.cursor.toNat + unaryCount flavor value + 1) then raise .alloc s
    else finish b (sl.writeUnary pp.bio stop.toNat (unaryCount flavor value)) 0 0 s

/-- The payload of an Exponential-Golomb code with prefix count `k` at stream position `c`; a 0-bit field is not read
(42_varlen.md R117). -/
def Memory.golombPayload (m : Memory) (c k : Nat) (pp : Policy) : Nat :=
  if k = 0 then 0 else m.extract (c + k + 1) k pp

/-- `RDEG.pp bN, sign, stop` (42_varlen.md R117). -/
def execRdeg (b : SlotNo) (pp : Policy) (sgn : Signedness) (stop : StopField) (s : State) : Effect :=
  needBuffer b s fun sl =>
    if !stopLegal stop then raise .stopBit s
    else scanPrefix sl pp.bio stop s fun k =>
      if k > 63 then raise .valueDomain s
      else if sl.cursor.toNat + 2 * k + 1 > sl.bitCount.toNat then raise .capacity s
      else if !s.inStore (bytesFor (sl.cursor.toNat + 2 * k + 1)) then .fault .outsideStore
      else finish b (sl.seek (sl.cursor.toNat + 2 * k + 1))
        (golombResult sgn (2 ^ k + sl.bytes.golombPayload sl.cursor.toNat k pp - 1)) 0 s

/-- The prefix count of the number `u`: `k = floor(log2(u + 1))` (42_varlen.md R114). -/
def golombPrefix (u : Nat) : Nat := Nat.log2 (u + 1)

/-- The length of the code of `u`, `2k + 1` bits (42_varlen.md R114). -/
def golombLength (u : Nat) : Nat := 2 * golombPrefix u + 1

/-- The code of the number `u` stored at stream position `c`: with `m = u + 1` and `k = floor(log2(m))`, the unary code
of `k`, then `m − 2^k` as a `k`-bit field (42_varlen.md R114, R118). -/
def Memory.putGolomb (m : Memory) (c u stop : Nat) (pp : Policy) : Memory :=
  let k := golombPrefix u
  let m' := m.putUnary c k stop pp.bio
  if k = 0 then m' else m'.insert (c + k + 1) k (u + 1 - 2 ^ k) pp

/-- The slot after the code of `u` has been written at the cursor (42_varlen.md R118). -/
def Slot.writeGolomb (sl : Slot) (pp : Policy) (stop u : Nat) : Slot :=
  let t := sl.cursor.toNat + golombLength u
  let g := sl.growTo t
  Slot.seek { g with bytes := g.bytes.putGolomb sl.cursor.toNat u stop pp } t

/-- `WREG.pp bN, sign, stop, value` (42_varlen.md R118). -/
def execWreg (b : SlotNo) (pp : Policy) (sgn : Signedness) (stop : StopField) (value : Word) (s : State) : Effect :=
  needBuffer b s fun sl =>
    if !stopLegal stop then raise .stopBit s
    else
      match golombNumber sgn value with
      | none => raise .valueDomain s
      | some u =>
        if s.noRoom (sl.cursor.toNat + golombLength u) then raise .alloc s
        else finish b (sl.writeGolomb pp stop.toNat u) 0 0 s

end Sys2Proof.Machine
end

