-- ==== Sys2Proof/Machine/Dispatch.lean ====
section
/-! DEFINITION. The dispatcher: one arm for each constructor of `Instr`, each a direct call of its meaning. -/

namespace Sys2Proof.Machine

def exec (i : Instr) (s : State) : Host.Outcome State Fault Refusal :=
  match i with
  | .create b cap => Sys2Proof.Machine.execCreate b cap s
  | .destroy b => Sys2Proof.Machine.execDestroy b s
  | .bitlen b => Sys2Proof.Machine.execBitlen b s
  | .pos b => Sys2Proof.Machine.execPos b s
  | .isalign b g => Sys2Proof.Machine.execIsalign b g s
  | .align b g => Sys2Proof.Machine.execAlign b g s
  | .skip b delta => Sys2Proof.Machine.execSkip b delta s
  | .peek b pp w => Sys2Proof.Machine.execPeek b pp w s
  | .read b pp w => Sys2Proof.Machine.execRead b pp w s
  | .write b pp w value => Sys2Proof.Machine.execWrite b pp w value s
  | .rdun b pp flavor stop => Sys2Proof.Machine.execRdun b pp flavor stop s
  | .wrun b pp flavor stop value => Sys2Proof.Machine.execWrun b pp flavor stop value s
  | .rdeg b pp sgn stop => Sys2Proof.Machine.execRdeg b pp sgn stop s
  | .wreg b pp sgn stop value => Sys2Proof.Machine.execWreg b pp sgn stop value s
  | .crcgen w be poly start data => Sys2Proof.Machine.execCrcgen w be poly start data s
  | .crcvfy w be poly start embedded data => Sys2Proof.Machine.execCrcvfy w be poly start embedded data s
  | .refill b n => Sys2Proof.Machine.execRefill b n s
  | .flush b => Sys2Proof.Machine.execFlush b s

end Sys2Proof.Machine
end

