-- ==== Sys2Proof/Machine/Step.lean ====
section
/-! DEFINITION. One step of the machine: the block takes what the host presents next, a command or a reset request, and
runs it to completion (20_memory.md R40; 30_encoding.md R57; 70_reset_and_hazards.md R200). -/

namespace Sys2Proof.Machine

/-- Decode a packet and run it, or answer why it is no command (30_encoding.md R57). -/
def runPacket (p : Packet) (s : State) : Host.Outcome State Fault Refusal :=
  match decode p with
  | .error e => raise (decodeStatus e) s
  | .ok i => exec i s

/-- `step : State × Command × HostInput → State × Response` of 20_memory.md R40, the command and its host input taken
from `pending` and the response left in `response` (log entry 1). -/
def step (s : State) : Host.Outcome State Fault Refusal :=
  match s.pending with
  | [] => .next s.idle
  | .resetRequest :: rest => .next (s.resetTo rest)
  | .command p input :: rest => runPacket p (s.present input rest)

/-- The state with the packet of an opcode-table word as the next event the host presents, with no host input (log entry
9). -/
def State.withFetchWord (s : State) (nbits w : Nat) : State :=
  { s with pending := .command (packetOfBits nbits w) ⟨[], 0⟩ :: s.pending }

end Sys2Proof.Machine
end

