-- ==== Sys2Proof/Safety.lean ====
section
/-! DEFINITION. What a good state and a safe run are, in the terms the statements use: the invariants of 10_state.md R13
with the canonical form of the stores, and what a host can observe of a state (10_state.md R20). -/

namespace Sys2Proof.Machine

/-- The invariants of one slot (10_state.md R13), and the canonical form of its store, which lists no index outside
`CAP_BYTES` (R19). -/
abbrev Slot.wf (capBytes : Nat) (sl : Slot) : Prop :=
  sl.cursor.toNat ≤ sl.bitCount.toNat ∧ sl.bitCount.toNat ≤ 8 * capBytes ∧
    (sl.valid = false → sl.bitCount = 0 ∧ sl.cursor = 0) ∧
    sl.bytes.wf ∧ ∀ x ∈ sl.bytes.cells, x.1 < capBytes

/-- The invariants of 10_state.md R13 alone, with legal parameters: nothing is asked of the stores or of the ports. -/
abbrev State.inBounds (s : State) : Prop :=
  s.cfg.wf ∧ s.slots.length = s.cfg.nbuf ∧ ∀ sl ∈ s.slots,
    sl.cursor.toNat ≤ sl.bitCount.toNat ∧ sl.bitCount.toNat ≤ 8 * s.cfg.capBytes ∧
      (sl.valid = false → sl.bitCount = 0 ∧ sl.cursor = 0)

/-- A good state: legal parameters, `NBUF` slots, every slot good. Nothing is asked of the port fields. -/
abbrev State.wf (s : State) : Prop :=
  s.cfg.wf ∧ s.slots.length = s.cfg.nbuf ∧ ∀ sl ∈ s.slots, sl.wf s.cfg.capBytes

/-- A step that ends in a next state (60_exceptions.md R178: "The block never aborts, halts, hangs"). -/
abbrev Safe (o : Host.Outcome State Fault Refusal) : Prop := ∃ t, o = .next t

/-- Two slots a host cannot tell apart: equal registers and equal bytes in use (10_state.md R19, R20). -/
abbrev Slot.Same (x y : Slot) : Prop :=
  x.valid = y.valid ∧ x.bitCount = y.bitCount ∧ x.cursor = y.cursor ∧
    ∀ i, i < x.len → x.bytes.read i = y.bytes.read i

/-- Two states a host cannot tell apart: they may differ only in bytes at or above `LEN` of some slot. -/
abbrev State.Same (s t : State) : Prop :=
  s.cfg = t.cfg ∧ s.slots.length = t.slots.length ∧
    (∀ (n : Nat) (x y : Slot), s.slots[n]? = some x → t.slots[n]? = some y → x.Same y) ∧
    s.pending = t.pending ∧ s.streamIn = t.streamIn ∧ s.streamAccept = t.streamAccept ∧ s.response = t.response

/-! ### The terms of the statements -/

/-- Slot `b` is present and holds the Bit Buffer `sl` (60_exceptions.md R171). -/
abbrev State.Holds (s : State) (b : SlotNo) (sl : Slot) : Prop := s.slot? b = some sl ∧ sl.valid = true

/-- Slot `b` exists and holds no Bit Buffer; `sl` is what its registers and its store are (40_buffer.md R70). -/
abbrev State.Vacant (s : State) (b : SlotNo) (sl : Slot) : Prop := s.slot? b = some sl ∧ sl.valid = false

/-- Slot `b` is absent: `b ≥ NBUF`, or it holds no Bit Buffer (60_exceptions.md R171). -/
abbrev State.Absent (s : State) (b : SlotNo) : Prop :=
  s.cfg.nbuf ≤ b.toNat ∨ ∃ sl, s.slots[b.toNat]? = some sl ∧ sl.valid = false

/-- The command ends with an error status: no slot changes, both result words are 0 (60_exceptions.md R177). -/
abbrev Raises (i : Instr) (s : State) (st : Status) : Prop := exec i s = .next (s.respond ⟨st, 0, 0, []⟩)

/-- The command ends with `OK` and the result word `r0`; no slot changes. -/
abbrev Answers (i : Instr) (s : State) (r0 : Word) : Prop := exec i s = .next (s.respond ⟨.ok, r0, 0, []⟩)

/-- The command ends with the response `r`; slot `b` has become `sl`, and no other slot changes. -/
abbrev Becomes (i : Instr) (s : State) (b : SlotNo) (sl : Slot) (r : Response) : Prop :=
  exec i s = .next ((s.setSlot b sl).respond r)

/-- The `OPC` byte of an instruction's header (30_encoding.md R52). -/
def opcodeByte (i : Instr) : BitVec 8 := (encode i).header.extractLsb' 0 8

/-- The operand words and the payload of a packet are those its row asks for: as many words as the row has, and a payload
of `A2` bytes for the CRC commands and of none for the others (30_encoding.md R57 item 2). -/
abbrev RowFits (r : Row) (p : Packet) : Prop :=
  p.operands.length = r.words ∧
    (if r.op = .crcgen ∨ r.op = .crcvfy then p.operands[2]?.map BitVec.toNat = some p.payload.length
      else p.payload = [])

/-- The slot named by the `BUF` field of a command that has one (30_encoding.md R56). -/
def slotOf (i : Instr) : Option SlotNo :=
  match i with
  | .create b _ => some b
  | .destroy b => some b
  | .bitlen b => some b
  | .pos b => some b
  | .isalign b _ => some b
  | .align b _ => some b
  | .skip b _ => some b
  | .peek b _ _ => some b
  | .read b _ _ => some b
  | .write b _ _ _ => some b
  | .rdun b _ _ _ => some b
  | .wrun b _ _ _ _ => some b
  | .rdeg b _ _ _ => some b
  | .wreg b _ _ _ _ => some b
  | .crcgen _ _ _ _ _ => none
  | .crcvfy _ _ _ _ _ _ => none
  | .refill b _ => some b
  | .flush b => some b

/-- The row of the opcode map an instruction belongs to, by name (30_encoding.md R56). -/
def opcodeOf (i : Instr) : Opcode :=
  match i with
  | .create _ _ => .create
  | .destroy _ => .destroy
  | .bitlen _ => .bitlen
  | .pos _ => .pos
  | .isalign _ _ => .isalign
  | .align _ _ => .align
  | .skip _ _ => .skip
  | .peek _ _ _ => .peek
  | .read _ _ _ => .read
  | .write _ _ _ _ => .write
  | .rdun _ _ _ _ => .rdun
  | .wrun _ _ _ _ _ => .wrun
  | .rdeg _ _ _ _ => .rdeg
  | .wreg _ _ _ _ _ => .wreg
  | .crcgen _ _ _ _ _ => .crcgen
  | .crcvfy _ _ _ _ _ _ => .crcvfy
  | .refill _ _ => .refill
  | .flush _ => .flush

/-- The statuses each command may end with: `OK`, and the rows of 60_exceptions.md R170 whose "Raised by" names it. -/
def statusesOf (op : Opcode) : List Status :=
  match op with
  | .create => [.ok, .absentBuffer, .slotInUse, .alloc]
  | .destroy => [.ok, .absentBuffer]
  | .bitlen => [.ok, .absentBuffer]
  | .pos => [.ok, .absentBuffer]
  | .isalign => [.ok, .absentBuffer, .granularity]
  | .align => [.ok, .absentBuffer, .granularity, .alloc]
  | .skip => [.ok, .absentBuffer, .skipBelowStart, .alloc]
  | .peek => [.ok, .absentBuffer, .widthRange, .capacity]
  | .read => [.ok, .absentBuffer, .widthRange, .capacity]
  | .write => [.ok, .absentBuffer, .widthRange, .alloc]
  | .rdun => [.ok, .absentBuffer, .stopBit, .capacity]
  | .wrun => [.ok, .absentBuffer, .stopBit, .valueDomain, .alloc]
  | .rdeg => [.ok, .absentBuffer, .stopBit, .valueDomain, .capacity]
  | .wreg => [.ok, .absentBuffer, .stopBit, .valueDomain, .alloc]
  | .crcgen => [.ok, .widthRange]
  | .crcvfy => [.ok, .widthRange]
  | .refill => [.ok, .absentBuffer, .partialTail, .alloc, .short]
  | .flush => [.ok, .absentBuffer, .short]

/-- The physical bit of its byte that stream position `p` names (20_memory.md R33). -/
def physicalBit (bio : BitOrder) (p : Nat) : Nat :=
  match bio with
  | .msbit => 7 - p % 8
  | .lsbit => p % 8

/-- The bit at stream position `p` of a store (20_memory.md R30, R33). -/
def Memory.bit (m : Memory) (bio : BitOrder) (p : Nat) : Bool := (m.read (p / 8)).getLsbD (physicalBit bio p)

/-- The start `s` of the chunk that holds stream bit `k` of the field of `w` bits at position `c`: chunk 0 is
`[0, min(8 − c mod 8, w))`, each later chunk starts where the previous one ended (41_bitcodec.md R92). -/
def chunkStart (c w k : Nat) : Nat :=
  let n := min (8 - c % 8) w
  if k < n then 0 else n + 8 * ((k - n) / 8)

/-- The length `n` of that chunk: `min(8 − c mod 8, w)` for chunk 0, else `min(8, w − start)` (41_bitcodec.md R92). -/
def chunkSize (c w k : Nat) : Nat :=
  let n := min (8 - c % 8) w
  if k < n then n else min 8 (w - chunkStart c w k)

/-- The value bit that stream bit `k` of a field carries: its significance inside the chunk, plus the weight of the
chunk (the two tables of 41_bitcodec.md R92). -/
def fieldBit (c w k : Nat) (pp : Policy) : Nat :=
  let s := chunkStart c w k
  let n := chunkSize c w k
  (match pp.bio with
    | .msbit => n - 1 - (k - s)
    | .lsbit => k - s) +
  (match pp.byo with
    | .msbyte => w - s - n
    | .lsbyte => s)

/-- The byte at index `i` after growth to `t` bits: 0 where it comes into use, else as before (20_memory.md R36). -/
def Slot.grownByte (sl : Slot) (t i : Nat) : Byte :=
  if bytesFor sl.bitCount.toNat ≤ i ∧ i < bytesFor t then 0x00 else sl.bytes.read i

/-- The bit at stream position `p` after growth to `t` bits: 0 in the bytes that come into use, else as before
(20_memory.md R36). -/
def Slot.grownBit (sl : Slot) (t : Nat) (bio : BitOrder) (p : Nat) : Bool :=
  if bytesFor sl.bitCount.toNat ≤ p / 8 ∧ p / 8 < bytesFor t then false else sl.bytes.bit bio p

/-- The stop bit as a truth value; `STOP` = 0 or 1 (42_varlen.md R111). -/
def stopValue (stop : StopField) : Bool := stop == 1

/-- `g` is one of 1, 2, 4, ..., 2^63 (40_buffer.md, before R70). -/
abbrev PowerOfTwo (g : Word) : Prop := ∃ n, n < 64 ∧ g.toNat = 2 ^ n

end Sys2Proof.Machine
end

