-- ==== Sys2Proof/Certificates/Slice0/Obligations.lean ====
section
/-! DEFINITION. The statements about the block, for the provers. Each formalises rules of spec/ (cited by number) or, where
its docstring says so, a choice of the model (cited by log entry). The terms are those of Safety.lean. -/

section
open Sys2Proof Sys2Proof.Machine

/-! ### Packets and decoding (30_encoding.md) -/

/-- Decoding the packet of a well-formed instruction gives the instruction back, with every operand at every value
(30_encoding.md R52, R54, R56, R57). -/
def Obligations.DecodeOfEncode : Prop := ∀ i : Instr, i.wf = true → decode (encode i) = .ok i

/-- A packet that decodes is the packet of the instruction it decodes to, which is well formed: no bit of a packet is
ignored (30_encoding.md R57: must-be-zero fields are never ignored). -/
def Obligations.EncodeOfDecode : Prop := ∀ (p : Packet) (i : Instr), decode p = .ok i → encode i = p ∧ i.wf = true

/-- 30_encoding.md R57: a packet whose header selects no row answers 0x61, one with the wrong operand words or payload
0x62, both without any change, and every other runs the command of its row. -/
def Obligations.DecodingIsTotal : Prop :=
  Status.illegalEncoding.code = 0x61 ∧ Status.illegalPacket.code = 0x62 ∧
  ∀ (s : State) (p : Packet) (input : HostInput) (rest : List Event), s.pending = .command p input :: rest →
    ((∀ r ∈ opcodeMap, p.header &&& r.mask ≠ r.pattern) →
      step s = .next ((s.present input rest).respond ⟨.illegalEncoding, 0, 0, []⟩)) ∧
    ∀ r ∈ opcodeMap, p.header &&& r.mask = r.pattern →
      (¬ RowFits r p → step s = .next ((s.present input rest).respond ⟨.illegalPacket, 0, 0, []⟩)) ∧
      (RowFits r p → ∃ i, opcodeOf i = r.op ∧ encode i = p ∧ step s = exec i (s.present input rest))

/-- An unassigned opcode, a nonzero `TRUNC` bit and a nonzero reserved bit are illegal: status 0x61, no change
(30_encoding.md R57, R58; 42_varlen.md R116). -/
def Obligations.IllegalHeaders : Prop :=
  ∀ (s : State) (p : Packet),
    (let opc := p.header.toNat % 256;
      opc = 0x00 ∨ (0x08 ≤ opc ∧ opc ≤ 0x0F) ∨ (0x13 ≤ opc ∧ opc ≤ 0x1F) ∨ (0x24 ≤ opc ∧ opc ≤ 0x2F) ∨
        (0x32 ≤ opc ∧ opc ≤ 0x3F) ∨ 0x42 ≤ opc ∨ p.header.getLsbD 25 = true ∨
        ∃ j, 27 ≤ j ∧ j ≤ 31 ∧ p.header.getLsbD j = true) →
      runPacket p s = .next (s.respond ⟨.illegalEncoding, 0, 0, []⟩)

/-- The worked encodings of 30_encoding.md section 8, decoded; a sanity statement. -/
def Obligations.SampleWords : Prop :=
  decode ⟨0x000C0012, [0xABC], []⟩ = .ok (.write 0 ⟨.msbyte, .msbit⟩ 12 0xABC) ∧
  decode ⟨0x000C0011, [], []⟩ = .ok (.read 0 ⟨.msbyte, .msbit⟩ 12) ∧
  decode ⟨0x00410011, [], []⟩ = .ok (.read 0 ⟨.msbyte, .msbit⟩ 65) ∧
  decode ⟨0x00403112, [7], []⟩ = .ok (.write 1 ⟨.lsbyte, .lsbit⟩ 64 7) ∧
  decode ⟨0x00804021, [5], []⟩ = .ok (.wrun 0 ⟨.msbyte, .msbit⟩ .count 1 5) ∧
  decode ⟨0x00804020, [], []⟩ = .ok (.rdun 0 ⟨.msbyte, .msbit⟩ .count 1) ∧
  decode ⟨0x00100030, [0x8005, 0, 3], [0x12, 0x34, 0x56]⟩ = .ok (.crcgen 16 .little 0x8005 0 [0x12, 0x34, 0x56])

/-! ### The step, reset and the ports -/

/-- A step at a command packet that decodes runs the decoded instruction, with the packet taken from the port, its host
inputs on the stream ports and the old response gone (20_memory.md R40; that the ports are fields of State is log entry 1).
The second half, the same at the word that `decodeTableWord` reads and `withFetchWord` presents before all pending events
with no stream bytes and an accepted count of 0, is the model's choice, log entry 9, and no rule of the spec. -/
def Obligations.StepRunsDecoded : Prop :=
  (∀ (s : State) (p : Packet) (input : HostInput) (rest : List Event) (i : Instr),
    s.pending = .command p input :: rest → decode p = .ok i →
      step s = exec i { s with
        pending := rest, streamIn := input.bytes, streamAccept := input.accept, response := none }) ∧
  ∀ (s : State) (nbits w : Nat) (i : Instr), decodeTableWord nbits w = some i →
    step (s.withFetchWord nbits w) = exec i { s with streamIn := [], streamAccept := 0, response := none }

/-- Reset clears `VALID`, `BIT_COUNT` and `CURSOR` of every slot, and its result does not depend on the slots before it
(70_reset_and_hazards.md R200). The last clause equates whole states, so also every byte of every store, which R200 leaves
unspecified: that no byte depends on the state before is the model's choice, log entry 5. -/
def Obligations.ResetTransition : Prop :=
  ∀ (s : State) (rest : List Event), s.pending = .resetRequest :: rest →
    (∃ t, step s = .next t ∧ t.slots.length = s.cfg.nbuf ∧ t.cfg = s.cfg ∧ t.pending = rest ∧
      ∀ sl ∈ t.slots, sl.valid = false ∧ sl.bitCount = 0 ∧ sl.cursor = 0) ∧
    ∀ s' : State, s'.cfg = s.cfg → s'.pending = s.pending → step s' = step s

/-- 70_reset_and_hazards.md R201: reset itself gives no response, the first response is that of the first command, a CRC
command answers at once what it answers in every state of the block, and every other command but `CREATE` answers
`ABSENT_BUFFER`. -/
def Obligations.AfterReset : Prop :=
  ∀ (s : State) (p : Packet) (input : HostInput) (rest : List Event) (i : Instr),
    s.pending = .resetRequest :: .command p input :: rest → decode p = .ok i →
      ∃ t u r, step s = .next t ∧ t.response = none ∧ step t = .next u ∧ u.response = some r ∧ u.pending = rest ∧
        (slotOf i = none → ∀ s', s'.cfg = s.cfg → ∃ t', exec i s' = .next t' ∧ t'.response = some r) ∧
        (∀ b, slotOf i = some b → (∀ cap, i ≠ .create b cap) →
          r = ⟨.absentBuffer, 0, 0, []⟩ ∧ u.slots = t.slots)

/-- The state after reset is a good state with no buffer, and nothing is presented. That nothing is presented and there is
no response is the model's choice (log entry 1), and so are its parameters, the vectors' (log entry 2), and its stores, in
which nothing is listed (log entry 3). -/
def Obligations.ResetStateIsGood : Prop :=
  State.reset.wf ∧ State.reset.pending = [] ∧ State.reset.response = none ∧ State.reset.slots.length = 2 ∧
    State.reset.cfg.capBytes = 4096 ∧
    (∀ sl ∈ State.reset.slots, sl.valid = false ∧ sl.bitCount = 0 ∧ sl.cursor = 0) ∧
    ∀ (x : Byte) (j : Nat), j < 8 → (State.reset.cfg.crcBeXform x).getLsbD j = x.getLsbD (7 - j)

/-- While nothing is presented a step changes no slot and gives no response: the model's choice (log entry 6). -/
def Obligations.IdleStep : Prop :=
  ∀ s : State, s.pending = [] →
    ∃ t, step s = .next t ∧ t.slots = s.slots ∧ t.cfg = s.cfg ∧ t.pending = [] ∧ t.response = none

/-- Nothing but the slots survives a step: the host inputs are forgotten, the parameters stay, one event is taken, and what
stands on the response and stream ports before a step has no influence on it (10_state.md R10, R11, R17). -/
def Obligations.NothingElseSurvives : Prop :=
  (∀ s t : State, step s = .next t →
    t.cfg = s.cfg ∧ t.pending = s.pending.tail ∧ t.streamIn = [] ∧ t.streamAccept = 0) ∧
  ∀ s s' : State, s'.cfg = s.cfg → s'.slots = s.slots → s'.pending = s.pending → step s' = step s

/-! ### Invariants and rules for the whole machine -/

/-- 10_state.md R13: at the end of every step `CURSOR ≤ BIT_COUNT ≤ 8 × CAP_BYTES` for every slot, and an invalid slot has
both registers 0. -/
def Obligations.StepKeepsRegisterInvariants : Prop :=
  ∀ s t : State, s.inBounds → step s = .next t → t.inBounds

/-- Every step keeps good states: besides 10_state.md R13, every store keeps its one canonical form and lists no index at
or above `CAP_BYTES` (10_state.md R19). -/
def Obligations.StepKeepsGoodStates : Prop := ∀ s t : State, s.wf → step s = .next t → t.wf

/-- From a good state every step ends in a next state: the block never stops (60_exceptions.md R178;
70_reset_and_hazards.md R210: `step` is a total function). -/
def Obligations.StepNeverStops : Prop := ∀ s : State, s.wf → Safe (step s)

/-- 30_encoding.md R55: every command gets exactly one response; its result words are 0 unless it is `OK` or `SHORT`; with
`SHORT` they are the requested and the smaller actual count; only `FLUSH` emits bytes. -/
def Obligations.OneResponse : Prop :=
  ∀ (s : State) (p : Packet) (input : HostInput) (rest : List Event), s.wf → s.pending = .command p input :: rest →
    ∃ t r, step s = .next t ∧ t.response = some r ∧ t.pending = rest ∧
      (r.st = .ok ↔ r.st.code = 0x00) ∧
      (r.st ≠ .ok → r.st ≠ .short → r.r0 = 0 ∧ r.r1 = 0) ∧
      (r.st = .short → r.r1.toNat < r.r0.toNat ∧
        ((∃ b n, decode p = .ok (.refill b n) ∧ r.r0 = n ∧ r.r1.toNat = input.bytes.length) ∨
          ∃ b sl, decode p = .ok (.flush b) ∧ s.Holds b sl ∧ r.r0.toNat = sl.cursor.toNat / 8 ∧
            r.r1.toNat = input.accept)) ∧
      (r.out ≠ [] → ∃ b, decode p = .ok (.flush b))

/-- 60_exceptions.md R177: a command that ends with any status other than `OK` and `SHORT` changes no register and no byte
of any slot. -/
def Obligations.ErrorsChangeNothing : Prop :=
  ∀ (s t : State) (p : Packet) (input : HostInput) (rest : List Event) (r : Response),
    s.pending = .command p input :: rest → step s = .next t → t.response = some r → r.st ≠ .ok → r.st ≠ .short →
      t.slots = s.slots ∧ t.cfg = s.cfg ∧ t.pending = rest ∧ r = ⟨r.st, 0, 0, []⟩

/-- Each command ends only with the statuses whose row names it, a packet that is no command with 0x61 or 0x62, and
`RSTATE` is never produced (60_exceptions.md R170, R175). -/
def Obligations.StatusesByCommand : Prop :=
  ∀ (s t : State) (p : Packet) (r : Response), runPacket p s = .next t → t.response = some r →
    (∀ i, decode p = .ok i → r.st ∈ statusesOf (opcodeOf i)) ∧
      (∀ e, decode p = .error e → r.st = .illegalEncoding ∨ r.st = .illegalPacket) ∧ r.st ≠ .rstate

/-- The codes of the statuses, and the classes of 60_exceptions.md R170 in the high nibble; different statuses have
different codes. -/
def Obligations.StatusCodes : Prop :=
  [Status.ok, .absentBuffer, .widthRange, .stopBit, .granularity, .skipBelowStart, .valueDomain, .slotInUse,
      .partialTail, .capacity, .alloc, .short, .rstate, .illegalEncoding, .illegalPacket].map Status.code =
    [0x00, 0x11, 0x12, 0x13, 0x14, 0x15, 0x16, 0x17, 0x18, 0x20, 0x30, 0x40, 0x50, 0x61, 0x62] ∧
  (∀ st : Status, st.statusClass.toNat = st.code.toNat / 16) ∧
  ∀ st st' : Status, st.code = st'.code → st = st'

/-- The frame of every command: no slot but the one its `BUF` names changes, and neither do the parameters, the number of
slots and what the host has still to present (10_state.md R12: "No command reads or writes two slots"). -/
def Obligations.OtherSlotsUntouched : Prop :=
  ∀ (i : Instr) (s t : State) (n : Nat), exec i s = .next t → (∀ b, slotOf i = some b → b.toNat ≠ n) →
    t.slots[n]? = s.slots[n]? ∧ t.slots.length = s.slots.length ∧ t.cfg = s.cfg ∧ t.pending = s.pending

/-- A command's response and its effect on its slot depend on no other slot: two states that agree on the parameters, the
host inputs and that slot cannot be told apart by it (10_state.md R12). -/
def Obligations.CommandUsesOwnSlotOnly : Prop :=
  ∀ (i : Instr) (s t s' : State), s.cfg = t.cfg → s.slots.length = t.slots.length → s.streamIn = t.streamIn →
    s.streamAccept = t.streamAccept → (∀ b, slotOf i = some b → s.slot? b = t.slot? b) → exec i s = .next s' →
      ∃ t', exec i t = .next t' ∧ s'.response = t'.response ∧ ∀ b, slotOf i = some b → s'.slot? b = t'.slot? b

/-- Which commands may change each register and the bytes of a slot (10_state.md R12, R19; 20_memory.md R35: no read has a
side effect on the store). -/
def Obligations.WhoWritesWhat : Prop :=
  ∀ (i : Instr) (s t : State) (b : SlotNo) (x y : Slot), exec i s = .next t → s.slot? b = some x → t.slot? b = some y →
    (x.valid ≠ y.valid → opcodeOf i = .create ∧ y.valid = true ∨ opcodeOf i = .destroy ∧ y.valid = false) ∧
    (x.bitCount ≠ y.bitCount →
      opcodeOf i ∈ [.create, .destroy, .write, .wrun, .wreg, .align, .skip, .refill, .flush]) ∧
    (x.cursor ≠ y.cursor →
      opcodeOf i ∈ [.create, .destroy, .align, .skip, .read, .write, .rdun, .wrun, .rdeg, .wreg, .refill, .flush]) ∧
    (x.bytes ≠ y.bytes →
      opcodeOf i ∈ [.create, .destroy, .write, .wrun, .wreg, .align, .skip, .refill, .flush])

/-- Outside `CREATE` and `REFILL` a command raises `BIT_COUNT` only to the exact position it needs, its new cursor
(20_memory.md R36). -/
def Obligations.GrowthIsExact : Prop :=
  ∀ (i : Instr) (s t : State) (b : SlotNo) (x y : Slot), s.wf → exec i s = .next t → s.slot? b = some x →
    t.slot? b = some y → x.bitCount.toNat < y.bitCount.toNat →
      opcodeOf i = .create ∨ opcodeOf i = .refill ∨
        opcodeOf i ∈ [.align, .skip, .write, .wrun, .wreg] ∧ y.bitCount = y.cursor

/-- The bytes at or above `LEN` are unobservable: two good states that differ only in them give equal responses and states
that again differ only in such bytes, whatever the step (10_state.md R20). -/
def Obligations.StaleBytesUnobservable : Prop :=
  ∀ s t s' : State, s.wf → t.wf → s.Same t → step s = .next s' → ∃ t', step t = .next t' ∧ s'.Same t'

/-- 60_exceptions.md R171: a slot number at or above `NBUF` and a slot that holds no buffer make every command that has a
`BUF` field answer `ABSENT_BUFFER` before any other check, but for `CREATE`, which does so for the slot number only. -/
def Obligations.AbsentBuffer : Prop :=
  ∀ (i : Instr) (s : State) (b : SlotNo), slotOf i = some b →
    ((∀ cap, i ≠ .create b cap) → s.Absent b → Raises i s .absentBuffer) ∧
      (s.cfg.nbuf ≤ b.toNat → Raises i s .absentBuffer)

/-! ### Bit Buffer commands (40_buffer.md) -/

/-- 40_buffer.md R70. Nothing is said of the bytes at and above index `cap`, which may take any value
(93_implementation_defined.md U5); what the model does with them is in StaleBytesStay. -/
def Obligations.Create : Prop :=
  ∀ (b : SlotNo) (cap : Word) (s : State), s.wf →
    opcodeByte (.create b cap) = 0x01 ∧
    (s.cfg.nbuf ≤ b.toNat → Raises (.create b cap) s .absentBuffer) ∧
    (∀ sl, s.Holds b sl → Raises (.create b cap) s .slotInUse) ∧
    ∀ sl, s.Vacant b sl →
      (s.cfg.capBytes < cap.toNat → Raises (.create b cap) s .alloc) ∧
      (cap.toNat ≤ s.cfg.capBytes →
        ∃ m, Becomes (.create b cap) s b ⟨true, BitVec.ofNat 64 (8 * cap.toNat), 0, m⟩ ⟨.ok, 0, 0, []⟩ ∧
          ∀ i, i < cap.toNat → m.read i = 0x00)

/-- 40_buffer.md R71. Nothing is said of the bytes, which become unspecified. -/
def Obligations.Destroy : Prop :=
  ∀ (b : SlotNo) (s : State),
    opcodeByte (.destroy b) = 0x02 ∧
    (s.Absent b → Raises (.destroy b) s .absentBuffer) ∧
    ∀ sl, s.Holds b sl → ∃ m, Becomes (.destroy b) s b ⟨false, 0, 0, m⟩ ⟨.ok, 0, 0, []⟩

/-- 40_buffer.md R72, R73. -/
def Obligations.Accessors : Prop :=
  ∀ (b : SlotNo) (s : State),
    opcodeByte (.bitlen b) = 0x03 ∧ opcodeByte (.pos b) = 0x04 ∧
    (s.Absent b → Raises (.bitlen b) s .absentBuffer ∧ Raises (.pos b) s .absentBuffer) ∧
    ∀ sl, s.Holds b sl → Answers (.bitlen b) s sl.bitCount ∧ Answers (.pos b) s sl.cursor

/-- 40_buffer.md R74. -/
def Obligations.Isalign : Prop :=
  ∀ (b : SlotNo) (g : Word) (s : State),
    opcodeByte (.isalign b g) = 0x05 ∧
    (s.Absent b → Raises (.isalign b g) s .absentBuffer) ∧
    ∀ sl, s.Holds b sl →
      (¬ PowerOfTwo g → Raises (.isalign b g) s .granularity) ∧
      (PowerOfTwo g → 8 * g.toNat ∣ sl.cursor.toNat → Answers (.isalign b g) s 1) ∧
      (PowerOfTwo g → ¬ 8 * g.toNat ∣ sl.cursor.toNat → Answers (.isalign b g) s 0)

/-- 40_buffer.md R75. The target `t` is the least multiple of `8g` that is not below the cursor. -/
def Obligations.Align : Prop :=
  ∀ (b : SlotNo) (g : Word) (s : State), s.wf →
    opcodeByte (.align b g) = 0x06 ∧
    (s.Absent b → Raises (.align b g) s .absentBuffer) ∧
    ∀ sl, s.Holds b sl →
      (¬ PowerOfTwo g → Raises (.align b g) s .granularity) ∧
      (PowerOfTwo g → ∃ t, 8 * g.toNat ∣ t ∧ sl.cursor.toNat ≤ t ∧
        (∀ u, 8 * g.toNat ∣ u → sl.cursor.toNat ≤ u → t ≤ u) ∧
        (8 * s.cfg.capBytes < t → Raises (.align b g) s .alloc) ∧
        (t ≤ 8 * s.cfg.capBytes →
          ∃ m, Becomes (.align b g) s b
              ⟨true, BitVec.ofNat 64 (max sl.bitCount.toNat t), BitVec.ofNat 64 t, m⟩ ⟨.ok, 0, 0, []⟩ ∧
            ∀ i, m.read i = sl.grownByte t i))

/-- 40_buffer.md R76. The target is `CURSOR + signed(delta)`, an unbounded integer. -/
def Obligations.Skip : Prop :=
  ∀ (b : SlotNo) (delta : Word) (s : State), s.wf →
    opcodeByte (.skip b delta) = 0x07 ∧
    (s.Absent b → Raises (.skip b delta) s .absentBuffer) ∧
    ∀ sl, s.Holds b sl →
      ((sl.cursor.toNat : ℤ) + delta.toInt < 0 → Raises (.skip b delta) s .skipBelowStart) ∧
      ∀ t : ℕ, (t : ℤ) = sl.cursor.toNat + delta.toInt →
        (8 * s.cfg.capBytes < t → Raises (.skip b delta) s .alloc) ∧
        (t ≤ 8 * s.cfg.capBytes →
          ∃ m, Becomes (.skip b delta) s b
              ⟨true, BitVec.ofNat 64 (max sl.bitCount.toNat t), BitVec.ofNat 64 t, m⟩ ⟨.ok, 0, 0, []⟩ ∧
            ∀ i, m.read i = sl.grownByte t i)

/-! ### Bit Codec commands (41_bitcodec.md) -/

/-- 41_bitcodec.md R94: the value is given bit by bit, by the closed form of R92. -/
def Obligations.Peek : Prop :=
  ∀ (b : SlotNo) (pp : Policy) (w : WidthField) (s : State), s.wf →
    opcodeByte (.peek b pp w) = 0x10 ∧
    (s.Absent b → Raises (.peek b pp w) s .absentBuffer) ∧
    ∀ sl, s.Holds b sl →
      (w.toNat < 1 ∨ 64 < w.toNat → Raises (.peek b pp w) s .widthRange) ∧
      (1 ≤ w.toNat → w.toNat ≤ 64 →
        (sl.bitCount.toNat - sl.cursor.toNat < w.toNat → Raises (.peek b pp w) s .capacity) ∧
        (w.toNat ≤ sl.bitCount.toNat - sl.cursor.toNat →
          ∃ v : Word, Answers (.peek b pp w) s v ∧ v.toNat < 2 ^ w.toNat ∧
            ∀ k, k < w.toNat → v.getLsbD (fieldBit sl.cursor.toNat w.toNat k pp) =
              sl.bytes.bit pp.bio (sl.cursor.toNat + k)))

/-- 41_bitcodec.md R95: as `PEEK`, and the cursor advances by the width. -/
def Obligations.Read : Prop :=
  ∀ (b : SlotNo) (pp : Policy) (w : WidthField) (s : State), s.wf →
    opcodeByte (.read b pp w) = 0x11 ∧
    (s.Absent b → Raises (.read b pp w) s .absentBuffer) ∧
    ∀ sl, s.Holds b sl →
      (w.toNat < 1 ∨ 64 < w.toNat → Raises (.read b pp w) s .widthRange) ∧
      (1 ≤ w.toNat → w.toNat ≤ 64 →
        (sl.bitCount.toNat - sl.cursor.toNat < w.toNat → Raises (.read b pp w) s .capacity) ∧
        (w.toNat ≤ sl.bitCount.toNat - sl.cursor.toNat →
          ∃ v : Word, Becomes (.read b pp w) s b
              { sl with cursor := BitVec.ofNat 64 (sl.cursor.toNat + w.toNat) } ⟨.ok, v, 0, []⟩ ∧
            v.toNat < 2 ^ w.toNat ∧
            ∀ k, k < w.toNat → v.getLsbD (fieldBit sl.cursor.toNat w.toNat k pp) =
              sl.bytes.bit pp.bio (sl.cursor.toNat + k)))

/-- 41_bitcodec.md R96: every bit of the store after the write is given, the field's by the closed form of R92 and every
other as growth leaves it (20_memory.md R36). -/
def Obligations.Write : Prop :=
  ∀ (b : SlotNo) (pp : Policy) (w : WidthField) (value : Word) (s : State), s.wf →
    opcodeByte (.write b pp w value) = 0x12 ∧
    (s.Absent b → Raises (.write b pp w value) s .absentBuffer) ∧
    ∀ sl, s.Holds b sl →
      (w.toNat < 1 ∨ 64 < w.toNat → Raises (.write b pp w value) s .widthRange) ∧
      (1 ≤ w.toNat → w.toNat ≤ 64 →
        (8 * s.cfg.capBytes < sl.cursor.toNat + w.toNat → Raises (.write b pp w value) s .alloc) ∧
        (sl.cursor.toNat + w.toNat ≤ 8 * s.cfg.capBytes →
          ∃ m, Becomes (.write b pp w value) s b
              ⟨true, BitVec.ofNat 64 (max sl.bitCount.toNat (sl.cursor.toNat + w.toNat)),
                BitVec.ofNat 64 (sl.cursor.toNat + w.toNat), m⟩ ⟨.ok, 0, 0, []⟩ ∧
            (∀ k, k < w.toNat → m.bit pp.bio (sl.cursor.toNat + k) =
              value.getLsbD (fieldBit sl.cursor.toNat w.toNat k pp)) ∧
            ∀ p, p < sl.cursor.toNat ∨ sl.cursor.toNat + w.toNat ≤ p →
              m.bit pp.bio p = sl.grownBit (sl.cursor.toNat + w.toNat) pp.bio p))

/-! ### Variable-length codes (42_varlen.md) -/

/-- 42_varlen.md R112: `k` is the number of bits before the first stop bit. -/
def Obligations.Rdun : Prop :=
  ∀ (b : SlotNo) (pp : Policy) (flavor : Flavor) (stop : StopField) (s : State), s.wf →
    opcodeByte (.rdun b pp flavor stop) = 0x20 ∧
    (s.Absent b → Raises (.rdun b pp flavor stop) s .absentBuffer) ∧
    ∀ sl, s.Holds b sl →
      (1 < stop.toNat → Raises (.rdun b pp flavor stop) s .stopBit) ∧
      (stop.toNat ≤ 1 →
        ((∀ p, sl.cursor.toNat ≤ p → p < sl.bitCount.toNat → sl.bytes.bit pp.bio p ≠ stopValue stop) →
          Raises (.rdun b pp flavor stop) s .capacity) ∧
        ∀ k, sl.cursor.toNat + k < sl.bitCount.toNat → sl.bytes.bit pp.bio (sl.cursor.toNat + k) = stopValue stop →
          (∀ j, j < k → sl.bytes.bit pp.bio (sl.cursor.toNat + j) ≠ stopValue stop) →
            Becomes (.rdun b pp flavor stop) s b { sl with cursor := BitVec.ofNat 64 (sl.cursor.toNat + k + 1) }
              ⟨.ok, BitVec.ofNat 64 (if flavor = .count then k + 1 else k), 0, []⟩)

/-- 42_varlen.md R113: `k` non-stop bits and one stop bit at the cursor, every other bit as growth leaves it. -/
def Obligations.Wrun : Prop :=
  ∀ (b : SlotNo) (pp : Policy) (flavor : Flavor) (stop : StopField) (value : Word) (s : State), s.wf →
    opcodeByte (.wrun b pp flavor stop value) = 0x21 ∧
    (s.Absent b → Raises (.wrun b pp flavor stop value) s .absentBuffer) ∧
    ∀ sl, s.Holds b sl →
      (1 < stop.toNat → Raises (.wrun b pp flavor stop value) s .stopBit) ∧
      (stop.toNat ≤ 1 → flavor = .count → value = 0 → Raises (.wrun b pp flavor stop value) s .valueDomain) ∧
      ∀ k, stop.toNat ≤ 1 → value.toNat = (if flavor = .count then k + 1 else k) →
        (8 * s.cfg.capBytes < sl.cursor.toNat + k + 1 → Raises (.wrun b pp flavor stop value) s .alloc) ∧
        (sl.cursor.toNat + k + 1 ≤ 8 * s.cfg.capBytes →
          ∃ m, Becomes (.wrun b pp flavor stop value) s b
              ⟨true, BitVec.ofNat 64 (max sl.bitCount.toNat (sl.cursor.toNat + k + 1)),
                BitVec.ofNat 64 (sl.cursor.toNat + k + 1), m⟩ ⟨.ok, 0, 0, []⟩ ∧
            (∀ j, j < k → m.bit pp.bio (sl.cursor.toNat + j) = !stopValue stop) ∧
            m.bit pp.bio (sl.cursor.toNat + k) = stopValue stop ∧
            ∀ p, p < sl.cursor.toNat ∨ sl.cursor.toNat + k + 1 ≤ p →
              m.bit pp.bio p = sl.grownBit (sl.cursor.toNat + k + 1) pp.bio p)

/-- 42_varlen.md R117: `k` is the number of bits before the first stop bit, `u = 2^k + payload − 1`, and the signed result
undoes the zigzag map. -/
def Obligations.Rdeg : Prop :=
  ∀ (b : SlotNo) (pp : Policy) (sgn : Signedness) (stop : StopField) (s : State), s.wf →
    opcodeByte (.rdeg b pp sgn stop) = 0x22 ∧
    (s.Absent b → Raises (.rdeg b pp sgn stop) s .absentBuffer) ∧
    ∀ sl, s.Holds b sl →
      (1 < stop.toNat → Raises (.rdeg b pp sgn stop) s .stopBit) ∧
      (stop.toNat ≤ 1 →
        ((∀ p, sl.cursor.toNat ≤ p → p < sl.bitCount.toNat → sl.bytes.bit pp.bio p ≠ stopValue stop) →
          Raises (.rdeg b pp sgn stop) s .capacity) ∧
        ∀ k, sl.cursor.toNat + k < sl.bitCount.toNat → sl.bytes.bit pp.bio (sl.cursor.toNat + k) = stopValue stop →
          (∀ j, j < k → sl.bytes.bit pp.bio (sl.cursor.toNat + j) ≠ stopValue stop) →
          (63 < k → Raises (.rdeg b pp sgn stop) s .valueDomain) ∧
          (k ≤ 63 → sl.bitCount.toNat < sl.cursor.toNat + 2 * k + 1 → Raises (.rdeg b pp sgn stop) s .capacity) ∧
          (k ≤ 63 → sl.cursor.toNat + 2 * k + 1 ≤ sl.bitCount.toNat →
            ∃ (payload u : ℕ) (r0 : Word),
              Becomes (.rdeg b pp sgn stop) s b
                { sl with cursor := BitVec.ofNat 64 (sl.cursor.toNat + 2 * k + 1) } ⟨.ok, r0, 0, []⟩ ∧
              payload < 2 ^ k ∧ u + 1 = 2 ^ k + payload ∧
              (∀ j, j < k → payload.testBit (fieldBit (sl.cursor.toNat + k + 1) k j pp) =
                sl.bytes.bit pp.bio (sl.cursor.toNat + k + 1 + j)) ∧
              (sgn = .unsigned → r0.toNat = u) ∧
              (sgn = .signed → u % 2 = 0 → r0.toInt = u / 2) ∧
              (sgn = .signed → u % 2 = 1 → r0.toInt = -((u + 1) / 2))))

/-- 42_varlen.md R118: `u` is the value or its zigzag image, `u + 1 = 2^k + payload` with `payload < 2^k`; the unary code of
`k` and then the payload field stand at the cursor, every other bit is as growth leaves it. -/
def Obligations.Wreg : Prop :=
  ∀ (b : SlotNo) (pp : Policy) (sgn : Signedness) (stop : StopField) (value : Word) (s : State), s.wf →
    opcodeByte (.wreg b pp sgn stop value) = 0x23 ∧
    (s.Absent b → Raises (.wreg b pp sgn stop value) s .absentBuffer) ∧
    ∀ sl, s.Holds b sl →
      (1 < stop.toNat → Raises (.wreg b pp sgn stop value) s .stopBit) ∧
      (stop.toNat ≤ 1 → sgn = .unsigned ∧ value.toNat = 2 ^ 64 - 1 ∨ sgn = .signed ∧ value.toInt = -2 ^ 63 →
        Raises (.wreg b pp sgn stop value) s .valueDomain) ∧
      (stop.toNat ≤ 1 → ¬ (sgn = .unsigned ∧ value.toNat = 2 ^ 64 - 1 ∨ sgn = .signed ∧ value.toInt = -2 ^ 63) →
        ∃ u k payload : ℕ,
          (sgn = .unsigned → u = value.toNat) ∧
          (sgn = .signed → 0 ≤ value.toInt → (u : ℤ) = 2 * value.toInt) ∧
          (sgn = .signed → value.toInt < 0 → (u : ℤ) = -2 * value.toInt - 1) ∧
          u + 1 = 2 ^ k + payload ∧ payload < 2 ^ k ∧
          (8 * s.cfg.capBytes < sl.cursor.toNat + 2 * k + 1 → Raises (.wreg b pp sgn stop value) s .alloc) ∧
          (sl.cursor.toNat + 2 * k + 1 ≤ 8 * s.cfg.capBytes →
            ∃ m, Becomes (.wreg b pp sgn stop value) s b
                ⟨true, BitVec.ofNat 64 (max sl.bitCount.toNat (sl.cursor.toNat + 2 * k + 1)),
                  BitVec.ofNat 64 (sl.cursor.toNat + 2 * k + 1), m⟩ ⟨.ok, 0, 0, []⟩ ∧
              (∀ j, j < k → m.bit pp.bio (sl.cursor.toNat + j) = !stopValue stop) ∧
              m.bit pp.bio (sl.cursor.toNat + k) = stopValue stop ∧
              (∀ j, j < k → m.bit pp.bio (sl.cursor.toNat + k + 1 + j) =
                payload.testBit (fieldBit (sl.cursor.toNat + k + 1) k j pp)) ∧
              ∀ p, p < sl.cursor.toNat ∨ sl.cursor.toNat + 2 * k + 1 ≤ p →
                m.bit pp.bio p = sl.grownBit (sl.cursor.toNat + 2 * k + 1) pp.bio p))

/-! ### CRC commands (43_crc.md) -/

/-- 43_crc.md R133: in every state of the block, and without a change to any slot. -/
def Obligations.Crcgen : Prop :=
  ∀ (w : WidthField) (be : DataOrder) (poly start : Word) (data : List Byte) (s : State),
    opcodeByte (.crcgen w be poly start data) = 0x30 ∧
    (w.toNat < 1 ∨ 64 < w.toNat → Raises (.crcgen w be poly start data) s .widthRange) ∧
    (1 ≤ w.toNat → w.toNat ≤ 64 →
      Answers (.crcgen w be poly start data) s (crcGen s.cfg data be poly w.toNat start))

/-- 43_crc.md R134: the comparison is of whole 64-bit words, and it answers 1 exactly when `CRCGEN` answers `embedded`. -/
def Obligations.Crcvfy : Prop :=
  ∀ (w : WidthField) (be : DataOrder) (poly start embedded : Word) (data : List Byte) (s : State),
    opcodeByte (.crcvfy w be poly start embedded data) = 0x31 ∧
    (w.toNat < 1 ∨ 64 < w.toNat → Raises (.crcvfy w be poly start embedded data) s .widthRange) ∧
    (1 ≤ w.toNat → w.toNat ≤ 64 →
      (crcGen s.cfg data be poly w.toNat start = embedded →
        Answers (.crcvfy w be poly start embedded data) s 1) ∧
      (crcGen s.cfg data be poly w.toNat start ≠ embedded →
        Answers (.crcvfy w be poly start embedded data) s 0))

/-- 43_crc.md R130, in unbounded integers: the register starts as `init mod 2^w`, and each byte is XORed in and followed by
eight steps; the result is below `2^w`. -/
def Obligations.CrcDivision : Prop :=
  ∀ (cfg : Config) (data : List Byte) (be : DataOrder) (poly start : Word) (w : Nat), 1 ≤ w → w ≤ 64 →
    (crcGen cfg [] be poly w start).toNat = start.toNat % 2 ^ w ∧
    (∀ x : Byte, (crcGen cfg (data ++ [x]) be poly w start).toNat =
      (fun r : ℕ => if r % 2 = 1 then r / 2 ^^^ poly.toNat % 2 ^ w else r / 2)^[8]
        ((crcGen cfg data be poly w start).toNat ^^^
          (if be = .big then cfg.crcBeXform x else x).toNat)) ∧
    (crcGen cfg data be poly w start).toNat < 2 ^ w

/-- 43_crc.md R131, R130: with the reciprocal form of the polynomial (bit `w − 1 − j` is the coefficient of `x^j`, the
coefficient of `x^w` is 1) the CRC is the remainder of a polynomial division over the two-element field: of the message,
its first bit (bit 0 of the first byte) the highest power, times `x^w`, plus the start value times `x` to the number of
message bits. -/
def Obligations.CrcIsPolynomialRemainder : Prop :=
  ∀ (cfg : Config) (data : List Byte) (poly start : Word) (w : Nat), 1 ≤ w → w ≤ 64 →
    let x : Polynomial (ZMod 2) := Polynomial.X
    let value : Word → Polynomial (ZMod 2) := fun r =>
      ∑ j ∈ Finset.range w, if r.getLsbD (w - 1 - j) = true then x ^ j else 0
    let message : Polynomial (ZMod 2) :=
      ∑ t ∈ Finset.range (8 * data.length),
        if (data.getD (t / 8) 0).getLsbD (t % 8) = true then x ^ (8 * data.length - 1 - t) else 0
    value (crcGen cfg data .little poly w start) =
      Polynomial.modByMonic (value start * x ^ (8 * data.length) + message * x ^ w) (x ^ w + value poly)

/-- 43_crc.md R135 item 2: a checksum can be continued by passing the previous result as `init`. -/
def Obligations.CrcChaining : Prop :=
  ∀ (cfg : Config) (d1 d2 : List Byte) (be : DataOrder) (poly start : Word) (w : Nat), 1 ≤ w → w ≤ 64 →
    crcGen cfg (d1 ++ d2) be poly w start = crcGen cfg d2 be poly w (crcGen cfg d1 be poly w start)

/-- 43_crc.md R135 item 4: with `init` 0 the CRC is linear over XOR, if the data transform is. -/
def Obligations.CrcLinearity : Prop :=
  ∀ (cfg : Config) (d e : List Byte) (be : DataOrder) (poly : Word) (w : Nat), 1 ≤ w → w ≤ 64 →
    d.length = e.length →
    (be = .big → ∀ x y : Byte, cfg.crcBeXform (x ^^^ y) = cfg.crcBeXform x ^^^ cfg.crcBeXform y) →
      crcGen cfg (List.zipWith (fun x y => x ^^^ y) d e) be poly w 0 =
        crcGen cfg d be poly w 0 ^^^ crcGen cfg e be poly w 0

/-- 43_crc.md R135 item 3, for a change of any one byte (so of any one bit): the result changes. -/
def Obligations.CrcSensitivity : Prop :=
  ∀ (cfg : Config) (d1 d2 : List Byte) (x y : Byte) (be : DataOrder) (poly start : Word) (w : Nat),
    8 ≤ w → w ≤ 64 → poly.getLsbD (w - 1) = true → (be = .big → Function.Injective cfg.crcBeXform) → x ≠ y →
      crcGen cfg (d1 ++ x :: d2) be poly w start ≠ crcGen cfg (d1 ++ y :: d2) be poly w start

/-! ### Stream commands (44_stream.md) -/

/-- 44_stream.md R151. With `q`, `T` and `k` as there; nothing is said of the bytes at and above `T + k`, which are
unspecified. -/
def Obligations.Refill : Prop :=
  ∀ (b : SlotNo) (n : Word) (s : State), s.wf →
    opcodeByte (.refill b n) = 0x40 ∧
    (s.Absent b → Raises (.refill b n) s .absentBuffer) ∧
    ∀ sl, s.Holds b sl →
      (sl.bitCount.toNat % 8 ≠ 0 → Raises (.refill b n) s .partialTail) ∧
      ∀ q T k, q = sl.cursor.toNat / 8 → T = sl.bitCount.toNat / 8 - q → k = min s.streamIn.length n.toNat →
        sl.bitCount.toNat % 8 = 0 →
        (s.cfg.capBytes < T + n.toNat → Raises (.refill b n) s .alloc) ∧
        (T + n.toNat ≤ s.cfg.capBytes →
          ∃ m, Becomes (.refill b n) s b
              ⟨true, BitVec.ofNat 64 (8 * (T + k)), BitVec.ofNat 64 (sl.cursor.toNat % 8), m⟩
              ⟨if k = n.toNat then .ok else .short, n, BitVec.ofNat 64 k, []⟩ ∧
            (∀ i, i < T → m.read i = sl.bytes.read (q + i)) ∧
            ∀ i, i < k → s.streamIn[i]? = some (m.read (T + i)))

/-- 44_stream.md R152. With `F`, `k` and `L` as there; nothing is said of the bytes at and above `L − k`, which are
unspecified. -/
def Obligations.Flush : Prop :=
  ∀ (b : SlotNo) (s : State), s.wf →
    opcodeByte (.flush b) = 0x41 ∧
    (s.Absent b → Raises (.flush b) s .absentBuffer) ∧
    ∀ sl, s.Holds b sl →
      ∀ F k, F = sl.cursor.toNat / 8 → k = min s.streamAccept F →
        ∃ m, Becomes (.flush b) s b
            ⟨true, BitVec.ofNat 64 (sl.bitCount.toNat - 8 * k), BitVec.ofNat 64 (sl.cursor.toNat - 8 * k), m⟩
            ⟨if k = F then .ok else .short, BitVec.ofNat 64 F, BitVec.ofNat 64 k,
              (List.range k).map fun i => sl.bytes.read i⟩ ∧
          ∀ i, i < (sl.bitCount.toNat + 7) / 8 - k → m.read i = sl.bytes.read (i + k)

/-- What `CREATE`, `DESTROY`, `REFILL` and `FLUSH` leave in the bytes that may take any value (93_implementation_defined.md
U5): they stay as they stood. This is the model's choice (log entry 4), not a rule of the spec. -/
def Obligations.StaleBytesStay : Prop :=
  ∀ (b : SlotNo) (n : Word) (s t : State) (x y : Slot), s.wf → t.slot? b = some y →
    (s.Vacant b x → exec (.create b n) s = .next t → ∀ i, y.len ≤ i → y.bytes.read i = x.bytes.read i) ∧
    (s.Holds b x → exec (.destroy b) s = .next t → y.bytes = x.bytes) ∧
    (s.Holds b x → exec (.refill b n) s = .next t ∨ exec (.flush b) s = .next t →
      ∀ i, y.len ≤ i → y.bytes.read i = x.bytes.read i)

/-- What is unread stays readable across `REFILL` and `FLUSH`: a `PEEK` answers after them what it answered before, whatever
the stream ports did (44_stream.md R151, R152: the unread bits are preserved whole). -/
def Obligations.PeekAcrossTransfer : Prop :=
  ∀ (b : SlotNo) (pp : Policy) (w : WidthField) (v n : Word) (s t : State), s.wf → Answers (.peek b pp w) s v →
    exec (.refill b n) s = .next t ∨ exec (.flush b) s = .next t → Answers (.peek b pp w) t v

/-- `FLUSH` loses and repeats no byte: what it emits, followed by the bytes in use after it, are the bytes in use before it
(44_stream.md R152). -/
def Obligations.FlushKeepsEveryByte : Prop :=
  ∀ (b : SlotNo) (s t : State) (x : Slot), s.wf → s.Holds b x → exec (.flush b) s = .next t →
    ∃ r y, t.response = some r ∧ t.Holds b y ∧
      r.out ++ y.bytes.firstBytes y.len = x.bytes.firstBytes x.len

/-! ### Laws of the codec and of the codes -/

/-- 41_bitcodec.md R92: stream bit `k` of a field is carried by value bit `fieldBit`, a one-to-one map of the field's bits,
which is `w − 1 − k` under `.BM` and `k` under `.LL`. -/
def Obligations.ExtractClosedForm : Prop :=
  ∀ (m : Memory) (c w : Nat) (pp : Policy),
    (∀ k, k < w → fieldBit c w k pp < w ∧
      (m.extract c w pp).testBit (fieldBit c w k pp) = m.bit pp.bio (c + k) ∧
      (pp = ⟨.msbyte, .msbit⟩ → fieldBit c w k pp = w - 1 - k) ∧ (pp = ⟨.lsbyte, .lsbit⟩ → fieldBit c w k pp = k)) ∧
    (∀ k k', k < w → k' < w → fieldBit c w k pp = fieldBit c w k' pp → k = k') ∧
    m.extract c w pp < 2 ^ w

/-- 41_bitcodec.md R91: an insertion sets the field's bits to the value's, by the closed form of R92, and every physical
bit that does not belong to the field keeps its value; so an extraction of the same field gives `val mod 2^w`. -/
def Obligations.InsertClosedForm : Prop :=
  ∀ (m : Memory) (c w val : Nat) (pp : Policy), m.wf →
    (∀ k, k < w → (m.insert c w val pp).bit pp.bio (c + k) = val.testBit (fieldBit c w k pp)) ∧
    (∀ p, p < c ∨ c + w ≤ p → (m.insert c w val pp).bit pp.bio p = m.bit pp.bio p) ∧
    (m.insert c w val pp).extract c w pp = val % 2 ^ w

/-- 42_varlen.md R110: a 1-bit field is the physical bit its position names, and the byte order has no effect on it, so none
on `RDUN` and `WRUN`. -/
def Obligations.OneBit : Prop :=
  (∀ (m : Memory) (p : Nat) (byo : ByteOrder) (bio : BitOrder),
    m.bitAt p bio = m.extract p 1 ⟨byo, bio⟩ ∧
      m.bitAt p bio = ((m.read (p / 8)).getLsbD (if bio = .msbit then 7 - p % 8 else p % 8)).toNat) ∧
  (∀ (m : Memory) (p x : Nat) (byo : ByteOrder) (bio : BitOrder), m.wf →
    m.putBit p x bio = m.insert p 1 x ⟨byo, bio⟩ ∧
      ∀ p', (m.putBit p x bio).bitAt p' bio = if p' = p then x % 2 else m.bitAt p' bio) ∧
  ∀ (b : SlotNo) (pp pp' : Policy) (flavor : Flavor) (stop : StopField) (value : Word) (s : State), pp.bio = pp'.bio →
    exec (.rdun b pp flavor stop) s = exec (.rdun b pp' flavor stop) s ∧
      exec (.wrun b pp flavor stop value) s = exec (.wrun b pp' flavor stop value) s

/-- 41_bitcodec.md R98 item 1: `WRITE`, `SEEK` back by the width, `READ` gives the value back, and the cursor ends where the
`WRITE` left it. -/
def Obligations.FieldRoundTrip : Prop :=
  ∀ (b : SlotNo) (pp : Policy) (w : WidthField) (v : Word) (s : State) (sl : Slot), s.wf → s.Holds b sl →
    1 ≤ w.toNat → w.toNat ≤ 64 → v.toNat < 2 ^ w.toNat → sl.cursor.toNat + w.toNat ≤ 8 * s.cfg.capBytes →
      ∃ s1 s2 s3 sl1 sl3, exec (.write b pp w v) s = .next s1 ∧
        exec (.skip b (BitVec.ofInt 64 (-(w.toNat : ℤ)))) s1 = .next s2 ∧ exec (.read b pp w) s2 = .next s3 ∧
        s3.response = some ⟨.ok, v, 0, []⟩ ∧ s1.Holds b sl1 ∧ s3.Holds b sl3 ∧
        sl3.cursor.toNat = sl.cursor.toNat + w.toNat ∧ sl3.cursor = sl1.cursor

/-- 41_bitcodec.md R98 items 2 and 3: `PEEK` twice answers the same, and `READ` answers what `PEEK` answers and then does
what `SKIP` by the width does. -/
def Obligations.ReadIsPeekThenSkip : Prop :=
  ∀ (b : SlotNo) (pp : Policy) (w : WidthField) (v : Word) (s s1 : State), s.wf →
    exec (.peek b pp w) s = .next s1 → s1.response = some ⟨.ok, v, 0, []⟩ →
      Answers (.peek b pp w) s1 v ∧ s1.slots = s.slots ∧
      ∃ s2 s3, exec (.skip b (BitVec.ofNat 64 w.toNat)) s1 = .next s2 ∧ exec (.read b pp w) s = .next s3 ∧
        s3.slots = s2.slots ∧ s3.response = some ⟨.ok, v, 0, []⟩

/-- 41_bitcodec.md R98 item 5: for the two pure policy pairs, reading `w1 + w2` bits equals reading `w1` bits and then `w2`
bits and joining the values. -/
def Obligations.SplitReads : Prop :=
  ∀ (b : SlotNo) (pp : Policy) (w w1 w2 : WidthField) (s : State) (sl : Slot), s.wf → s.Holds b sl →
    1 ≤ w1.toNat → 1 ≤ w2.toNat → w.toNat = w1.toNat + w2.toNat → w.toNat ≤ 64 →
    sl.cursor.toNat + w.toNat ≤ sl.bitCount.toNat →
      ∃ (s1 s2 : State) (v v1 v2 : Word), Answers (.peek b pp w) s v ∧
        exec (.read b pp w1) s = .next s1 ∧ s1.response = some ⟨.ok, v1, 0, []⟩ ∧
        exec (.read b pp w2) s1 = .next s2 ∧ s2.response = some ⟨.ok, v2, 0, []⟩ ∧
        (pp = ⟨.msbyte, .msbit⟩ → v.toNat = v1.toNat * 2 ^ w2.toNat + v2.toNat) ∧
        (pp = ⟨.lsbyte, .lsbit⟩ → v.toNat = v1.toNat + v2.toNat * 2 ^ w1.toNat)

/-- A `WRITE` that ends at or beyond `BIT_COUNT` leaves the cursor at `BIT_COUNT`, so a `READ` of any legal width directly
after it answers `CAPACITY` (70_reset_and_hazards.md R207). -/
def Obligations.ReadAfterWriteAtEnd : Prop :=
  ∀ (b : SlotNo) (pp pp' : Policy) (w w' : WidthField) (v : Word) (s : State) (sl : Slot), s.wf → s.Holds b sl →
    1 ≤ w.toNat → w.toNat ≤ 64 → 1 ≤ w'.toNat → w'.toNat ≤ 64 →
    sl.bitCount.toNat ≤ sl.cursor.toNat + w.toNat → sl.cursor.toNat + w.toNat ≤ 8 * s.cfg.capBytes →
      ∃ s1 sl1, exec (.write b pp w v) s = .next s1 ∧ s1.Holds b sl1 ∧ sl1.cursor = sl1.bitCount ∧
        Raises (.read b pp' w') s1 .capacity

/-- 42_varlen.md R119 item 1: `WRUN`, `SEEK` back by the code's length, `RDUN` gives the value back. The length must be one
that a signed operand word can hold the negative of. -/
def Obligations.UnaryRoundTrip : Prop :=
  ∀ (b : SlotNo) (pp : Policy) (flavor : Flavor) (stop : StopField) (value : Word) (k : Nat) (s : State) (sl : Slot),
    s.wf → s.Holds b sl → stop.toNat ≤ 1 → value.toNat = (if flavor = .count then k + 1 else k) → k + 1 ≤ 2 ^ 63 →
    sl.cursor.toNat + k + 1 ≤ 8 * s.cfg.capBytes →
      ∃ s1 s2 s3, exec (.wrun b pp flavor stop value) s = .next s1 ∧
        exec (.skip b (BitVec.ofInt 64 (-(k + 1 : ℤ)))) s1 = .next s2 ∧
        exec (.rdun b pp flavor stop) s2 = .next s3 ∧ s3.response = some ⟨.ok, value, 0, []⟩

/-- 42_varlen.md R119 item 2: `WREG`, `SEEK` back by the code's `2k + 1` bits, `RDEG` gives the value back, for every value
that has a code. -/
def Obligations.GolombRoundTrip : Prop :=
  ∀ (b : SlotNo) (pp : Policy) (sgn : Signedness) (stop : StopField) (value : Word) (u : Nat) (s : State) (sl : Slot),
    s.wf → s.Holds b sl → stop.toNat ≤ 1 → golombNumber sgn value = some u →
    sl.cursor.toNat + golombLength u ≤ 8 * s.cfg.capBytes →
      ∃ s1 s2 s3, exec (.wreg b pp sgn stop value) s = .next s1 ∧
        exec (.skip b (BitVec.ofInt 64 (-(golombLength u : ℤ)))) s1 = .next s2 ∧
        exec (.rdeg b pp sgn stop) s2 = .next s3 ∧ s3.response = some ⟨.ok, value, 0, []⟩

/-- 42_varlen.md R115, R119 item 3: the zigzag map and its inverse, a bijection between −2^63 < v < 2^63 and
0 ≤ u ≤ 2^64 − 2; the value −2^63 would map to 2^64 − 1 and has no code. -/
def Obligations.Zigzag : Prop :=
  (∀ v : ℤ, -2 ^ 63 < v → v < 2 ^ 63 →
    (0 ≤ v → (zigzag v : ℤ) = 2 * v) ∧ (v < 0 → (zigzag v : ℤ) = -2 * v - 1) ∧ zigzag v ≤ 2 ^ 64 - 2 ∧
      unzigzag (zigzag v) = v) ∧
  (∀ u : ℕ, u ≤ 2 ^ 64 - 2 →
    (u % 2 = 0 → unzigzag u = u / 2) ∧ (u % 2 = 1 → unzigzag u = -((u + 1) / 2)) ∧
      -2 ^ 63 < unzigzag u ∧ unzigzag u < 2 ^ 63 ∧ zigzag (unzigzag u) = u) ∧
  zigzag (-2 ^ 63) = 2 ^ 64 - 1 ∧ golombNumber .signed (BitVec.ofInt 64 (-2 ^ 63)) = none

end
end

