-- ==== Sys2Proof/Laws/Encoding.lean ====
section
/-! SUPPORT. The header word bit by bit, the fields read back from it, and the row of the opcode map that an encoded
instruction's header selects (30_encoding.md R52, R56). -/

namespace Sys2Proof

section
variable (be sgn flavor : BitVec 1) (w : WidthField) (stop : StopField) (bio byo : BitVec 1) (b : SlotNo)
  (opc : BitVec 8)

/-- The header word bit by bit (30_encoding.md R52). -/
theorem header_getLsbD (i : Nat) :
    (header be sgn flavor w stop bio byo b opc).getLsbD i =
      if i < 8 then opc.getLsbD i
      else if i < 12 then b.getLsbD (i - 8)
      else if i < 13 then byo.getLsbD (i - 12)
      else if i < 14 then bio.getLsbD (i - 13)
      else if i < 16 then stop.getLsbD (i - 14)
      else if i < 23 then w.getLsbD (i - 16)
      else if i < 24 then flavor.getLsbD (i - 23)
      else if i < 25 then sgn.getLsbD (i - 24)
      else if i < 26 then false
      else if i < 27 then be.getLsbD (i - 26)
      else false := by
  by_cases hi : i < 32
  · interval_cases i <;> simp [header]
  · simp only [header, BitVec.getLsbD_or, BitVec.getLsbD_shiftLeft, hi, decide_false, Bool.false_and,
      BitVec.getLsbD_setWidth, Bool.or_self]
    have : ¬ i < 8 ∧ ¬ i < 12 ∧ ¬ i < 13 ∧ ¬ i < 14 ∧ ¬ i < 16 ∧ ¬ i < 23 ∧ ¬ i < 24 ∧ ¬ i < 25 ∧ ¬ i < 26 ∧
        ¬ i < 27 := by omega
    simp [this]

theorem opc_header : (header be sgn flavor w stop bio byo b opc).extractLsb' 0 8 = opc := by
  ext i hi
  simp only [BitVec.getElem_extractLsb', header_getLsbD]
  simp_all

theorem bufOf_header : bufOf (header be sgn flavor w stop bio byo b opc) = b := by
  apply BitVec.eq_of_getLsbD_eq
  intro i hi
  simp only [bufOf, BitVec.getLsbD_extractLsb', header_getLsbD]
  interval_cases i <;> simp

theorem stopOf_header : stopOf (header be sgn flavor w stop bio byo b opc) = stop := by
  apply BitVec.eq_of_getLsbD_eq
  intro i hi
  simp only [stopOf, BitVec.getLsbD_extractLsb', header_getLsbD]
  interval_cases i <;> simp

theorem widthOf_header : widthOf (header be sgn flavor w stop bio byo b opc) = w := by
  apply BitVec.eq_of_getLsbD_eq
  intro i hi
  simp only [widthOf, BitVec.getLsbD_extractLsb', header_getLsbD]
  interval_cases i <;> simp

theorem byoOf_header (x : ByteOrder) : byoOf (header be sgn flavor w stop bio x.code b opc) = x := by
  cases x <;> simp only [byoOf, header_getLsbD, ByteOrder.code] <;> simp

theorem bioOf_header (x : BitOrder) : bioOf (header be sgn flavor w stop x.code byo b opc) = x := by
  cases x <;> simp only [bioOf, header_getLsbD, BitOrder.code] <;> simp

theorem policyOf_header (pp : Policy) :
    policyOf (header be sgn flavor w stop pp.bio.code pp.byo.code b opc) = pp := by
  simp only [policyOf, byoOf_header, bioOf_header]

theorem flavorOf_header (x : Flavor) : flavorOf (header be sgn x.code w stop bio byo b opc) = x := by
  cases x <;> simp only [flavorOf, header_getLsbD, Flavor.code] <;> simp

theorem sgnOf_header (x : Signedness) : sgnOf (header be x.code flavor w stop bio byo b opc) = x := by
  cases x <;> simp only [sgnOf, header_getLsbD, Signedness.code] <;> simp

theorem beOf_header (x : DataOrder) : beOf (header x.code sgn flavor w stop bio byo b opc) = x := by
  cases x <;> simp only [beOf, header_getLsbD, DataOrder.code] <;> simp

/-! ### Each header under the mask of its rows -/

theorem bufHeader_and : bufHeader b opc &&& 0xFFFFF0FF#32 = opc.setWidth 32 := by
  apply BitVec.eq_of_getLsbD_eq
  intro i hi
  simp only [BitVec.getLsbD_and, bufHeader, header_getLsbD]
  interval_cases i <;> simp

theorem fieldHeader_and (pp : Policy) : fieldHeader b pp w opc &&& 0xFF80C0FF#32 = opc.setWidth 32 := by
  apply BitVec.eq_of_getLsbD_eq
  intro i hi
  simp only [BitVec.getLsbD_and, fieldHeader, header_getLsbD]
  interval_cases i <;> simp

theorem unaryHeader_and (pp : Policy) (x : Flavor) :
    unaryHeader b pp x stop opc &&& 0xFF7F00FF#32 = opc.setWidth 32 := by
  apply BitVec.eq_of_getLsbD_eq
  intro i hi
  simp only [BitVec.getLsbD_and, unaryHeader, header_getLsbD]
  interval_cases i <;> simp

theorem golombHeader_and (pp : Policy) (x : Signedness) :
    golombHeader b pp x stop opc &&& 0xFEFF00FF#32 = opc.setWidth 32 := by
  apply BitVec.eq_of_getLsbD_eq
  intro i hi
  simp only [BitVec.getLsbD_and, golombHeader, header_getLsbD]
  interval_cases i <;> simp

theorem crcHeader_and (x : DataOrder) : crcHeader w x opc &&& 0xFB80FFFF#32 = opc.setWidth 32 := by
  apply BitVec.eq_of_getLsbD_eq
  intro i hi
  simp only [BitVec.getLsbD_and, crcHeader, header_getLsbD]
  interval_cases i <;> simp

end

/-! ### The row a header selects -/

/-- Every mask covers `OPC`, so a row's header has the row's opcode (30_encoding.md R56). -/
theorem opcode_of_selects (r : Row) (hr : r ∈ opcodeMap) (h : Header) (hs : r.selects h = true) :
    h.setWidth 8 = r.pattern.setWidth 8 := by
  have hm : ∀ r ∈ opcodeMap, r.mask.setWidth 8 = (0xFF#8) := by decide
  have he : h &&& r.mask = r.pattern := by simpa [Row.selects] using hs
  rw [← he, BitVec.setWidth_and, hm r hr]
  exact BitVec.and_allOnes.symm

/-- Two rows with one opcode are one row. -/
theorem row_eq_of_opcode (r r' : Row) (hr : r ∈ opcodeMap) (hr' : r' ∈ opcodeMap)
    (h : r.pattern.setWidth 8 = r'.pattern.setWidth 8) : r = r' := by
  have : ∀ r ∈ opcodeMap, ∀ r' ∈ opcodeMap, r.pattern.setWidth 8 = r'.pattern.setWidth 8 → r = r' := by decide
  exact this r hr r' hr' h

/-- A header that selects a row selects no other: the decoder finds that row (30_encoding.md R56: "No two rows can match
the same header"). -/
theorem rowOf_eq_some (r : Row) (hr : r ∈ opcodeMap) (h : Header) (hs : r.selects h = true) : rowOf h = some r := by
  cases hf : rowOf h with
  | none => exact absurd hs (by simpa using List.find?_eq_none.mp hf r hr)
  | some r' =>
    unfold rowOf at hf
    have hs' : r'.selects h = true := List.find?_some (p := fun r : Row => r.selects h) hf
    have hr' : r' ∈ opcodeMap := List.mem_of_find?_eq_some hf
    rw [row_eq_of_opcode r r' hr hr' ((opcode_of_selects r hr h hs).symm.trans (opcode_of_selects r' hr' h hs'))]

theorem rowOf_of_and (op : Opcode) (mask pattern h : Header) (words : Nat)
    (hr : (⟨op, mask, pattern, words⟩ : Row) ∈ opcodeMap) (he : h &&& mask = pattern) :
    rowOf h = some ⟨op, mask, pattern, words⟩ :=
  rowOf_eq_some _ hr h (by simp [Row.selects, he])

end Sys2Proof
end

