-- ==== Sys2Proof/Laws/Store.lean ====
section
/-! SUPPORT. What each operation on a backing store does to every byte of it, and that each keeps the canonical form and
the indices listed below a bound. Later proofs cite these and unfold none of the operations. -/

namespace Sys2Proof.Machine

/-! ### One byte -/

theorem lookupCell_eq_unlisted (i : Nat) (cs : List Host.Cell) (h : ∀ x ∈ cs, x.1 ≠ i) :
    lookupCell i cs = unlistedByte := by
  induction cs with
  | nil => rfl
  | cons c cs ih =>
    have hc : c.1 ≠ i := h c (by simp)
    simp only [lookupCell, hc, if_false]
    exact ih fun x hx => h x (by simp [hx])

theorem lookupCell_of_mem (cs : List Host.Cell) (h : cs.Pairwise (fun x y => x.1 < y.1)) (x : Host.Cell)
    (hx : x ∈ cs) : lookupCell x.1 cs = x.2 := by
  induction cs with
  | nil => cases hx
  | cons c cs ih =>
    obtain ⟨hc, hcs⟩ := List.pairwise_cons.mp h
    rcases List.mem_cons.mp hx with rfl | hx
    · simp [lookupCell]
    · have := hc x hx
      simp only [lookupCell, Nat.ne_of_lt this, if_false]
      exact ih hcs hx

theorem lookupCell_putCell (i j : Nat) (v : Byte) (cs : List Host.Cell)
    (h : cs.Pairwise (fun x y => x.1 < y.1)) :
    lookupCell j (putCell i v cs) = if i = j then v else lookupCell j cs := by
  induction cs with
  | nil =>
    by_cases hv : v = unlistedByte <;> by_cases hij : i = j <;> simp_all [putCell, lookupCell]
  | cons c cs ih =>
    obtain ⟨hc, hcs⟩ := List.pairwise_cons.mp h
    rcases Nat.lt_trichotomy i c.1 with hlt | heq | hgt
    · have hcs' : ∀ x ∈ c :: cs, x.1 ≠ i := by
        intro x hx
        rcases List.mem_cons.mp hx with rfl | hx
        · omega
        · have := hc x hx; omega
      by_cases hv : v = unlistedByte
      · subst hv
        simp only [putCell, hlt, if_true]
        split
        · next hij => subst hij; exact lookupCell_eq_unlisted i _ hcs'
        · rfl
      · simp [putCell, hlt, hv, lookupCell]
    · have hcs' : ∀ x ∈ cs, x.1 ≠ i := by
        intro x hx; have := hc x hx; omega
      subst heq
      by_cases hv : v = unlistedByte
      · subst hv
        simp only [putCell, Nat.lt_irrefl, if_false, if_true, lookupCell]
        split
        · next hij => subst hij; exact lookupCell_eq_unlisted _ _ hcs'
        · rfl
      · simp only [putCell, Nat.lt_irrefl, if_false, if_true, hv, lookupCell]
        split <;> simp_all
    · have h1 : ¬ i < c.1 := by omega
      have h2 : ¬ i = c.1 := by omega
      simp only [putCell, h1, h2, if_false, lookupCell, ih hcs]
      split
      · next hcj => have : ¬ i = j := by omega
                    simp [this]
      · rfl

theorem mem_putCell (i : Nat) (v : Byte) (cs : List Host.Cell) (x : Host.Cell) (hx : x ∈ putCell i v cs) :
    x ∈ cs ∨ (x = (i, v) ∧ v ≠ unlistedByte) := by
  induction cs with
  | nil =>
    by_cases hv : v = unlistedByte <;> simp_all [putCell]
  | cons c cs ih =>
    simp only [putCell] at hx
    split at hx
    · split at hx
      · exact .inl hx
      · next hv => rcases List.mem_cons.mp hx with rfl | hx
                   · exact .inr ⟨rfl, hv⟩
                   · exact .inl hx
    · split at hx
      · split at hx
        · exact .inl (List.mem_cons_of_mem _ hx)
        · next hv => rcases List.mem_cons.mp hx with rfl | hx
                     · exact .inr ⟨rfl, hv⟩
                     · exact .inl (List.mem_cons_of_mem _ hx)
      · rcases List.mem_cons.mp hx with rfl | hx
        · exact .inl (by simp)
        · rcases ih hx with h | h
          · exact .inl (List.mem_cons_of_mem _ h)
          · exact .inr h

theorem pairwise_putCell (i : Nat) (v : Byte) (cs : List Host.Cell) (h : cs.Pairwise (fun x y => x.1 < y.1)) :
    (putCell i v cs).Pairwise (fun x y => x.1 < y.1) := by
  induction cs with
  | nil => by_cases hv : v = unlistedByte <;> simp [putCell, hv]
  | cons c cs ih =>
    obtain ⟨hc, hcs⟩ := List.pairwise_cons.mp h
    simp only [putCell]
    split
    · next hlt =>
      split
      · exact h
      · refine List.pairwise_cons.mpr ⟨?_, h⟩
        intro x hx
        rcases List.mem_cons.mp hx with rfl | hx
        · exact hlt
        · exact Nat.lt_trans hlt (hc x hx)
    · split
      · next heq =>
        split
        · exact hcs
        · exact List.pairwise_cons.mpr ⟨fun x hx => by have := hc x hx; simp only; omega, hcs⟩
      · next h1 h2 =>
        refine List.pairwise_cons.mpr ⟨fun x hx => ?_, ih hcs⟩
        rcases mem_putCell i v cs x hx with hx | ⟨rfl, _⟩
        · exact hc x hx
        · simp only; omega

/-- Reading after one write: the byte written at its index, and at every other index what was there. -/
theorem Memory.read_write (m : Memory) (h : m.wf) (i j : Nat) (v : Byte) :
    (m.write i v).read j = if i = j then v else m.read j :=
  lookupCell_putCell i j v m.cells h.1

/-- A write keeps the canonical form. -/
theorem Memory.write_wf (m : Memory) (h : m.wf) (i : Nat) (v : Byte) : (m.write i v).wf := by
  refine ⟨pairwise_putCell i v m.cells h.1, fun x hx => ?_⟩
  rcases mem_putCell i v m.cells x hx with hx | ⟨rfl, hv⟩
  · exact h.2 x hx
  · exact hv

/-- A write lists no index but its own and those listed before. -/
theorem Memory.write_bound (m : Memory) (n i : Nat) (v : Byte) (h : ∀ x ∈ m.cells, x.1 < n) (hi : i < n) :
    ∀ x ∈ (m.write i v).cells, x.1 < n := by
  intro x hx
  rcases mem_putCell i v m.cells x hx with hx | ⟨rfl, _⟩
  · exact h x hx
  · exact hi

theorem Memory.read_eq_unlisted (m : Memory) (n i : Nat) (h : ∀ x ∈ m.cells, x.1 < n) (hi : n ≤ i) :
    m.read i = unlistedByte :=
  lookupCell_eq_unlisted i m.cells fun x hx => by have := h x hx; omega

/-- Two canonical stores that read the same everywhere are the same store. -/
theorem Memory.eq_of_read (m m' : Memory) (h : m.wf) (h' : m'.wf) (hr : ∀ i, m.read i = m'.read i) : m = m' := by
  obtain ⟨cs⟩ := m
  obtain ⟨ds⟩ := m'
  congr
  obtain ⟨hp, hn⟩ := h
  obtain ⟨hp', hn'⟩ := h'
  simp only [Memory.read] at *
  have sub : ∀ (as bs : List Host.Cell), as.Pairwise (fun x y => x.1 < y.1) →
      (∀ x ∈ as, x.2 ≠ unlistedByte) → bs.Pairwise (fun x y => x.1 < y.1) →
      (∀ i, lookupCell i as = lookupCell i bs) → ∀ x ∈ as, x ∈ bs := by
    intro as bs ha hna hb hab x hx
    have h1 := lookupCell_of_mem as ha x hx
    rw [hab] at h1
    by_contra hxb
    have : ∃ y ∈ bs, y.1 = x.1 := by
      by_contra hno
      push Not at hno
      rw [lookupCell_eq_unlisted x.1 bs hno] at h1
      exact hna x hx h1.symm
    obtain ⟨y, hy, hyx⟩ := this
    have h2 := lookupCell_of_mem bs hb y hy
    rw [hyx, h1] at h2
    exact hxb (by rwa [show x = y from Prod.ext hyx.symm h2])
  have hnd : ∀ (as : List Host.Cell), as.Pairwise (fun x y => x.1 < y.1) → as.Nodup := by
    intro as ha
    exact ha.imp fun hlt heq => by subst heq; exact Nat.lt_irrefl _ hlt
  refine List.Perm.eq_of_pairwise (le := fun x y => x.1 < y.1) ?_ hp hp' ?_
  · intro a b _ _ h1 h2; omega
  · exact (List.perm_ext_iff_of_nodup (hnd _ hp) (hnd _ hp')).mpr fun x =>
      ⟨sub cs ds hp hn hp' hr x, sub ds cs hp' hn' hp (fun i => (hr i).symm) x⟩

/-! ### The zero fill -/

theorem lookupCell_filter (i : Nat) (keep : Nat → Bool) (cs : List Host.Cell) :
    lookupCell i (cs.filter fun c => keep c.1) = if keep i then lookupCell i cs else unlistedByte := by
  induction cs with
  | nil => simp [lookupCell]
  | cons c cs ih =>
    by_cases hk : keep c.1 <;> by_cases hci : c.1 = i <;> simp_all [lookupCell]

/-- The zero fill clears the bytes of its range and keeps every other (20_memory.md R36). -/
theorem Memory.read_zeroFill (m : Memory) (lo hi i : Nat) :
    (m.zeroFill lo hi).read i = if lo ≤ i ∧ i < hi then 0 else m.read i := by
  have := lookupCell_filter i (fun a => decide (a < lo) || decide (hi ≤ a)) m.cells
  simp only [Memory.read, Memory.zeroFill, this, unlistedByte]
  by_cases h1 : lo ≤ i <;> by_cases h2 : i < hi <;> simp [h1, h2]

/-- The zero fill keeps the canonical form. -/
theorem Memory.zeroFill_wf (m : Memory) (h : m.wf) (lo hi : Nat) : (m.zeroFill lo hi).wf :=
  ⟨h.1.filter _, fun x hx => h.2 x (List.mem_filter.mp hx).1⟩

theorem Memory.zeroFill_bound (m : Memory) (n lo hi : Nat) (h : ∀ x ∈ m.cells, x.1 < n) :
    ∀ x ∈ (m.zeroFill lo hi).cells, x.1 < n :=
  fun x hx => h x (List.mem_filter.mp hx).1

/-! ### The byte moves -/

theorem Memory.moveDown_wf (m : Memory) (h : m.wf) (src n : Nat) : (m.moveDown src n).wf := by
  induction n with
  | zero => exact h
  | succ n ih => exact Memory.write_wf _ ih _ _

theorem Memory.moveDown_bound (m : Memory) (b src n : Nat) (h : ∀ x ∈ m.cells, x.1 < b) (hn : n ≤ b) :
    ∀ x ∈ (m.moveDown src n).cells, x.1 < b := by
  induction n with
  | zero => exact h
  | succ n ih => exact Memory.write_bound _ _ _ _ (ih (by omega)) (by omega)

/-- Moving `n` bytes down from `src` to index 0: the first `n` bytes are those at `src`, every other byte stays. The
ranges may overlap (44_stream.md R151, R152). -/
theorem Memory.read_moveDown (m : Memory) (h : m.wf) (src n i : Nat) :
    (m.moveDown src n).read i = if i < n then m.read (src + i) else m.read i := by
  induction n generalizing i with
  | zero => simp [Memory.moveDown]
  | succ n ih =>
    simp only [Memory.moveDown]
    rw [Memory.read_write _ (m.moveDown_wf h src n), ih, ih]
    have h1 : ¬ src + n < n := by omega
    simp only [h1, if_false]
    by_cases hni : n = i
    · subst hni; simp
    · simp only [hni, if_false]
      by_cases hin : i < n
      · have : i < n + 1 := by omega
        simp [hin, this]
      · have : ¬ i < n + 1 := by omega
        simp [hin, this]

theorem Memory.writeAll_wf (m : Memory) (h : m.wf) (dst : Nat) (vs : List Byte) : (m.writeAll dst vs).wf := by
  induction vs generalizing m dst with
  | nil => exact h
  | cons v vs ih => exact ih _ (m.write_wf h dst v) _

theorem Memory.writeAll_bound (m : Memory) (b dst : Nat) (vs : List Byte) (h : ∀ x ∈ m.cells, x.1 < b)
    (hd : dst + vs.length ≤ b) : ∀ x ∈ (m.writeAll dst vs).cells, x.1 < b := by
  induction vs generalizing m dst with
  | nil => exact h
  | cons v vs ih =>
    simp only [List.length_cons] at hd
    exact ih _ _ (m.write_bound _ _ _ h (by omega)) (by omega)

/-- Writing a list of bytes from index `dst` on: each byte at its place, every other byte stays. -/
theorem Memory.read_writeAll (m : Memory) (h : m.wf) (dst : Nat) (vs : List Byte) (i : Nat) :
    (m.writeAll dst vs).read i =
      if dst ≤ i ∧ i < dst + vs.length then vs.getD (i - dst) 0 else m.read i := by
  induction vs generalizing m dst with
  | nil =>
    have : ¬ (dst ≤ i ∧ i < dst + 0) := by omega
    simp only [Memory.writeAll, List.length_nil, this, if_false]
  | cons v vs ih =>
    simp only [Memory.writeAll, ih _ (m.write_wf h dst v), m.read_write h, List.length_cons]
    by_cases hd : dst = i
    · subst hd; simp
    · by_cases h1 : dst + 1 ≤ i ∧ i < dst + 1 + vs.length
      · have h2 : dst ≤ i ∧ i < dst + (vs.length + 1) := by omega
        have h3 : i - dst = (i - (dst + 1)) + 1 := by omega
        simp [h1, h2, h3]
      · have h2 : ¬ (dst ≤ i ∧ i < dst + (vs.length + 1)) := by omega
        rw [if_neg h1, if_neg h2, if_neg hd]

@[simp] theorem Memory.firstBytes_length (m : Memory) (k : Nat) : (m.firstBytes k).length = k := by
  simp [Memory.firstBytes]

/-- The emitted bytes are the first bytes of the store, in index order (44_stream.md R152). -/
theorem Memory.firstBytes_getElem? (m : Memory) (k i : Nat) (h : i < k) : (m.firstBytes k)[i]? = some (m.read i) := by
  simp [Memory.firstBytes, h]

end Sys2Proof.Machine
end

