-- ==== Sys2Proof/Laws/Field.lean ====
section
/-! SUPPORT. The chunks of a bit field, and what storing a field does to the bytes of the store (41_bitcodec.md R90 to
R92). -/

namespace Sys2Proof.Machine

/-! ### The chunks -/

/-- What every chunk of a field satisfies: it holds at least one bit, lies in one byte, starts where the bits before it
end, and ends within the field (41_bitcodec.md R92). -/
theorem cutFrom_mem (fuel p done w : Nat) (k : Chunk) (hk : k ∈ cutFrom fuel p done w) :
    1 ≤ k.size ∧ k.offset + k.size ≤ 8 ∧ done ≤ k.start ∧ k.start + k.size ≤ w ∧
      8 * k.index + k.offset = p + (k.start - done) := by
  induction fuel generalizing p done with
  | zero => simp [cutFrom] at hk
  | succ fuel ih =>
    simp only [cutFrom] at hk
    split at hk
    · next hlt =>
      rcases List.mem_cons.mp hk with rfl | hk
      · simp only; omega
      · have := ih _ _ hk; omega
    · simp at hk

theorem cut_mem (c w : Nat) (k : Chunk) (hk : k ∈ cut c w) :
    1 ≤ k.size ∧ k.offset + k.size ≤ 8 ∧ k.start + k.size ≤ w ∧ 8 * k.index + k.offset = c + k.start := by
  have := cutFrom_mem w c 0 w k hk
  omega

/-- The byte of a chunk lies between the first and the last byte of the field. -/
theorem cut_index (c w : Nat) (k : Chunk) (hk : k ∈ cut c w) : c / 8 ≤ k.index ∧ k.index < bytesFor (c + w) := by
  have := cut_mem c w k hk
  simp only [bytesFor]
  omega

/-- Any two numbers of rounds that are enough give the same chunks. -/
theorem cutFrom_fuel (f g p done w : Nat) (hf : w - done ≤ f) (hg : w - done ≤ g) :
    cutFrom f p done w = cutFrom g p done w := by
  induction f generalizing g p done with
  | zero =>
    have hd : ¬ done < w := by omega
    cases g <;> simp [cutFrom, hd]
  | succ f ih =>
    by_cases hd : done < w
    · obtain ⟨g, rfl⟩ : ∃ g', g = g' + 1 := ⟨g - 1, by omega⟩
      simp only [cutFrom, hd, if_true]
      rw [ih g _ _ (by omega) (by omega)]
    · cases g <;> simp [cutFrom, hd]

/-- The first chunk of a field of at least one bit, and the rest (41_bitcodec.md R92: chunk 0 is
`[0, min(8 − c mod 8, w))`). -/
theorem cut_eq_cons (c w : Nat) (hw : 0 < w) :
    cut c w = ⟨c / 8, c % 8, min (8 - c % 8) w, 0⟩ ::
      cutFrom w (c + min (8 - c % 8) w) (min (8 - c % 8) w) w := by
  obtain ⟨n, rfl⟩ : ∃ n, w = n + 1 := ⟨w - 1, by omega⟩
  have hlt : 0 < n + 1 := by omega
  simp only [cut]
  rw [show cutFrom (n + 1) c 0 (n + 1) = ⟨c / 8, c % 8, min (8 - c % 8) (n + 1 - 0), 0⟩ ::
    cutFrom n (c + min (8 - c % 8) (n + 1 - 0)) (0 + min (8 - c % 8) (n + 1 - 0)) (n + 1) by
      simp only [cutFrom, hlt, if_true]]
  simp only [Nat.sub_zero, Nat.zero_add]
  rw [cutFrom_fuel n (n + 1) _ _ _ (by omega) (by omega)]

/-- The sizes of the chunks add up to the width. -/
theorem cutFrom_sizes (fuel p done w : Nat) (hf : w - done ≤ fuel) :
    ((cutFrom fuel p done w).map Chunk.size).sum = w - done := by
  induction fuel generalizing p done with
  | zero => simp [cutFrom]; omega
  | succ fuel ih =>
    by_cases hd : done < w
    · simp only [cutFrom, hd, if_true, List.map_cons, List.sum_cons]
      rw [ih _ _ (by omega)]
      omega
    · simp only [cutFrom, hd, if_false, List.map_nil, List.sum_nil]
      omega

/-- A one-bit field is one chunk (42_varlen.md R110). -/
theorem cut_one (c : Nat) : cut c 1 = [⟨c / 8, c % 8, 1, 0⟩] := by
  have h : min (8 - c % 8) 1 = 1 := by omega
  rw [cut_eq_cons c 1 (by omega), h]
  simp [cutFrom]

/-! ### Storing -/

theorem Chunk.store_wf (k : Chunk) (bio : BitOrder) (x : Nat) (m : Memory) (h : m.wf) : (k.store bio x m).wf :=
  m.write_wf h _ _

/-- Storing a chunk changes no byte but its own. -/
theorem Chunk.read_store (k : Chunk) (bio : BitOrder) (x : Nat) (m : Memory) (h : m.wf) (i : Nat)
    (hi : i ≠ k.index) : (k.store bio x m).read i = m.read i := by
  simp only [Chunk.store, m.read_write h, Ne.symm hi, if_false]

theorem storeAll_wf (ks : List Chunk) (bio : BitOrder) (f : Chunk → Nat) (m : Memory) (h : m.wf) :
    (ks.foldl (fun m k => k.store bio (f k) m) m).wf := by
  induction ks generalizing m with
  | nil => exact h
  | cons k ks ih => exact ih _ (k.store_wf bio _ m h)

theorem storeAll_bound (ks : List Chunk) (bio : BitOrder) (f : Chunk → Nat) (m : Memory) (n : Nat)
    (h : ∀ x ∈ m.cells, x.1 < n) (hk : ∀ k ∈ ks, k.index < n) :
    ∀ x ∈ (ks.foldl (fun m k => k.store bio (f k) m) m).cells, x.1 < n := by
  induction ks generalizing m with
  | nil => exact h
  | cons k ks ih =>
    exact ih _ (m.write_bound _ _ _ h (hk k (by simp))) fun k' hk' => hk k' (by simp [hk'])

theorem read_storeAll (ks : List Chunk) (bio : BitOrder) (f : Chunk → Nat) (m : Memory) (h : m.wf) (i : Nat)
    (hk : ∀ k ∈ ks, k.index ≠ i) : (ks.foldl (fun m k => k.store bio (f k) m) m).read i = m.read i := by
  induction ks generalizing m with
  | nil => rfl
  | cons k ks ih =>
    simp only [List.foldl_cons]
    rw [ih _ (k.store_wf bio _ m h) fun k' hk' => hk k' (by simp [hk'])]
    exact k.read_store bio _ m h i (Ne.symm (hk k (by simp)))

theorem Memory.insert_wf (m : Memory) (h : m.wf) (c w val : Nat) (pp : Policy) : (m.insert c w val pp).wf :=
  storeAll_wf _ _ _ m h

theorem Memory.insert_bound (m : Memory) (n c w val : Nat) (pp : Policy) (h : ∀ x ∈ m.cells, x.1 < n)
    (hn : bytesFor (c + w) ≤ n) : ∀ x ∈ (m.insert c w val pp).cells, x.1 < n :=
  storeAll_bound _ _ _ m n h fun k hk => Nat.lt_of_lt_of_le (cut_index c w k hk).2 hn

/-- `Insert` changes no byte outside those the field touches. -/
theorem Memory.read_insert (m : Memory) (h : m.wf) (c w val : Nat) (pp : Policy) (i : Nat)
    (hi : i < c / 8 ∨ bytesFor (c + w) ≤ i) : (m.insert c w val pp).read i = m.read i :=
  read_storeAll _ _ _ m h i fun k hk => by have := cut_index c w k hk; omega

theorem Memory.putBit_wf (m : Memory) (h : m.wf) (p x : Nat) (bio : BitOrder) : (m.putBit p x bio).wf :=
  m.insert_wf h _ _ _ _

theorem Memory.putRun_wf (m : Memory) (h : m.wf) (c x : Nat) (bio : BitOrder) (k : Nat) :
    (m.putRun c x bio k).wf := by
  induction k with
  | zero => exact h
  | succ k ih => exact Memory.putBit_wf _ ih _ _ _

theorem Memory.putUnary_wf (m : Memory) (h : m.wf) (c k stop : Nat) (bio : BitOrder) :
    (m.putUnary c k stop bio).wf :=
  Memory.putBit_wf _ (m.putRun_wf h _ _ _ _) _ _ _

theorem Memory.putGolomb_wf (m : Memory) (h : m.wf) (c u stop : Nat) (pp : Policy) :
    (m.putGolomb c u stop pp).wf := by
  simp only [Memory.putGolomb]
  split
  · exact m.putUnary_wf h _ _ _ _
  · exact Memory.insert_wf _ (m.putUnary_wf h _ _ _ _) _ _ _ _

theorem Memory.putRun_bound (m : Memory) (n c x : Nat) (bio : BitOrder) (k : Nat) (h : ∀ y ∈ m.cells, y.1 < n)
    (hn : bytesFor (c + k) ≤ n) : ∀ y ∈ (m.putRun c x bio k).cells, y.1 < n := by
  induction k with
  | zero => exact h
  | succ k ih =>
    refine Memory.insert_bound _ n _ _ _ _ (ih ?_) hn
    simp only [bytesFor] at *; omega

theorem Memory.putUnary_bound (m : Memory) (n c k stop : Nat) (bio : BitOrder) (h : ∀ y ∈ m.cells, y.1 < n)
    (hn : bytesFor (c + k + 1) ≤ n) : ∀ y ∈ (m.putUnary c k stop bio).cells, y.1 < n := by
  refine Memory.insert_bound _ n _ _ _ _ (m.putRun_bound n c _ bio k h ?_) hn
  simp only [bytesFor] at *; omega

theorem Memory.putGolomb_bound (m : Memory) (n c u stop : Nat) (pp : Policy) (h : ∀ y ∈ m.cells, y.1 < n)
    (hn : bytesFor (c + golombLength u) ≤ n) : ∀ y ∈ (m.putGolomb c u stop pp).cells, y.1 < n := by
  simp only [golombLength] at hn
  simp only [Memory.putGolomb]
  have hu : ∀ y ∈ (m.putUnary c (golombPrefix u) stop pp.bio).cells, y.1 < n := by
    refine m.putUnary_bound n c _ stop pp.bio h ?_
    simp only [bytesFor] at *; omega
  split
  · exact hu
  · refine Memory.insert_bound _ n _ _ _ _ hu ?_
    simp only [bytesFor] at *; omega

/-- Writing a run of bits changes no byte outside those it touches. -/
theorem Memory.read_putRun (m : Memory) (h : m.wf) (c x : Nat) (bio : BitOrder) (k i : Nat)
    (hi : i < c / 8 ∨ bytesFor (c + k) ≤ i) : (m.putRun c x bio k).read i = m.read i := by
  induction k with
  | zero => rfl
  | succ k ih =>
    simp only [Memory.putRun, Memory.putBit]
    rw [Memory.read_insert _ (m.putRun_wf h _ _ _ _), ih]
    all_goals simp only [bytesFor] at *; omega

theorem Memory.read_putUnary (m : Memory) (h : m.wf) (c k stop : Nat) (bio : BitOrder) (i : Nat)
    (hi : i < c / 8 ∨ bytesFor (c + k + 1) ≤ i) : (m.putUnary c k stop bio).read i = m.read i := by
  simp only [Memory.putUnary, Memory.putBit]
  rw [Memory.read_insert _ (m.putRun_wf h _ _ _ _), m.read_putRun h]
  all_goals simp only [bytesFor] at *; omega

theorem Memory.read_putGolomb (m : Memory) (h : m.wf) (c u stop : Nat) (pp : Policy) (i : Nat)
    (hi : i < c / 8 ∨ bytesFor (c + golombLength u) ≤ i) : (m.putGolomb c u stop pp).read i = m.read i := by
  simp only [golombLength] at hi
  simp only [Memory.putGolomb]
  split
  · refine m.read_putUnary h _ _ _ _ _ ?_
    simp only [bytesFor] at *; omega
  · rw [Memory.read_insert _ (m.putUnary_wf h _ _ _ _), m.read_putUnary h]
    all_goals simp only [bytesFor] at *; omega

/-! ### Scanning -/

/-- What the scan answers: the first offset, from `k` on and within `fuel` bits, at which the stop bit stands
(42_varlen.md R112). -/
theorem Memory.scan_some (m : Memory) (c stop : Nat) (bio : BitOrder) (fuel k n : Nat)
    (h : m.scan c stop bio fuel k = some n) :
    k ≤ n ∧ n < k + fuel ∧ m.bitAt (c + n) bio = stop ∧ ∀ j, k ≤ j → j < n → m.bitAt (c + j) bio ≠ stop := by
  induction fuel generalizing k with
  | zero => simp [Memory.scan] at h
  | succ fuel ih =>
    simp only [Memory.scan] at h
    split at h
    · next hb =>
      obtain rfl : k = n := by simpa using h
      exact ⟨le_refl _, by omega, hb, fun j h1 h2 => by omega⟩
    · next hb =>
      obtain ⟨h1, h2, h3, h4⟩ := ih _ h
      refine ⟨by omega, by omega, h3, fun j hj1 hj2 => ?_⟩
      by_cases hjk : j = k
      · subst hjk; exact hb
      · exact h4 j (by omega) hj2

/-- The scan answers nothing exactly when all the bits it looks at are non-stop bits. -/
theorem Memory.scan_none (m : Memory) (c stop : Nat) (bio : BitOrder) (fuel k : Nat) :
    m.scan c stop bio fuel k = none ↔ ∀ j, k ≤ j → j < k + fuel → m.bitAt (c + j) bio ≠ stop := by
  induction fuel generalizing k with
  | zero => simp [Memory.scan]; omega
  | succ fuel ih =>
    simp only [Memory.scan]
    split
    · next hb => simp only [reduceCtorEq, false_iff]; exact fun h => h k (le_refl _) (by omega) hb
    · next hb =>
      rw [ih]
      constructor
      · intro h j h1 h2
        by_cases hjk : j = k
        · subst hjk; exact hb
        · exact h j (by omega) (by omega)
      · intro h j h1 h2
        exact h j (by omega) (by omega)

/-- The scan finds the first stop bit when there is one within reach. -/
theorem Memory.scan_eq_some (m : Memory) (c stop : Nat) (bio : BitOrder) (fuel k n : Nat) (h1 : k ≤ n)
    (h2 : n < k + fuel) (h3 : m.bitAt (c + n) bio = stop) (h4 : ∀ j, k ≤ j → j < n → m.bitAt (c + j) bio ≠ stop) :
    m.scan c stop bio fuel k = some n := by
  cases hs : m.scan c stop bio fuel k with
  | none => exact absurd h3 ((m.scan_none c stop bio fuel k).mp hs n h1 h2)
  | some n' =>
    obtain ⟨g1, g2, g3, g4⟩ := m.scan_some c stop bio fuel k n' hs
    rcases Nat.lt_trichotomy n n' with hlt | rfl | hgt
    · exact absurd h3 (g4 n h1 hlt)
    · rfl
    · exact absurd g3 (h4 n' g1 hgt)

end Sys2Proof.Machine
end

