-- ==== Sys2Proof/Laws/State.lean ====
section
/-! SUPPORT. One lemma per field per update of the state and of a slot, and how the slots are read and written. -/

namespace Sys2Proof.Machine

/-! ### Updates of the state, field by field -/

section
variable (s : State) (b : SlotNo) (sl : Slot) (r : Response) (input : HostInput) (rest : List Event)

@[simp] theorem State.setSlot_cfg : (s.setSlot b sl).cfg = s.cfg := rfl
@[simp] theorem State.setSlot_slots : (s.setSlot b sl).slots = s.slots.set b.toNat sl := rfl
@[simp] theorem State.setSlot_pending : (s.setSlot b sl).pending = s.pending := rfl
@[simp] theorem State.setSlot_streamIn : (s.setSlot b sl).streamIn = s.streamIn := rfl
@[simp] theorem State.setSlot_streamAccept : (s.setSlot b sl).streamAccept = s.streamAccept := rfl
@[simp] theorem State.setSlot_response : (s.setSlot b sl).response = s.response := rfl

@[simp] theorem State.respond_cfg : (s.respond r).cfg = s.cfg := rfl
@[simp] theorem State.respond_slots : (s.respond r).slots = s.slots := rfl
@[simp] theorem State.respond_pending : (s.respond r).pending = s.pending := rfl
@[simp] theorem State.respond_streamIn : (s.respond r).streamIn = [] := rfl
@[simp] theorem State.respond_streamAccept : (s.respond r).streamAccept = 0 := rfl
@[simp] theorem State.respond_response : (s.respond r).response = some r := rfl

@[simp] theorem State.present_cfg : (s.present input rest).cfg = s.cfg := rfl
@[simp] theorem State.present_slots : (s.present input rest).slots = s.slots := rfl
@[simp] theorem State.present_pending : (s.present input rest).pending = rest := rfl
@[simp] theorem State.present_streamIn : (s.present input rest).streamIn = input.bytes := rfl
@[simp] theorem State.present_streamAccept : (s.present input rest).streamAccept = input.accept := rfl
@[simp] theorem State.present_response : (s.present input rest).response = none := rfl

@[simp] theorem State.idle_cfg : s.idle.cfg = s.cfg := rfl
@[simp] theorem State.idle_slots : s.idle.slots = s.slots := rfl
@[simp] theorem State.idle_pending : s.idle.pending = s.pending := rfl
@[simp] theorem State.idle_streamIn : s.idle.streamIn = [] := rfl
@[simp] theorem State.idle_streamAccept : s.idle.streamAccept = 0 := rfl
@[simp] theorem State.idle_response : s.idle.response = none := rfl

@[simp] theorem State.resetTo_cfg : (s.resetTo rest).cfg = s.cfg := rfl
@[simp] theorem State.resetTo_slots : (s.resetTo rest).slots = List.replicate s.cfg.nbuf Slot.empty := rfl
@[simp] theorem State.resetTo_pending : (s.resetTo rest).pending = rest := rfl
@[simp] theorem State.resetTo_streamIn : (s.resetTo rest).streamIn = [] := rfl
@[simp] theorem State.resetTo_streamAccept : (s.resetTo rest).streamAccept = 0 := rfl
@[simp] theorem State.resetTo_response : (s.resetTo rest).response = none := rfl

end

/-! ### Updates of a slot, field by field -/

section
variable (sl : Slot) (t : Nat)

@[simp] theorem Slot.grow_valid : (sl.grow t).valid = sl.valid := rfl
@[simp] theorem Slot.grow_bitCount : (sl.grow t).bitCount = BitVec.ofNat 64 t := rfl
@[simp] theorem Slot.grow_cursor : (sl.grow t).cursor = sl.cursor := rfl
@[simp] theorem Slot.grow_bytes : (sl.grow t).bytes = sl.bytes.zeroFill sl.len (bytesFor t) := rfl

@[simp] theorem Slot.seek_valid : (sl.seek t).valid = sl.valid := rfl
@[simp] theorem Slot.seek_bitCount : (sl.seek t).bitCount = sl.bitCount := rfl
@[simp] theorem Slot.seek_cursor : (sl.seek t).cursor = BitVec.ofNat 64 t := rfl
@[simp] theorem Slot.seek_bytes : (sl.seek t).bytes = sl.bytes := rfl

@[simp] theorem Slot.growTo_valid : (sl.growTo t).valid = sl.valid := by
  simp only [Slot.growTo]; split <;> rfl

@[simp] theorem Slot.growTo_cursor : (sl.growTo t).cursor = sl.cursor := by
  simp only [Slot.growTo]; split <;> rfl

/-- After growth `BIT_COUNT` is the larger of the old one and the target (20_memory.md R36). -/
theorem Slot.growTo_bitCount (ht : t < 2 ^ 64) : (sl.growTo t).bitCount.toNat = max sl.bitCount.toNat t := by
  simp only [Slot.growTo]
  split
  · simp only [Slot.grow_bitCount, BitVec.toNat_ofNat, Nat.mod_eq_of_lt ht]; omega
  · omega

/-- Growth clears the bytes that come into use and keeps every other (20_memory.md R36). -/
theorem Slot.read_growTo (i : Nat) :
    (sl.growTo t).bytes.read i = if sl.len ≤ i ∧ i < bytesFor t then 0 else sl.bytes.read i := by
  simp only [Slot.growTo]
  split
  · exact Memory.read_zeroFill _ _ _ _
  · next h =>
    have : ¬ (sl.len ≤ i ∧ i < bytesFor t) := by
      simp only [Slot.len, bytesFor]; omega
    rw [if_neg this]

theorem Slot.growTo_bytes_wf (h : sl.bytes.wf) : (sl.growTo t).bytes.wf := by
  simp only [Slot.growTo]
  split
  · exact Memory.zeroFill_wf _ h _ _
  · exact h

theorem Slot.growTo_bytes_bound (n : Nat) (h : ∀ x ∈ sl.bytes.cells, x.1 < n) :
    ∀ x ∈ (sl.growTo t).bytes.cells, x.1 < n := by
  simp only [Slot.growTo]
  split
  · exact Memory.zeroFill_bound _ _ _ _ h
  · exact h

end

/-! ### Finding slots -/

theorem State.slot?_eq_some (s : State) (b : SlotNo) (sl : Slot) :
    s.slot? b = some sl ↔ b.toNat < s.cfg.nbuf ∧ s.slots[b.toNat]? = some sl := by
  simp only [State.slot?]
  split <;> simp_all

@[simp] theorem State.slot?_respond (s : State) (b : SlotNo) (r : Response) : (s.respond r).slot? b = s.slot? b := rfl

@[simp] theorem State.slot?_present (s : State) (b : SlotNo) (input : HostInput) (rest : List Event) :
    (s.present input rest).slot? b = s.slot? b := rfl

@[simp] theorem State.slot?_idle (s : State) (b : SlotNo) : s.idle.slot? b = s.slot? b := rfl

/-- The slot just written reads as written. -/
theorem State.slot?_setSlot_same (s : State) (b : SlotNo) (sl sl' : Slot) (h : s.slot? b = some sl) :
    (s.setSlot b sl').slot? b = some sl' := by
  obtain ⟨h1, h2⟩ := (s.slot?_eq_some b sl).mp h
  refine (State.slot?_eq_some _ b sl').mpr ⟨h1, ?_⟩
  have hlt : b.toNat < s.slots.length := by
    by_contra hge
    rw [List.getElem?_eq_none (by omega)] at h2
    cases h2
  simp [hlt]

/-- Every other slot is as it was. -/
theorem State.slot?_setSlot_other (s : State) (b b' : SlotNo) (sl : Slot) (h : b' ≠ b) :
    (s.setSlot b sl).slot? b' = s.slot? b' := by
  have hne : b.toNat ≠ b'.toNat := fun e => h (BitVec.eq_of_toNat_eq e.symm)
  simp only [State.slot?, State.setSlot_cfg, State.setSlot_slots, List.getElem?_set_ne hne]

/-! ### Good states -/

theorem State.slot_wf (s : State) (h : s.wf) (b : SlotNo) (sl : Slot) (hb : s.slot? b = some sl) :
    sl.wf s.cfg.capBytes :=
  h.2.2 sl (List.mem_of_getElem? ((s.slot?_eq_some b sl).mp hb).2)

theorem State.setSlot_wf (s : State) (h : s.wf) (b : SlotNo) (sl : Slot) (hsl : sl.wf s.cfg.capBytes) :
    (s.setSlot b sl).wf := by
  refine ⟨h.1, by simpa using h.2.1, fun x hx => ?_⟩
  rcases List.mem_or_eq_of_mem_set hx with hx | rfl
  · exact h.2.2 x hx
  · exact hsl

theorem State.respond_wf (s : State) (h : s.wf) (r : Response) : (s.respond r).wf := h

theorem State.present_wf (s : State) (h : s.wf) (input : HostInput) (rest : List Event) :
    (s.present input rest).wf := h

/-- `8 × CAP_BYTES` is below `2^64`, so no position within a store is too large for a register (00_scope.md R4). -/
theorem Config.capBits_lt (c : Config) (h : c.wf) : c.capBits < 2 ^ 64 := by
  have := h.2.1.2
  simp only [Config.capBits]
  omega

theorem Slot.empty_wf (n : Nat) : Slot.empty.wf n :=
  ⟨Nat.le_refl 0, Nat.zero_le _, fun _ => ⟨rfl, rfl⟩, ⟨List.Pairwise.nil, fun _ hx => nomatch hx⟩,
    fun _ hx => nomatch hx⟩

end Sys2Proof.Machine
end

