-- ==== Sys2Proof/Laws/Ops.lean ====
section
/-! SUPPORT. For each shared operation of Machine/Ops.lean one lemma that says everything it can do, and one for the step
itself. -/

namespace Sys2Proof.Machine

/-- A slot that is present and holds a Bit Buffer (60_exceptions.md R171). -/
theorem needBuffer_present (b : SlotNo) (s : State) (k : Slot → Effect) (sl : Slot) (h : s.slot? b = some sl)
    (hv : sl.valid = true) : needBuffer b s k = k sl := by
  simp [needBuffer, h, hv]

/-- Everything `NeedBuffer` can do: go on with a valid slot, or raise `ABSENT_BUFFER`. -/
theorem needBuffer_cases (b : SlotNo) (s : State) (k : Slot → Effect) :
    (∃ sl, s.slot? b = some sl ∧ sl.valid = true ∧ needBuffer b s k = k sl) ∨
      ((∀ sl, s.slot? b = some sl → sl.valid = false) ∧ needBuffer b s k = raise .absentBuffer s) := by
  simp only [needBuffer]
  cases h : s.slot? b with
  | none => exact .inr ⟨by simp, rfl⟩
  | some sl =>
    cases hv : sl.valid with
    | true => exact .inl ⟨sl, rfl, hv, by simp [hv]⟩
    | false => exact .inr ⟨by simp_all, by simp [hv]⟩

/-- An absent slot, in the terms of the statements (60_exceptions.md R171). -/
theorem needBuffer_absent (b : SlotNo) (s : State) (k : Slot → Effect) (h : s.Absent b) :
    needBuffer b s k = raise .absentBuffer s := by
  rcases needBuffer_cases b s k with ⟨sl, h1, h2, _⟩ | ⟨_, h3⟩
  · obtain ⟨hlt, hsl⟩ := (s.slot?_eq_some b sl).mp h1
    rcases h with h | ⟨sl', h, h'⟩
    · omega
    · rw [hsl] at h
      cases h
      simp_all
  · exact h3

/-- A legal width is 1 to 64 (41_bitcodec.md R93). -/
theorem widthLegal_iff (w : WidthField) : widthLegal w = true ↔ 1 ≤ w.toNat ∧ w.toNat ≤ 64 := by
  simp only [widthLegal, Bool.and_eq_true]
  exact ⟨fun h => ⟨of_decide_eq_true h.1, of_decide_eq_true h.2⟩, fun h => ⟨decide_eq_true h.1, decide_eq_true h.2⟩⟩

/-- Everything the shared read can do. -/
theorem readField_cases (sl : Slot) (pp : Policy) (w : WidthField) (s : State) (k : Word → Effect) :
    (widthLegal w = false ∧ readField sl pp w s k = raise .widthRange s) ∨
    (widthLegal w = true ∧ sl.bitCount.toNat < sl.cursor.toNat + w.toNat ∧
      readField sl pp w s k = raise .capacity s) ∨
    (widthLegal w = true ∧ sl.cursor.toNat + w.toNat ≤ sl.bitCount.toNat ∧
      s.cfg.capBytes < bytesFor (sl.cursor.toNat + w.toNat) ∧ readField sl pp w s k = .fault .outsideStore) ∨
    (widthLegal w = true ∧ sl.cursor.toNat + w.toNat ≤ sl.bitCount.toNat ∧
      bytesFor (sl.cursor.toNat + w.toNat) ≤ s.cfg.capBytes ∧
      readField sl pp w s k = k (BitVec.ofNat 64 (sl.bytes.extract sl.cursor.toNat w.toNat pp))) := by
  simp only [readField, State.inStore]
  cases hw : widthLegal w with
  | false => exact .inl ⟨rfl, by simp⟩
  | true =>
    by_cases hc : sl.cursor.toNat + w.toNat > sl.bitCount.toNat
    · exact .inr (.inl ⟨rfl, hc, by simp [hc]⟩)
    · by_cases hs : bytesFor (sl.cursor.toNat + w.toNat) ≤ s.cfg.capBytes
      · exact .inr (.inr (.inr ⟨rfl, by omega, hs, by simp [hc, hs]⟩))
      · exact .inr (.inr (.inl ⟨rfl, by omega, by omega, by simp [hc, hs]⟩))

/-- Everything the shared scan can do. -/
theorem scanPrefix_cases (sl : Slot) (bio : BitOrder) (stop : StopField) (s : State) (k : Nat → Effect) :
    (∃ n, sl.bytes.scan sl.cursor.toNat stop.toNat bio (min sl.bitCount.toNat s.cfg.capBits - sl.cursor.toNat) 0 =
        some n ∧ scanPrefix sl bio stop s k = k n) ∨
    (sl.bytes.scan sl.cursor.toNat stop.toNat bio (min sl.bitCount.toNat s.cfg.capBits - sl.cursor.toNat) 0 = none ∧
      sl.bitCount.toNat ≤ max sl.cursor.toNat s.cfg.capBits ∧ scanPrefix sl bio stop s k = raise .capacity s) ∨
    (sl.bytes.scan sl.cursor.toNat stop.toNat bio (min sl.bitCount.toNat s.cfg.capBits - sl.cursor.toNat) 0 = none ∧
      max sl.cursor.toNat s.cfg.capBits < sl.bitCount.toNat ∧ scanPrefix sl bio stop s k = .fault .outsideStore) := by
  simp only [scanPrefix]
  cases hs : sl.bytes.scan sl.cursor.toNat stop.toNat bio
      (min sl.bitCount.toNat s.cfg.capBits - sl.cursor.toNat) 0 with
  | some n => exact .inl ⟨n, rfl, rfl⟩
  | none =>
    by_cases hc : sl.bitCount.toNat ≤ max sl.cursor.toNat s.cfg.capBits
    · exact .inr (.inl ⟨rfl, hc, by simp [hc]⟩)
    · exact .inr (.inr ⟨rfl, by omega, by simp [hc]⟩)

/-- The shared scan goes on with the count of non-stop bits before the first stop bit (42_varlen.md R112). -/
theorem scanPrefix_found (sl : Slot) (bio : BitOrder) (stop : StopField) (s : State) (k : Nat → Effect) (n : Nat)
    (hbc : sl.cursor.toNat + n < sl.bitCount.toNat) (hcap : sl.bitCount.toNat ≤ s.cfg.capBits)
    (hstop : sl.bytes.bitAt (sl.cursor.toNat + n) bio = stop.toNat)
    (hrun : ∀ j, j < n → sl.bytes.bitAt (sl.cursor.toNat + j) bio ≠ stop.toNat) :
    scanPrefix sl bio stop s k = k n := by
  have := sl.bytes.scan_eq_some sl.cursor.toNat stop.toNat bio
    (min sl.bitCount.toNat s.cfg.capBits - sl.cursor.toNat) 0 n (by omega) (by omega) hstop fun j _ hj => hrun j hj
  simp only [scanPrefix, this]

/-- The end of a command that has changed slot `b`: every other slot and every parameter is as it was. -/
theorem finish_next (b : SlotNo) (sl : Slot) (r0 r1 : Word) (s : State) :
    finish b sl r0 r1 s = .next ((s.setSlot b sl).respond ⟨.ok, r0, r1, []⟩) := rfl

theorem answer_next (r0 r1 : Word) (s : State) : answer r0 r1 s = .next (s.respond ⟨.ok, r0, r1, []⟩) := rfl

theorem raise_next (st : Status) (s : State) : raise st s = .next (s.respond ⟨st, 0, 0, []⟩) := rfl

theorem transfer_next (b : SlotNo) (sl : Slot) (asked moved : Nat) (out : List Byte) (s : State) :
    transfer b sl asked moved out s = .next ((s.setSlot b sl).respond
      ⟨if moved = asked then .ok else .short, BitVec.ofNat 64 asked, BitVec.ofNat 64 moved, out⟩) := rfl

/-! ### What a step can do -/

/-- Everything a step can do (20_memory.md R40; 30_encoding.md R57; 70_reset_and_hazards.md R200). -/
theorem step_cases (s : State) :
    (s.pending = [] ∧ step s = .next s.idle) ∨
    (∃ rest, s.pending = .resetRequest :: rest ∧ step s = .next (s.resetTo rest)) ∨
    (∃ p input rest e, s.pending = .command p input :: rest ∧ decode p = .error e ∧
      step s = raise (decodeStatus e) (s.present input rest)) ∨
    (∃ p input rest i, s.pending = .command p input :: rest ∧ decode p = .ok i ∧
      step s = exec i (s.present input rest)) := by
  simp only [step]
  cases hp : s.pending with
  | nil => exact .inl ⟨rfl, rfl⟩
  | cons ev rest =>
    cases ev with
    | resetRequest => exact .inr (.inl ⟨rest, rfl, rfl⟩)
    | command p input =>
      cases hd : decode p with
      | error e => exact .inr (.inr (.inl ⟨p, input, rest, e, rfl, hd, by simp [runPacket, hd]⟩))
      | ok i => exact .inr (.inr (.inr ⟨p, input, rest, i, rfl, hd, by simp [runPacket, hd]⟩))

end Sys2Proof.Machine
end

