-- ==== Sys2Proof/Laws/PerInstr.lean ====
section
/-! SUPPORT. Statements about every instruction as syntax, one lemma for each constructor of `Instr`. -/

namespace Sys2Proof.Laws

/-- `EncodesUnderItsRow`: the header of an encoded instruction selects the row of its own mnemonic, whatever the fields
and operands are, and the packet carries the row's number of operand words (30_encoding.md R56, R57). -/
def EncodesUnderItsRow.Statement (i : Instr) : Prop :=
  ∃ r, rowOf (encode i).header = some r ∧ r.op = Sys2Proof.Machine.opcodeOf i ∧ (encode i).operands.length = r.words

namespace EncodesUnderItsRow

theorem create (b : SlotNo) (cap : Word) : Statement (.create b cap) :=
  ⟨_, rowOf_of_and .create _ 0x01#32 _ 1 (by decide) (bufHeader_and b _), rfl, rfl⟩

theorem destroy (b : SlotNo) : Statement (.destroy b) :=
  ⟨_, rowOf_of_and .destroy _ 0x02#32 _ 0 (by decide) (bufHeader_and b _), rfl, rfl⟩

theorem bitlen (b : SlotNo) : Statement (.bitlen b) :=
  ⟨_, rowOf_of_and .bitlen _ 0x03#32 _ 0 (by decide) (bufHeader_and b _), rfl, rfl⟩

theorem pos (b : SlotNo) : Statement (.pos b) :=
  ⟨_, rowOf_of_and .pos _ 0x04#32 _ 0 (by decide) (bufHeader_and b _), rfl, rfl⟩

theorem isalign (b : SlotNo) (g : Word) : Statement (.isalign b g) :=
  ⟨_, rowOf_of_and .isalign _ 0x05#32 _ 1 (by decide) (bufHeader_and b _), rfl, rfl⟩

theorem align (b : SlotNo) (g : Word) : Statement (.align b g) :=
  ⟨_, rowOf_of_and .align _ 0x06#32 _ 1 (by decide) (bufHeader_and b _), rfl, rfl⟩

theorem skip (b : SlotNo) (delta : Word) : Statement (.skip b delta) :=
  ⟨_, rowOf_of_and .skip _ 0x07#32 _ 1 (by decide) (bufHeader_and b _), rfl, rfl⟩

theorem peek (b : SlotNo) (pp : Policy) (w : WidthField) : Statement (.peek b pp w) :=
  ⟨_, rowOf_of_and .peek _ 0x10#32 _ 0 (by decide) (fieldHeader_and w b _ pp), rfl, rfl⟩

theorem read (b : SlotNo) (pp : Policy) (w : WidthField) : Statement (.read b pp w) :=
  ⟨_, rowOf_of_and .read _ 0x11#32 _ 0 (by decide) (fieldHeader_and w b _ pp), rfl, rfl⟩

theorem write (b : SlotNo) (pp : Policy) (w : WidthField) (value : Word) : Statement (.write b pp w value) :=
  ⟨_, rowOf_of_and .write _ 0x12#32 _ 1 (by decide) (fieldHeader_and w b _ pp), rfl, rfl⟩

theorem rdun (b : SlotNo) (pp : Policy) (flavor : Flavor) (stop : StopField) : Statement (.rdun b pp flavor stop) :=
  ⟨_, rowOf_of_and .rdun _ 0x20#32 _ 0 (by decide) (unaryHeader_and stop b _ pp flavor), rfl, rfl⟩

theorem wrun (b : SlotNo) (pp : Policy) (flavor : Flavor) (stop : StopField) (value : Word) :
    Statement (.wrun b pp flavor stop value) :=
  ⟨_, rowOf_of_and .wrun _ 0x21#32 _ 1 (by decide) (unaryHeader_and stop b _ pp flavor), rfl, rfl⟩

theorem rdeg (b : SlotNo) (pp : Policy) (sgn : Signedness) (stop : StopField) : Statement (.rdeg b pp sgn stop) :=
  ⟨_, rowOf_of_and .rdeg _ 0x22#32 _ 0 (by decide) (golombHeader_and stop b _ pp sgn), rfl, rfl⟩

theorem wreg (b : SlotNo) (pp : Policy) (sgn : Signedness) (stop : StopField) (value : Word) :
    Statement (.wreg b pp sgn stop value) :=
  ⟨_, rowOf_of_and .wreg _ 0x23#32 _ 1 (by decide) (golombHeader_and stop b _ pp sgn), rfl, rfl⟩

theorem crcgen (w : WidthField) (be : DataOrder) (poly start : Word) (data : List Byte) :
    Statement (.crcgen w be poly start data) :=
  ⟨_, rowOf_of_and .crcgen _ 0x30#32 _ 3 (by decide) (crcHeader_and w _ be), rfl, rfl⟩

theorem crcvfy (w : WidthField) (be : DataOrder) (poly start embedded : Word) (data : List Byte) :
    Statement (.crcvfy w be poly start embedded data) :=
  ⟨_, rowOf_of_and .crcvfy _ 0x31#32 _ 4 (by decide) (crcHeader_and w _ be), rfl, rfl⟩

theorem refill (b : SlotNo) (n : Word) : Statement (.refill b n) :=
  ⟨_, rowOf_of_and .refill _ 0x40#32 _ 1 (by decide) (bufHeader_and b _), rfl, rfl⟩

theorem flush (b : SlotNo) : Statement (.flush b) :=
  ⟨_, rowOf_of_and .flush _ 0x41#32 _ 0 (by decide) (bufHeader_and b _), rfl, rfl⟩

end EncodesUnderItsRow

end Sys2Proof.Laws
end

