-- ==== Sys2Proof/Tests/Slice0.lean ====
section
/-! SUPPORT. Tests: expected results are those of spec/95_test_vectors.md or of the examples in the rules, not the model's
own. Then, for each statement of Certificates/Slice0/Obligations.lean that has hypotheses, a state and operands that meet
them, at a boundary for each clause. -/

namespace Sys2Proof.Tests
open Sys2Proof.Machine

/-! ### Helpers -/

/-- A block of two slots with 4 bytes of store each, about to run `ev`. -/
def block (a b : Slot) (ev : List Event) : State := ⟨⟨2, 4, byteTable bitrev8⟩, [a, b], ev, [], 0, none⟩

/-- A valid slot with the given registers and first bytes. -/
def buf (bc c : Nat) (bytes : List Byte) : Slot :=
  ⟨true, BitVec.ofNat 64 bc, BitVec.ofNat 64 c, (⟨[]⟩ : Memory).writeAll 0 bytes⟩

/-- The state a step ends in, or `s` where it stops. -/
def after (o : Effect) (s : State) : State :=
  match o with
  | .next t => t
  | .fault _ => s
  | .refused _ => s

def isNext (o : Effect) : Bool :=
  match o with
  | .next _ => true
  | .fault _ => false
  | .refused _ => false

theorem next_after (o : Effect) (s : State) (h : isNext o = true) : o = .next (after o s) := by
  cases o with
  | next t => rfl
  | fault _ => cases h
  | refused _ => cases h

/-- What a command answers, and its first slot afterwards: valid, `BIT_COUNT`, `CURSOR`, bytes in use. -/
def ran (i : Instr) (s : State) : Option Response × Option (Bool × Nat × Nat × List Byte) :=
  let t := after (exec i s) s
  (t.response, t.slots[0]?.map fun x => (x.valid, x.bitCount.toNat, x.cursor.toNat, x.bytes.firstBytes x.len))

/-- Status code, `R0` and `R1` of a response without emitted bytes. -/
def said (st : Status) (r0 r1 : Word) : Option Response := some ⟨st, r0, r1, []⟩

abbrev bm : Policy := ⟨.msbyte, .msbit⟩
abbrev bl : Policy := ⟨.msbyte, .lsbit⟩
abbrev lm : Policy := ⟨.lsbyte, .msbit⟩
abbrev ll : Policy := ⟨.lsbyte, .lsbit⟩

/-! ### WellFormed refuses ill-formed terms: a payload longer than `A2` can say -/

theorem long_payload (n : Nat) (hn : 2 ^ 64 ≤ n) : payloadFits (List.replicate n 0) = false := by
  simp only [payloadFits, List.length_replicate, decide_eq_false_iff_not]
  omega

theorem refuses_long_crcgen (n : Nat) (hn : 2 ^ 64 ≤ n) :
    Instr.wf (.crcgen 8 .little 0 0 (List.replicate n 0)) = false := long_payload n hn

theorem refuses_long_crcvfy (n : Nat) (hn : 2 ^ 64 ≤ n) :
    Instr.wf (.crcvfy 8 .little 0 0 0 (List.replicate n 0)) = false := long_payload n hn

theorem test_wf_refuses_crcgen : Instr.wf (.crcgen 8 .little 0 0 (List.replicate (2 ^ 64) 0)) = false :=
  refuses_long_crcgen _ (Nat.le_refl _)

theorem test_wf_refuses_crcvfy : Instr.wf (.crcvfy 8 .little 0 0 0 (List.replicate (2 ^ 64) 0)) = false :=
  refuses_long_crcvfy _ (Nat.le_refl _)

theorem test_wf_accepts : Instr.wf (.crcgen 8 .little 0 0 [1, 2]) = true := by decide

/-! ### Decoding: a word for every row, written out from 30_encoding.md R52 and R56

Bits: reserved 5, BE, TRUNC, SGN, FLAVOR, WIDTH 7, STOP 2, BIO, BYO, BUF 4, OPC 8. -/

theorem test_decode_create :
    decode ⟨0b00000_0_0_0_0_0000000_00_0_0_0000_00000001, [4], []⟩ = .ok (.create 0 4) := by decide
theorem test_decode_destroy :
    decode ⟨0b00000_0_0_0_0_0000000_00_0_0_0001_00000010, [], []⟩ = .ok (.destroy 1) := by decide
theorem test_decode_bitlen :
    decode ⟨0b00000_0_0_0_0_0000000_00_0_0_1111_00000011, [], []⟩ = .ok (.bitlen 15) := by decide
theorem test_decode_pos :
    decode ⟨0b00000_0_0_0_0_0000000_00_0_0_1000_00000100, [], []⟩ = .ok (.pos 8) := by decide
theorem test_decode_isalign :
    decode ⟨0b00000_0_0_0_0_0000000_00_0_0_0010_00000101, [8], []⟩ = .ok (.isalign 2 8) := by decide
theorem test_decode_align :
    decode ⟨0b00000_0_0_0_0_0000000_00_0_0_0100_00000110, [2], []⟩ = .ok (.align 4 2) := by decide
theorem test_decode_skip :
    decode ⟨0b00000_0_0_0_0_0000000_00_0_0_0000_00000111, [0xFFFFFFFFFFFFFFF4], []⟩ = .ok (.skip 0 (-12)) := by decide
theorem test_decode_peek :
    decode ⟨0b00000_0_0_0_0_1000000_00_1_0_0001_00010000, [], []⟩ = .ok (.peek 1 bl 64) := by decide
theorem test_decode_read :
    decode ⟨0b00000_0_0_0_0_0001100_00_0_1_0000_00010001, [], []⟩ = .ok (.read 0 lm 12) := by decide
theorem test_decode_write :
    decode ⟨0b00000_0_0_0_0_1000000_00_1_1_0001_00010010, [7], []⟩ = .ok (.write 1 ll 64 7) := by decide
theorem test_decode_rdun :
    decode ⟨0b00000_0_0_0_1_0000000_01_0_0_0000_00100000, [], []⟩ = .ok (.rdun 0 bm .count 1) := by decide
theorem test_decode_wrun :
    decode ⟨0b00000_0_0_0_0_0000000_10_0_1_0011_00100001, [5], []⟩ = .ok (.wrun 3 lm .whole 2 5) := by decide
theorem test_decode_rdeg :
    decode ⟨0b00000_0_0_1_0_0000000_01_1_0_0000_00100010, [], []⟩ = .ok (.rdeg 0 bl .signed 1) := by decide
theorem test_decode_wreg :
    decode ⟨0b00000_0_0_0_0_0000000_11_0_0_0000_00100011, [9], []⟩ = .ok (.wreg 0 bm .unsigned 3 9) := by decide
theorem test_decode_crcgen :
    decode ⟨0b00000_0_0_0_0_0010000_00_0_0_0000_00110000, [0x8005, 0, 3], [0x12, 0x34, 0x56]⟩ =
      .ok (.crcgen 16 .little 0x8005 0 [0x12, 0x34, 0x56]) := by decide
theorem test_decode_crcvfy :
    decode ⟨0b00000_1_0_0_0_0100000_00_0_0_0000_00110001, [1, 2, 1, 4], [5]⟩ =
      .ok (.crcvfy 32 .big 1 2 4 [5]) := by decide
theorem test_decode_refill :
    decode ⟨0b00000_0_0_0_0_0000000_00_0_0_0000_01000000, [2], []⟩ = .ok (.refill 0 2) := by decide
theorem test_decode_flush :
    decode ⟨0b00000_0_0_0_0_0000000_00_0_0_0001_01000001, [], []⟩ = .ok (.flush 1) := by decide

/-- Refused headers: opcodes 0x00, 0x08, 0xFF, a nonzero `TRUNC`, a reserved bit, an unused field. -/
theorem test_decode_refuses :
    [0x00000000#32, 0x00000008#32, 0x000000FF#32, 0x02000022#32, 0x80000001#32, 0x00010001#32, 0x00804010#32].map
      (fun h => decode ⟨h, [], []⟩) = List.replicate 7 (.error .encoding) := by decide +kernel

/-- Malformed packets: a missing word, a word too many, a payload where none belongs, a length that is not `A2`. -/
theorem test_decode_malformed :
    ∀ p ∈ ([⟨1, [], []⟩, ⟨3, [0], []⟩, ⟨3, [], [0]⟩, ⟨0x00100030, [0, 0, 3], [1, 2]⟩] : List Packet),
      decode p = .error .packet := by decide

/-- The host's numbering (log entry 9): `SKIP b0, -1` with its operand word in bits 95 to 32. -/
theorem test_decodeTableWord :
    decodeTableWord 96 0xFFFFFFFFFFFFFFFF00000007 = some (.skip 0 (-1)) := by decide +kernel

theorem test_withFetchWord :
    (after (step (State.reset.withFetchWord 96 0x0000000000000004_00000001)) State.reset).response = said .ok 0 0 := by
  decide +kernel

/-! ### One step of each command, from 95_test_vectors.md sections 1 and 2 and the examples of the rules -/

theorem test_create : ran (.create 0 4) (block Slot.empty Slot.empty []) =
    (said .ok 0 0, some (true, 32, 0, [0, 0, 0, 0])) := by decide +kernel
theorem test_create_alloc : (ran (.create 0 5) (block Slot.empty Slot.empty [])).1 = said .alloc 0 0 := by decide +kernel
theorem test_destroy : ran (.destroy 0) (block (buf 32 12 [0xAB, 0xC0]) Slot.empty []) =
    (said .ok 0 0, some (false, 0, 0, [])) := by decide +kernel
theorem test_bitlen : (ran (.bitlen 0) (block (buf 32 12 []) Slot.empty [])).1 = said .ok 32 0 := by decide +kernel
theorem test_pos : (ran (.pos 0) (block (buf 32 12 []) Slot.empty [])).1 = said .ok 12 0 := by decide +kernel
theorem test_isalign_two : (ran (.isalign 0 2) (block (buf 32 16 []) Slot.empty [])).1 = said .ok 1 0 := by
  decide +kernel
theorem test_isalign_four : (ran (.isalign 0 4) (block (buf 32 16 []) Slot.empty [])).1 = said .ok 0 0 := by
  decide +kernel
theorem test_align : ran (.align 0 2) (block (buf 16 12 [0xAB, 0xC0]) Slot.empty []) =
    (said .ok 0 0, some (true, 16, 16, [0xAB, 0xC0])) := by decide +kernel
theorem test_align_grows : ran (.align 0 4) (block (buf 20 17 [1, 2, 0xFF, 0xFF]) Slot.empty []) =
    (said .ok 0 0, some (true, 32, 32, [1, 2, 0xFF, 0])) := by decide +kernel
theorem test_skip_back : ran (.skip 0 (-12)) (block (buf 32 12 [0xAB, 0xC0]) Slot.empty []) =
    (said .ok 0 0, some (true, 32, 0, [0xAB, 0xC0, 0, 0])) := by decide +kernel
theorem test_skip_below : (ran (.skip 0 (-1)) (block (buf 32 0 []) Slot.empty [])).1 = said .skipBelowStart 0 0 := by
  decide +kernel
theorem test_peek : ran (.peek 0 bm 12) (block (buf 32 0 [0xAB, 0xC0, 0, 0]) Slot.empty []) =
    (said .ok 0xABC 0, some (true, 32, 0, [0xAB, 0xC0, 0, 0])) := by decide +kernel
theorem test_read : ran (.read 0 bm 12) (block (buf 32 0 [0xAB, 0xC0, 0, 0]) Slot.empty []) =
    (said .ok 0xABC 0, some (true, 32, 12, [0xAB, 0xC0, 0, 0])) := by decide +kernel
theorem test_read_wide : (ran (.read 0 bm 65) (block (buf 32 0 []) Slot.empty [])).1 = said .widthRange 0 0 := by
  decide +kernel

/-- 41_bitcodec.md R96: the same write under the four policy pairs. -/
theorem test_write : [bm, bl, lm, ll].map (fun pp => (ran (.write 0 pp 12 0xABC) (block (buf 16 0 []) Slot.empty [])).2) =
    [[0xAB, 0xC0], [0xAB, 0x0C], [0xBC, 0xA0], [0xBC, 0x0A]].map (fun m => some (true, 16, 12, m)) := by
  decide +kernel
theorem test_write_grows : ran (.write 0 bm 4 0x1F5) (block (buf 0 0 []) Slot.empty []) =
    (said .ok 0 0, some (true, 4, 4, [0x50])) := by decide +kernel
theorem test_wrun : ran (.wrun 0 bm .count 1 5) (block (buf 0 0 []) Slot.empty []) =
    (said .ok 0 0, some (true, 5, 5, [0x08])) := by decide +kernel
theorem test_wrun_lsbit : (ran (.wrun 0 ll .count 1 5) (block (buf 0 0 []) Slot.empty [])).2 =
    some (true, 5, 5, [0x10]) := by decide +kernel
theorem test_rdun_count : ran (.rdun 0 bm .count 1) (block (buf 5 0 [0x08]) Slot.empty []) =
    (said .ok 5 0, some (true, 5, 5, [0x08])) := by decide +kernel
theorem test_rdun_whole : (ran (.rdun 0 bm .whole 1) (block (buf 5 0 [0x08]) Slot.empty [])).1 = said .ok 4 0 := by
  decide +kernel
theorem test_rdeg : ran (.rdeg 0 bm .unsigned 1) (block (buf 8 0 [0x30]) Slot.empty []) =
    (said .ok 5 0, some (true, 8, 5, [0x30])) := by decide +kernel
theorem test_rdeg_signed : (ran (.rdeg 0 bm .signed 1) (block (buf 8 0 [0x30]) Slot.empty [])).1 =
    said .ok 0xFFFFFFFFFFFFFFFD 0 := by decide +kernel
theorem test_wreg : ran (.wreg 0 bm .unsigned 1 5) (block (buf 0 0 []) Slot.empty []) =
    (said .ok 0 0, some (true, 5, 5, [0x30])) := by decide +kernel
theorem test_wreg_signed : (ran (.wreg 0 bm .signed 1 (-3)) (block (buf 0 0 []) Slot.empty [])).2 =
    some (true, 5, 5, [0x30]) := by decide +kernel
theorem test_crcgen : (ran (.crcgen 16 .little 0xA001 0 [0x12, 0x34, 0x56]) State.reset).1 = said .ok 0xFB36 0 := by
  decide +kernel

/-- CRC-32 (ISO-HDLC) of "123456789" before its final XOR: 0xCBF43926 XOR 0xFFFFFFFF (95_test_vectors.md section 2.4). -/
theorem test_crcgen_32 : (ran (.crcgen 32 .little 0xEDB88320 0xFFFFFFFF
    [0x31, 0x32, 0x33, 0x34, 0x35, 0x36, 0x37, 0x38, 0x39]) State.reset).1 = said .ok (0xCBF43926 ^^^ 0xFFFFFFFF) 0 := by
  decide +kernel
theorem test_crcvfy : (ran (.crcvfy 16 .little 0xA001 0 0xFB36 [0x12, 0x34, 0x56]) State.reset).1 = said .ok 1 0 := by
  decide +kernel
theorem test_crcvfy_wide : (ran (.crcvfy 16 .little 0xA001 0 0x1FB36 [0x12, 0x34, 0x56]) State.reset).1 =
    said .ok 0 0 := by decide +kernel
theorem test_refill : ran (.refill 0 2)
    { block (buf 32 21 [0x11, 0x22, 0x33, 0x44]) Slot.empty [] with streamIn := [0xAA, 0xBB] } =
    (said .ok 2 2, some (true, 32, 5, [0x33, 0x44, 0xAA, 0xBB])) := by decide +kernel
theorem test_refill_short : ran (.refill 0 2)
    { block (buf 32 21 [0x11, 0x22, 0x33, 0x44]) Slot.empty [] with streamIn := [0xAA] } =
    (said .short 2 1, some (true, 24, 5, [0x33, 0x44, 0xAA])) := by decide +kernel
theorem test_flush : ran (.flush 0) { block (buf 20 20 [0xAB, 0xCD, 0xE0]) Slot.empty [] with streamAccept := 9 } =
    (some ⟨.ok, 2, 2, [0xAB, 0xCD]⟩, some (true, 4, 4, [0xE0])) := by decide +kernel
theorem test_flush_short : ran (.flush 0) { block (buf 20 20 [0xAB, 0xCD, 0xE0]) Slot.empty [] with streamAccept := 1 } =
    (some ⟨.short, 2, 1, [0xAB]⟩, some (true, 12, 12, [0xCD, 0xE0])) := by decide +kernel

/-! ### Witnesses: the hypotheses of the statements can be met

`full` fills its store exactly, `half` ends in a half-used byte, `vac` is a slot without a buffer. -/

def full : Slot := buf 32 12 [0xAB, 0xC0, 0x12, 0x34]
def half : Slot := buf 12 4 [0xAB, 0xC0]
def vac : Slot := Slot.empty

/-- A state with `a` in slot 0 and no buffer in slot 1. -/
def one (a : Slot) : State := block a vac []

theorem one_full_wf : (one full).wf ∧ (one full).Holds 0 full := by decide +kernel
theorem one_half_wf : (one half).wf ∧ (one half).Holds 0 half := by decide +kernel
theorem one_vac_wf : (one vac).wf ∧ (one vac).Vacant 0 vac := by decide +kernel

/-- Slot 1 holds no buffer, and there is no slot 2 or 15. -/
theorem one_absent (a : Slot) : (one a).Absent 1 ∧ (one a).Absent 2 ∧ (one a).Absent 15 :=
  ⟨.inr ⟨vac, rfl, rfl⟩, .inl (by simp [one, block]), .inl (by simp [one, block])⟩

theorem witness_DecodeOfEncode : (Instr.crcvfy 127 .big 1 2 3 [4]).wf = true := by decide

theorem witness_EncodeOfDecode : decode ⟨0x000C0012, [0xABC], []⟩ = .ok (.write 0 bm 12 0xABC) := by decide

theorem witness_DecodingIsTotal :
    (block full vac [.command ⟨0xFF, [], []⟩ ⟨[], 0⟩]).pending = .command ⟨0xFF, [], []⟩ ⟨[], 0⟩ :: [] ∧
    (∀ r ∈ opcodeMap, (0xFF : Header) &&& r.mask ≠ r.pattern) ∧
    (∃ r ∈ opcodeMap, (0x41 : Header) &&& r.mask = r.pattern ∧ ¬ RowFits r ⟨0x41, [0], []⟩ ∧
      RowFits r ⟨0x41, [], []⟩) ∧
    (∃ r ∈ opcodeMap, (0x00100030 : Header) &&& r.mask = r.pattern ∧ ¬ RowFits r ⟨0x00100030, [1, 2, 1], []⟩ ∧
      RowFits r ⟨0x00100030, [1, 2, 0], []⟩) := by
  exact ⟨rfl, by decide +kernel⟩

theorem witness_IllegalHeaders :
    (∀ opc ∈ [0x00, 0x08, 0x0F, 0x13, 0x1F, 0x24, 0x2F, 0x32, 0x3F, 0x42, 0xFF],
      opc = 0x00 ∨ (0x08 ≤ opc ∧ opc ≤ 0x0F) ∨ (0x13 ≤ opc ∧ opc ≤ 0x1F) ∨ (0x24 ≤ opc ∧ opc ≤ 0x2F) ∨
        (0x32 ≤ opc ∧ opc ≤ 0x3F) ∨ 0x42 ≤ opc) ∧
    (0x02000022#32).getLsbD 25 = true ∧ (0x08000001#32).getLsbD 27 = true ∧ (0x80000001#32).getLsbD 31 = true := by
  decide

theorem witness_StepRunsDecoded :
    (block full vac [.command ⟨0x00000003, [], []⟩ ⟨[], 0⟩]).pending = [.command ⟨0x00000003, [], []⟩ ⟨[], 0⟩] ∧
    decode ⟨0x00000003, [], []⟩ = .ok (.bitlen 0) ∧ decodeTableWord 32 3 = some (.bitlen 0) := by
  refine ⟨rfl, by decide, by decide +kernel⟩

theorem witness_ResetTransition :
    (block full half [.resetRequest]).pending = .resetRequest :: [] ∧
    (block vac vac [.resetRequest]).cfg = (block full half [.resetRequest]).cfg ∧
    (block vac vac [.resetRequest]).pending = (block full half [.resetRequest]).pending := ⟨rfl, rfl, rfl⟩

/-- A CRC command and a command on a slot, each right after a reset. -/
theorem witness_AfterReset :
    (block full half [.resetRequest, .command ⟨0x00080030, [1, 0, 0], []⟩ ⟨[], 0⟩]).pending =
      [.resetRequest, .command ⟨0x00080030, [1, 0, 0], []⟩ ⟨[], 0⟩] ∧
    decode ⟨0x00080030, [1, 0, 0], []⟩ = .ok (.crcgen 8 .little 1 0 []) ∧
    slotOf (.crcgen 8 .little 1 0 []) = none ∧ decode ⟨0x00000003, [], []⟩ = .ok (.bitlen 0) ∧
    slotOf (.bitlen 0) = some 0 ∧ ∀ cap, Instr.bitlen 0 ≠ .create 0 cap := by
  refine ⟨rfl, by decide, rfl, by decide, rfl, by simp⟩

theorem witness_IdleStep : State.reset.pending = [] := rfl

theorem witness_NothingElseSurvives :
    step (one full) = .next (after (step (one full)) (one full)) ∧
    { one full with response := said .ok 7 0, streamIn := [1], streamAccept := 2 }.slots = (one full).slots ∧
    { one full with response := said .ok 7 0, streamIn := [1], streamAccept := 2 }.cfg = (one full).cfg ∧
    { one full with response := said .ok 7 0, streamIn := [1], streamAccept := 2 }.pending = (one full).pending :=
  ⟨next_after _ _ (by decide +kernel), rfl, rfl, rfl⟩

/-- A state about to write 12 bits at the end of a half-used byte. -/
def writing : State := block half full [.command ⟨0x000C0012, [0xABC], []⟩ ⟨[], 0⟩]

theorem witness_StepKeepsRegisterInvariants :
    writing.inBounds ∧ step writing = .next (after (step writing) writing) :=
  ⟨by decide +kernel, next_after _ _ (by decide +kernel)⟩

theorem witness_StepKeepsGoodStates : writing.wf ∧ step writing = .next (after (step writing) writing) :=
  ⟨by decide +kernel, next_after _ _ (by decide +kernel)⟩

theorem witness_StepNeverStops : writing.wf := by decide +kernel

/-- A `FLUSH` that ends `SHORT`, with emitted bytes. -/
def flushing : State := block (buf 32 20 [1, 2, 3, 4]) vac [.command ⟨0x00000041, [], []⟩ ⟨[], 1⟩]

theorem witness_OneResponse :
    flushing.wf ∧ flushing.pending = .command ⟨0x00000041, [], []⟩ ⟨[], 1⟩ :: [] ∧
    (after (step flushing) flushing).response = some ⟨.short, 2, 1, [1]⟩ := by
  refine ⟨by decide +kernel, rfl, by decide +kernel⟩

/-- A `READ` of 64 bits where fewer are left. -/
def failing : State := block full vac [.command ⟨0x00400011, [], []⟩ ⟨[], 0⟩]

theorem witness_ErrorsChangeNothing :
    failing.pending = .command ⟨0x00400011, [], []⟩ ⟨[], 0⟩ :: [] ∧
    step failing = .next (after (step failing) failing) ∧
    (after (step failing) failing).response = some ⟨.capacity, 0, 0, []⟩ ∧ Status.capacity ≠ .ok ∧
    Status.capacity ≠ .short :=
  ⟨rfl, next_after _ _ (by decide +kernel), by decide +kernel, by decide, by decide⟩

theorem witness_StatusesByCommand :
    runPacket ⟨0x00000003, [], []⟩ (one full) = .next ((one full).respond ⟨.ok, 32, 0, []⟩) ∧
    decode ⟨0x00000003, [], []⟩ = .ok (.bitlen 0) ∧
    runPacket ⟨0x000000FF, [], []⟩ (one full) = .next ((one full).respond ⟨.illegalEncoding, 0, 0, []⟩) ∧
    decode ⟨0x000000FF, [], []⟩ = .error .encoding :=
  ⟨rfl, by decide, rfl, by decide⟩

theorem witness_OtherSlotsUntouched :
    exec (.write 0 bm 12 0xABC) writing = .next (after (exec (.write 0 bm 12 0xABC) writing) writing) ∧
    (∀ b, slotOf (.write 0 bm 12 0xABC) = some b → b.toNat ≠ 1) :=
  ⟨next_after _ _ (by decide +kernel), by simp [slotOf]⟩

theorem witness_CommandUsesOwnSlotOnly :
    (block half full []).cfg = (one half).cfg ∧ (block half full []).slots.length = (one half).slots.length ∧
    (block half full []).streamIn = (one half).streamIn ∧ (block half full []).streamAccept = (one half).streamAccept ∧
    (∀ b, slotOf (.pos 0) = some b → (block half full []).slot? b = (one half).slot? b) ∧
    exec (.pos 0) (block half full []) = .next ((block half full []).respond ⟨.ok, 4, 0, []⟩) :=
  ⟨rfl, rfl, rfl, rfl, by rintro b ⟨rfl⟩; rfl, rfl⟩

/-- The state after a command on slot 0. -/
def ends (i : Instr) (s : State) : State := after (exec i s) s

theorem ends_next (i : Instr) (s : State) (h : isNext (exec i s) = true) : exec i s = .next (ends i s) :=
  next_after _ _ h

/-- One command for each clause: `CREATE`, `DESTROY` and a `WRITE` that grows the buffer. -/
theorem witness_WhoWritesWhat :
    exec (.create 0 1) (one vac) = .next (ends (.create 0 1) (one vac)) ∧
    exec (.destroy 0) (one half) = .next (ends (.destroy 0) (one half)) ∧
    exec (.write 0 bm 12 0xABC) (one half) = .next (ends (.write 0 bm 12 0xABC) (one half)) ∧
    (one vac).slot? 0 = some vac ∧ (one half).slot? 0 = some half ∧
    (ends (.create 0 1) (one vac)).slot? 0 = some (buf 8 0 []) ∧ vac.valid ≠ (buf 8 0 []).valid ∧
    (ends (.destroy 0) (one half)).slot? 0 = some ⟨false, 0, 0, half.bytes⟩ ∧ half.valid ≠ false ∧
    (ends (.write 0 bm 12 0xABC) (one half)).slot? 0 = some (buf 16 16 [0xAA, 0xBC]) ∧
    half.bitCount ≠ (buf 16 16 [0xAA, 0xBC]).bitCount ∧ half.cursor ≠ (buf 16 16 [0xAA, 0xBC]).cursor ∧
    half.bytes ≠ (buf 16 16 [0xAA, 0xBC]).bytes := by
  refine ⟨ends_next _ _ ?_, ends_next _ _ ?_, ends_next _ _ ?_, ?_⟩ <;> decide +kernel

theorem witness_GrowthIsExact :
    exec (.skip 0 9) (one half) = .next (ends (.skip 0 9) (one half)) ∧ (one half).wf ∧
    (one half).slot? 0 = some half ∧ (ends (.skip 0 9) (one half)).slot? 0 = some (buf 13 13 [0xAB, 0xC0]) ∧
    half.bitCount.toNat < (buf 13 13 [0xAB, 0xC0]).bitCount.toNat := by
  refine ⟨ends_next _ _ ?_, ?_⟩ <;> decide +kernel

/-- Two states that differ in byte 1, the first byte that is not in use. -/
theorem witness_StaleBytesUnobservable :
    (one (buf 8 0 [1, 2])).wf ∧ (one (buf 8 0 [1, 3])).wf ∧ (one (buf 8 0 [1, 2])).Same (one (buf 8 0 [1, 3])) ∧
    one (buf 8 0 [1, 2]) ≠ one (buf 8 0 [1, 3]) ∧
    step (one (buf 8 0 [1, 2])) = .next (after (step (one (buf 8 0 [1, 2]))) (one (buf 8 0 [1, 2]))) := by
  refine ⟨by decide +kernel, by decide +kernel, ⟨rfl, rfl, ?_, rfl, rfl, rfl, rfl⟩, by decide +kernel,
    next_after _ _ (by decide +kernel)⟩
  intro n x y hx hy
  match n with
  | 0 => cases hx; cases hy; exact ⟨rfl, rfl, rfl, by decide +kernel⟩
  | 1 => cases hx; cases hy; exact ⟨rfl, rfl, rfl, by decide +kernel⟩
  | n + 2 => cases hx

theorem witness_AbsentBuffer :
    slotOf (.pos 1) = some 1 ∧ (∀ cap, Instr.pos 1 ≠ .create 1 cap) ∧ (one full).Absent 1 ∧
    slotOf (.create 2 1) = some 2 ∧ (one full).cfg.nbuf ≤ (2 : SlotNo).toNat :=
  ⟨rfl, by simp, (one_absent full).1, rfl, by decide +kernel⟩

/-- `cap` at and just above `CAP_BYTES` = 4. -/
theorem witness_Create :
    (one vac).wf ∧ (one vac).cfg.nbuf ≤ (2 : SlotNo).toNat ∧ (one full).wf ∧ (one full).Holds 0 full ∧
    (one vac).Vacant 0 vac ∧ (one vac).cfg.capBytes < (5 : Word).toNat ∧ (4 : Word).toNat ≤ (one vac).cfg.capBytes := by
  decide +kernel

theorem witness_Destroy : (one full).Absent 1 ∧ (one full).Holds 0 full := ⟨(one_absent full).1, one_full_wf.2⟩

theorem witness_Accessors : (one full).Absent 15 ∧ (one full).Holds 0 full := ⟨(one_absent full).2.2, one_full_wf.2⟩

theorem powers : PowerOfTwo 1 ∧ PowerOfTwo 2 ∧ PowerOfTwo (BitVec.ofNat 64 (2 ^ 63)) ∧ ¬ PowerOfTwo 0 ∧ ¬ PowerOfTwo 3 := by
  refine ⟨⟨0, by decide, by decide⟩, ⟨1, by decide, by decide⟩, ⟨63, by decide, by decide⟩, ?_, ?_⟩
  · rintro ⟨n, _, h⟩
    exact absurd h.symm (Nat.two_pow_pos n).ne'
  · rintro ⟨n, _, h⟩
    have h2 : n < 2 := by
      by_contra hn
      have := Nat.pow_le_pow_right (n := 2) (by decide) (Nat.le_of_not_lt hn)
      have h3 : (3 : Word).toNat = 3 := rfl
      omega
    interval_cases n <;> cases h

theorem witness_Isalign :
    (one full).Absent 1 ∧ ¬ PowerOfTwo 3 ∧ PowerOfTwo 1 ∧ PowerOfTwo 2 ∧ (one full).Holds 0 full ∧
    ¬ 8 * (1 : Word).toNat ∣ full.cursor.toNat ∧ (one (buf 32 16 [])).Holds 0 (buf 32 16 []) ∧
    8 * (2 : Word).toNat ∣ (buf 32 16 []).cursor.toNat :=
  ⟨(one_absent full).1, powers.2.2.2.2, powers.1, powers.2.1, by decide +kernel⟩

/-- With the cursor at 12 of 32 bits, granularity 1 leads to 16, 4 to the store's end, 8 beyond it. -/
theorem witness_Align :
    (one full).Absent 1 ∧ ¬ PowerOfTwo 3 ∧ PowerOfTwo 1 ∧ (one full).wf ∧ (one full).Holds 0 full ∧
    full.alignTarget 1 = 16 ∧ full.alignTarget 4 = 8 * (one full).cfg.capBytes ∧
    8 * (one full).cfg.capBytes < full.alignTarget 8 :=
  ⟨(one_absent full).1, powers.2.2.2.2, powers.1, by decide +kernel⟩

/-- Deltas −13, −12, 20 and 21 from cursor 12: below the start, to it, to the store's end, beyond it. -/
theorem witness_Skip :
    (one full).Absent 1 ∧ (one full).wf ∧ (one full).Holds 0 full ∧
    (full.cursor.toNat : ℤ) + (-13 : Word).toInt < 0 ∧ ((0 : ℕ) : ℤ) = full.cursor.toNat + (-12 : Word).toInt ∧
    ((32 : ℕ) : ℤ) = full.cursor.toNat + (20 : Word).toInt ∧ 32 ≤ 8 * (one full).cfg.capBytes ∧
    ((33 : ℕ) : ℤ) = full.cursor.toNat + (21 : Word).toInt ∧ 8 * (one full).cfg.capBytes < 33 :=
  ⟨(one_absent full).1, by decide +kernel⟩

/-- With 20 bits left: widths 0 and 65, 1 and 20, 21 and 64. -/
theorem witness_Peek :
    (one full).wf ∧ (one full).Absent 1 ∧ (one full).Holds 0 full ∧ (0 : WidthField).toNat < 1 ∧
    64 < (65 : WidthField).toNat ∧ 1 ≤ (1 : WidthField).toNat ∧ (64 : WidthField).toNat ≤ 64 ∧
    full.bitCount.toNat - full.cursor.toNat < (21 : WidthField).toNat ∧
    (20 : WidthField).toNat ≤ full.bitCount.toNat - full.cursor.toNat :=
  ⟨one_full_wf.1, (one_absent full).1, one_full_wf.2, by decide +kernel⟩

theorem witness_Read :
    (one half).wf ∧ (one half).Absent 2 ∧ (one half).Holds 0 half ∧ (0 : WidthField).toNat < 1 ∧
    64 < (127 : WidthField).toNat ∧ 1 ≤ (8 : WidthField).toNat ∧ (64 : WidthField).toNat ≤ 64 ∧
    half.bitCount.toNat - half.cursor.toNat < (9 : WidthField).toNat ∧
    (8 : WidthField).toNat ≤ half.bitCount.toNat - half.cursor.toNat :=
  ⟨one_half_wf.1, (one_absent half).2.1, one_half_wf.2, by decide +kernel⟩

/-- From cursor 4 a field of 28 bits ends at the store's end, one of 29 beyond it. -/
theorem witness_Write :
    (one half).wf ∧ (one half).Absent 1 ∧ (one half).Holds 0 half ∧ (0 : WidthField).toNat < 1 ∧
    64 < (65 : WidthField).toNat ∧ 1 ≤ (28 : WidthField).toNat ∧ (29 : WidthField).toNat ≤ 64 ∧
    8 * (one half).cfg.capBytes < half.cursor.toNat + (29 : WidthField).toNat ∧
    half.cursor.toNat + (28 : WidthField).toNat ≤ 8 * (one half).cfg.capBytes :=
  ⟨one_half_wf.1, (one_absent half).1, one_half_wf.2, by decide +kernel⟩

/-- A buffer of 8 zero bits and one of the bits 0, 0, 1 and five more. -/
theorem witness_Rdun :
    ((one half).Absent 1 ∧ (one half).wf ∧ (one half).Holds 0 half ∧ 1 < (2 : StopField).toNat ∧
      (1 : StopField).toNat ≤ 1) ∧
    ((one (buf 8 0 [0])).wf ∧ (one (buf 8 0 [0])).Holds 0 (buf 8 0 [0]) ∧
      ∀ p, p < (buf 8 0 [0]).bitCount.toNat → (buf 8 0 [0]).bytes.bit .msbit p ≠ stopValue 1) ∧
    (one (buf 3 0 [0x20])).wf ∧ (one (buf 3 0 [0x20])).Holds 0 (buf 3 0 [0x20]) ∧
    0 + 2 < (buf 3 0 [0x20]).bitCount.toNat ∧ (buf 3 0 [0x20]).bytes.bit .msbit (0 + 2) = stopValue 1 ∧
    ∀ j, j < 2 → (buf 3 0 [0x20]).bytes.bit .msbit (0 + j) ≠ stopValue 1 := by
  refine ⟨⟨(one_absent half).1, ?_⟩, ?_, ?_⟩ <;> decide +kernel

/-- From cursor 4, 27 non-stop bits and the stop bit end at the store's end, 28 beyond it. -/
theorem witness_Wrun :
    (one half).wf ∧ (one half).Absent 1 ∧ (one half).Holds 0 half ∧ 1 < (3 : StopField).toNat ∧
    (0 : StopField).toNat ≤ 1 ∧ (1 : StopField).toNat ≤ 1 ∧ (28 : Word).toNat = (if Flavor.count = .count then 27 + 1 else 27) ∧
    (28 : Word).toNat = (if Flavor.whole = .count then 28 + 1 else 28) ∧
    8 * (one half).cfg.capBytes < half.cursor.toNat + 28 + 1 ∧ half.cursor.toNat + 27 + 1 ≤ 8 * (one half).cfg.capBytes :=
  ⟨one_half_wf.1, (one_absent half).1, one_half_wf.2, by decide +kernel⟩

/-- A store of 9 bytes that holds 64 non-stop bits and a stop bit. -/
def long : State := { one (buf 65 0 [0, 0, 0, 0, 0, 0, 0, 0, 0x80]) with cfg := ⟨2, 9, byteTable bitrev8⟩ }

/-- The code `001 10` ends exactly at 5 bits; with 4 bits its payload runs past the end; a block with 9 bytes of store holds
a prefix of 64 non-stop bits. -/
theorem witness_Rdeg :
    ((one (buf 5 0 [0x30])).Absent 1 ∧ (one (buf 5 0 [0x30])).wf ∧ (one (buf 5 0 [0x30])).Holds 0 (buf 5 0 [0x30]) ∧
      1 < (2 : StopField).toNat ∧ (1 : StopField).toNat ≤ 1) ∧
    (0 + 2 < (buf 4 0 [0x30]).bitCount.toNat ∧ (buf 5 0 [0x30]).bytes.bit .msbit (0 + 2) = stopValue 1 ∧
      (∀ j, j < 2 → (buf 5 0 [0x30]).bytes.bit .msbit (0 + j) ≠ stopValue 1) ∧
      0 + 2 * 2 + 1 ≤ (buf 5 0 [0x30]).bitCount.toNat) ∧
    ((one (buf 4 0 [0x30])).wf ∧ (one (buf 4 0 [0x30])).Holds 0 (buf 4 0 [0x30]) ∧
      (buf 4 0 [0x30]).bitCount.toNat < 0 + 2 * 2 + 1) ∧
    (long.wf ∧ long.Holds 0 (buf 65 0 [0, 0, 0, 0, 0, 0, 0, 0, 0x80]) ∧
      (buf 65 0 [0, 0, 0, 0, 0, 0, 0, 0, 0x80]).bytes.bit .msbit (0 + 64) = stopValue 1 ∧
      ∀ j, j < 64 → (buf 65 0 [0, 0, 0, 0, 0, 0, 0, 0, 0x80]).bytes.bit .msbit (0 + j) ≠ stopValue 1) ∧
    ∀ p, p < 8 → (buf 8 0 [0]).bytes.bit .msbit p ≠ stopValue 1 := by
  refine ⟨⟨(one_absent _).1, ?_⟩, ?_, ?_, ?_, ?_⟩ <;> decide +kernel

/-- The two values without a code; from cursor 17, `u + 1 = 2^7` takes the 15 bits to the store's end, `2^8` 17 bits. -/
theorem witness_Wreg :
    (one (buf 17 17 [])).wf ∧ (one (buf 17 17 [])).Absent 1 ∧ (one (buf 17 17 [])).Holds 0 (buf 17 17 []) ∧
    1 < (2 : StopField).toNat ∧ (1 : StopField).toNat ≤ 1 ∧ (0xFFFFFFFFFFFFFFFF : Word).toNat = 2 ^ 64 - 1 ∧
    (0x8000000000000000 : Word).toInt = -2 ^ 63 ∧ (127 : Word).toNat + 1 = 2 ^ 7 + 0 ∧
    (buf 17 17 []).cursor.toNat + 2 * 7 + 1 ≤ 8 * (one (buf 17 17 [])).cfg.capBytes ∧
    8 * (one (buf 17 17 [])).cfg.capBytes < (buf 17 17 []).cursor.toNat + 2 * 8 + 1 :=
  ⟨by decide +kernel, (one_absent _).1, by decide +kernel, by decide +kernel⟩

theorem witness_Crcgen : (0 : WidthField).toNat < 1 ∧ 64 < (65 : WidthField).toNat ∧ 1 ≤ (1 : WidthField).toNat ∧
    (64 : WidthField).toNat ≤ 64 := by decide

theorem witness_Crcvfy : (0 : WidthField).toNat < 1 ∧ 64 < (127 : WidthField).toNat ∧ 1 ≤ (64 : WidthField).toNat ∧
    (16 : WidthField).toNat ≤ 64 ∧ crcGen vectorConfig [0x12, 0x34, 0x56] .little 0xA001 16 0 = 0xFB36 ∧
    crcGen vectorConfig [0x12, 0x34, 0x56] .little 0xA001 16 0 ≠ 0x1FB36 := by decide +kernel

/-- The widths 1 and 64 of the laws of the CRC. -/
theorem witness_CrcDivision : 1 ≤ 1 ∧ 1 ≤ 64 ∧ 64 ≤ 64 := by decide
theorem witness_CrcIsPolynomialRemainder : 1 ≤ 1 ∧ 1 ≤ 64 ∧ 64 ≤ 64 := by decide
theorem witness_CrcChaining : 1 ≤ 1 ∧ 1 ≤ 64 ∧ 64 ≤ 64 := by decide

/-- The identity table is XOR-linear. -/
theorem witness_CrcLinearity :
    1 ≤ 16 ∧ 16 ≤ 64 ∧ ([1, 2] : List Byte).length = ([3, 4] : List Byte).length ∧
    ∀ x y : Byte, (⟨2, 4, byteTable id⟩ : Config).crcBeXform (x ^^^ y) =
      (⟨2, 4, byteTable id⟩ : Config).crcBeXform x ^^^ (⟨2, 4, byteTable id⟩ : Config).crcBeXform y := by
  have h : ∀ x : Byte, (⟨2, 4, byteTable id⟩ : Config).crcBeXform x = x := by decide +kernel
  exact ⟨by decide, by decide, rfl, fun x y => by simp only [h]⟩

theorem witness_CrcSensitivity :
    8 ≤ 8 ∧ 8 ≤ 64 ∧ (0x8C : Word).getLsbD (8 - 1) = true ∧
    Function.Injective (⟨2, 4, byteTable id⟩ : Config).crcBeXform ∧ (1 : Byte) ≠ 2 := by
  have h : ∀ x : Byte, (⟨2, 4, byteTable id⟩ : Config).crcBeXform x = x := by decide +kernel
  exact ⟨by decide, by decide, by decide, fun x y e => by simpa only [h] using e, by decide⟩

/-- `q = 2`, `T = 2`: two more bytes fill the store, three exceed it; and a half-used last byte. -/
theorem witness_Refill :
    (one (buf 32 21 [])).wf ∧ (one (buf 32 21 [])).Absent 1 ∧ (one (buf 32 21 [])).Holds 0 (buf 32 21 []) ∧
    (one half).wf ∧ (one half).Holds 0 half ∧ half.bitCount.toNat % 8 ≠ 0 ∧ (buf 32 21 []).bitCount.toNat % 8 = 0 ∧
    2 = (buf 32 21 []).cursor.toNat / 8 ∧ 2 = (buf 32 21 []).bitCount.toNat / 8 - 2 ∧
    0 = min (one (buf 32 21 [])).streamIn.length (2 : Word).toNat ∧
    2 + (2 : Word).toNat ≤ (one (buf 32 21 [])).cfg.capBytes ∧
    (one (buf 32 21 [])).cfg.capBytes < 2 + (3 : Word).toNat :=
  ⟨by decide +kernel, (one_absent _).1, by decide +kernel, one_half_wf.1, one_half_wf.2, by decide +kernel⟩

theorem witness_Flush :
    (one full).wf ∧ (one full).Absent 1 ∧ (one full).Holds 0 full ∧ 1 = full.cursor.toNat / 8 ∧
    0 = min (one full).streamAccept 1 :=
  ⟨one_full_wf.1, (one_absent _).1, one_full_wf.2, by decide +kernel, by decide +kernel⟩

/-- The state of `full` with its one whole byte used accepted. -/
def accepting : State := { one full with streamAccept := 1 }

/-- A slot without a buffer whose store holds old bytes. -/
def stale : Slot := ⟨false, 0, 0, (buf 0 0 [7, 9]).bytes⟩

theorem witness_StaleBytesStay :
    exec (.create 0 1) (one stale) = .next (ends (.create 0 1) (one stale)) ∧
    exec (.destroy 0) accepting = .next (ends (.destroy 0) accepting) ∧
    exec (.flush 0) accepting = .next (ends (.flush 0) accepting) ∧
    exec (.refill 0 0) accepting = .next (ends (.refill 0 0) accepting) ∧
    (one stale).wf ∧ (one stale).Vacant 0 stale ∧
    (ends (.create 0 1) (one stale)).slot? 0 = some (buf 8 0 [0, 9]) ∧ (buf 8 0 [0, 9]).len ≤ 1 ∧
    accepting.wf ∧ accepting.Holds 0 full ∧
    (ends (.destroy 0) accepting).slot? 0 = some ⟨false, 0, 0, full.bytes⟩ ∧
    (ends (.flush 0) accepting).slot? 0 = some (buf 24 4 [0xC0, 0x12, 0x34, 0x34]) ∧
    (ends (.refill 0 0) accepting).slot? 0 = some (buf 24 4 [0xC0, 0x12, 0x34, 0x34]) ∧ (buf 24 4 []).len ≤ 3 := by
  refine ⟨ends_next _ _ ?_, ends_next _ _ ?_, ends_next _ _ ?_, ends_next _ _ ?_, ?_⟩ <;> decide +kernel

theorem witness_PeekAcrossTransfer :
    exec (.peek 0 bm 20) accepting = .next (ends (.peek 0 bm 20) accepting) ∧
    exec (.refill 0 1) accepting = .next (ends (.refill 0 1) accepting) ∧
    exec (.flush 0) accepting = .next (ends (.flush 0) accepting) ∧ accepting.wf ∧
    ends (.peek 0 bm 20) accepting = accepting.respond ⟨.ok, 0x01234, 0, []⟩ := by
  refine ⟨ends_next _ _ ?_, ends_next _ _ ?_, ends_next _ _ ?_, ?_⟩ <;> decide +kernel

theorem witness_FlushKeepsEveryByte :
    exec (.flush 0) accepting = .next (ends (.flush 0) accepting) ∧ accepting.wf ∧ accepting.Holds 0 full := by
  refine ⟨ends_next _ _ ?_, ?_⟩ <;> decide +kernel

theorem witness_ExtractClosedForm : 0 < 64 ∧ 63 < 64 := by decide

theorem witness_InsertClosedForm : full.bytes.wf ∧ 0 < 12 ∧ 11 < 12 ∧ 4 < 5 ∧ 5 + 12 ≤ 17 := by decide +kernel

theorem witness_OneBit : full.bytes.wf ∧ bm.bio = lm.bio := by decide +kernel

theorem witness_FieldRoundTrip :
    (one half).wf ∧ (one half).Holds 0 half ∧ 1 ≤ (28 : WidthField).toNat ∧ (28 : WidthField).toNat ≤ 64 ∧
    (0xFFFFFFF : Word).toNat < 2 ^ (28 : WidthField).toNat ∧
    half.cursor.toNat + (28 : WidthField).toNat ≤ 8 * (one half).cfg.capBytes := by decide +kernel

theorem witness_ReadIsPeekThenSkip :
    accepting.wf ∧ exec (.peek 0 bm 20) accepting = .next (ends (.peek 0 bm 20) accepting) ∧
    (ends (.peek 0 bm 20) accepting).response = some ⟨.ok, 0x01234, 0, []⟩ :=
  ⟨by decide +kernel, next_after _ _ (by decide +kernel), by decide +kernel⟩

theorem witness_SplitReads :
    (one full).wf ∧ (one full).Holds 0 full ∧ 1 ≤ (1 : WidthField).toNat ∧ 1 ≤ (19 : WidthField).toNat ∧
    (20 : WidthField).toNat = (1 : WidthField).toNat + (19 : WidthField).toNat ∧ (20 : WidthField).toNat ≤ 64 ∧
    full.cursor.toNat + (20 : WidthField).toNat ≤ full.bitCount.toNat := by decide +kernel

theorem witness_ReadAfterWriteAtEnd :
    (one half).wf ∧ (one half).Holds 0 half ∧ 1 ≤ (8 : WidthField).toNat ∧ (28 : WidthField).toNat ≤ 64 ∧
    half.bitCount.toNat ≤ half.cursor.toNat + (8 : WidthField).toNat ∧
    half.cursor.toNat + (28 : WidthField).toNat ≤ 8 * (one half).cfg.capBytes := by decide +kernel

theorem witness_UnaryRoundTrip :
    (one half).wf ∧ (one half).Holds 0 half ∧ (1 : StopField).toNat ≤ 1 ∧
    (28 : Word).toNat = (if Flavor.count = .count then 27 + 1 else 27) ∧ 27 + 1 ≤ 2 ^ 63 ∧
    half.cursor.toNat + 27 + 1 ≤ 8 * (one half).cfg.capBytes := by decide +kernel

theorem witness_GolombRoundTrip :
    (one half).wf ∧ (one half).Holds 0 half ∧ (0 : StopField).toNat ≤ 1 ∧ golombNumber .unsigned 16382 = some 16382 ∧
    golombNumber .signed (-3) = some 5 ∧ half.cursor.toNat + golombLength 16382 ≤ 8 * (one half).cfg.capBytes := by
  decide +kernel

theorem witness_Zigzag : (-2 : ℤ) ^ 63 < 0 ∧ (0 : ℤ) < 2 ^ 63 ∧ 0 ≤ 2 ^ 64 - 2 ∧ (2 ^ 64 - 3) % 2 = 1 := by decide

end Sys2Proof.Tests
end

section
/-! SUPPORT. Bytes that a read does not look at do not matter to it, and a store operation copies what its argument
holds: two stores that agree below a bound are read alike below it, and are written alike (10_state.md R20). -/

namespace Sys2Proof.Machine

/-! ### Reads -/

/-- The two stores hold the same bytes below index `n`. -/
def Memory.AgreeBelow (n : Nat) (m m' : Memory) : Prop := ∀ i, i < n → m.read i = m'.read i

/-- The bytes that hold fewer bits are no more. -/
theorem bytesFor_mono {a b : Nat} (h : a ≤ b) : bytesFor a ≤ bytesFor b := by
  simp only [bytesFor]; omega

@[simp] theorem bytesFor_mul_eight (n : Nat) : bytesFor (8 * n) = n := by
  simp only [bytesFor]; omega

/-- A field is read from the bytes below its end only (41_bitcodec.md R90). -/
theorem Memory.extract_congr (m m' : Memory) (c w : Nat) (pp : Policy)
    (h : m.AgreeBelow (bytesFor (c + w)) m') : m.extract c w pp = m'.extract c w pp :=
  List.foldl_ext _ _ _ fun v k hk => by
    have hbyte := h k.index (cut_index c w k hk).2
    simp only [Chunk.load, hbyte]

/-- The scan looks at no bit beyond its last round (42_varlen.md R112). -/
theorem Memory.scan_congr (m m' : Memory) (c stop : Nat) (bio : BitOrder) (fuel k : Nat)
    (h : m.AgreeBelow (bytesFor (c + k + fuel)) m') : m.scan c stop bio fuel k = m'.scan c stop bio fuel k := by
  induction fuel generalizing k with
  | zero => rfl
  | succ fuel ih =>
    have hbit : m.bitAt (c + k) bio = m'.bitAt (c + k) bio :=
      m.extract_congr m' _ _ _ fun i hi => h i (Nat.lt_of_lt_of_le hi (bytesFor_mono (by omega)))
    have hrest := ih (k + 1) fun i hi => h i (Nat.lt_of_lt_of_le hi (bytesFor_mono (by omega)))
    simp only [Memory.scan, hbit, hrest]

theorem Memory.golombPayload_congr (m m' : Memory) (c k : Nat) (pp : Policy)
    (h : m.AgreeBelow (bytesFor (c + 2 * k + 1)) m') : m.golombPayload c k pp = m'.golombPayload c k pp := by
  have hfield : m.extract (c + k + 1) k pp = m'.extract (c + k + 1) k pp :=
    m.extract_congr m' _ _ _ fun i hi => h i (Nat.lt_of_lt_of_le hi (bytesFor_mono (by omega)))
  simp only [Memory.golombPayload, hfield]

theorem Memory.firstBytes_congr (m m' : Memory) (k : Nat) (h : m.AgreeBelow k m') :
    m.firstBytes k = m'.firstBytes k :=
  List.map_congr_left fun i hi => h i (List.mem_range.mp hi)

/-! ### Stores -/

/-- A store operation that touches only bytes below index `n`: it keeps the canonical form and every bound from `n` on,
and writes stores that agree in stores that agree. -/
structure WritesBelow (n : Nat) (f : Memory → Memory) : Prop where
  wf : ∀ m : Memory, m.wf → (f m).wf
  bound : ∀ (m : Memory) (N : Nat), n ≤ N → (∀ x ∈ m.cells, x.1 < N) → ∀ x ∈ (f m).cells, x.1 < N
  congr : ∀ (m m' : Memory) (N : Nat), n ≤ N → m.wf → m'.wf → m.AgreeBelow N m' → (f m).AgreeBelow N (f m')

theorem WritesBelow.id (n : Nat) : WritesBelow n id where
  wf _ h := h
  bound _ _ _ h := h
  congr _ _ _ _ _ _ h := h

/-- A chunk is stored in one byte, computed from the byte that stands there (41_bitcodec.md R91). -/
theorem Chunk.store_congr (k : Chunk) (bio : BitOrder) (x N : Nat) (hk : k.index < N) (m m' : Memory) (h : m.wf)
    (h' : m'.wf) (ha : m.AgreeBelow N m') : (k.store bio x m).AgreeBelow N (k.store bio x m') := by
  intro i hi
  simp only [Chunk.store, m.read_write h, m'.read_write h', ha k.index hk, ha i hi]

theorem storeAll_congr (ks : List Chunk) (bio : BitOrder) (f : Chunk → Nat) (N : Nat) (hk : ∀ k ∈ ks, k.index < N)
    (m m' : Memory) (h : m.wf) (h' : m'.wf) (ha : m.AgreeBelow N m') :
    (ks.foldl (fun m k => k.store bio (f k) m) m).AgreeBelow N
      (ks.foldl (fun m k => k.store bio (f k) m) m') := by
  induction ks generalizing m m' with
  | nil => exact ha
  | cons k ks ih =>
    obtain ⟨hk0, hks⟩ := List.forall_mem_cons.mp hk
    exact ih hks _ _ (k.store_wf bio _ m h) (k.store_wf bio _ m' h')
      (k.store_congr bio _ N hk0 m m' h h' ha)

theorem writesBelow_insert (n c w val : Nat) (pp : Policy) (hn : bytesFor (c + w) ≤ n) :
    WritesBelow n (fun m => m.insert c w val pp) where
  wf m h := m.insert_wf h c w val pp
  bound m N hN h := m.insert_bound N c w val pp h (hn.trans hN)
  congr m m' N hN h h' ha :=
    storeAll_congr _ _ _ N (fun k hk => (cut_index c w k hk).2.trans_le (hn.trans hN)) m m' h h' ha

/-- One operation after another touches what the two of them touch. -/
theorem WritesBelow.comp {n : Nat} {f g : Memory → Memory} (hg : WritesBelow n g) (hf : WritesBelow n f) :
    WritesBelow n (fun m => g (f m)) where
  wf m h := hg.wf _ (hf.wf m h)
  bound m N hN h := hg.bound _ N hN (hf.bound m N hN h)
  congr m m' N hN h h' ha := hg.congr _ _ N hN (hf.wf m h) (hf.wf m' h') (hf.congr m m' N hN h h' ha)

theorem writesBelow_putRun (n c x : Nat) (bio : BitOrder) (k : Nat) (hn : bytesFor (c + k) ≤ n) :
    WritesBelow n (fun m => m.putRun c x bio k) := by
  induction k with
  | zero => exact WritesBelow.id n
  | succ k ih =>
    have hrun := ih ((bytesFor_mono (by omega)).trans hn)
    exact (writesBelow_insert n (c + k) 1 x ⟨.msbyte, bio⟩ hn).comp hrun

theorem writesBelow_putUnary (n c k stop : Nat) (bio : BitOrder) (hn : bytesFor (c + k + 1) ≤ n) :
    WritesBelow n (fun m => m.putUnary c k stop bio) := by
  have hrun := writesBelow_putRun n c (1 - stop) bio k ((bytesFor_mono (by omega)).trans hn)
  exact (writesBelow_insert n (c + k) 1 stop ⟨.msbyte, bio⟩ hn).comp hrun

theorem writesBelow_putGolomb (n c u stop : Nat) (pp : Policy) (hn : bytesFor (c + golombLength u) ≤ n) :
    WritesBelow n (fun m => m.putGolomb c u stop pp) := by
  have hlen : golombLength u = 2 * golombPrefix u + 1 := rfl
  have hunary := writesBelow_putUnary n c (golombPrefix u) stop pp.bio ((bytesFor_mono (by omega)).trans hn)
  by_cases hk : golombPrefix u = 0
  · simpa only [Memory.putGolomb, if_pos hk] using hunary
  · have hpayload := writesBelow_insert n (c + golombPrefix u + 1) (golombPrefix u) (u + 1 - 2 ^ golombPrefix u) pp
      ((bytesFor_mono (by omega)).trans hn)
    simpa only [Memory.putGolomb, if_neg hk] using hpayload.comp hunary

end Sys2Proof.Machine
end

section
/-! SUPPORT. What a command can do, said once for all 18 of them and for two states at a time. Run from two states that
show it the same (parameters, host inputs, the registers of its own slot and that slot's bytes in use), a command stops
in both, or gives both the same response, or does to its own slot in both the same one of six actions. The invariants,
the frame and the noninterference statements are read off this. -/

namespace Sys2Proof.Machine

/-! ### The six actions -/

/-- What a command may do to the slot its `BUF` field names. -/
inductive SlotAction where
  /-- `CREATE` with a capacity of `cap` bytes. -/
  | create (cap : Nat)
  /-- `DESTROY`. -/
  | destroy
  /-- A read has moved the cursor to `t` and nothing else. -/
  | advance (t : Nat)
  /-- The slot has grown to `t` bits if need be, `f` has been done to its store, and the cursor stands at `t`. -/
  | put (t : Nat) (f : Memory → Memory)
  /-- `REFILL` has taken the bytes `fresh`. -/
  | refill (fresh : List Byte)
  /-- `FLUSH` has emitted `k` bytes. -/
  | flush (k : Nat)

/-- The slot after the action. -/
def SlotAction.apply (a : SlotAction) (sl : Slot) : Slot :=
  match a with
  | .create cap => ⟨true, BitVec.ofNat 64 (8 * cap), 0, sl.bytes.zeroFill 0 cap⟩
  | .destroy => ⟨false, 0, 0, sl.bytes⟩
  | .advance t => sl.seek t
  | .put t f => Slot.seek { sl.growTo t with bytes := f (sl.growTo t).bytes } t
  | .refill fresh => sl.refilled fresh
  | .flush k => sl.flushed k

/-- What the command has checked before it does the action to the slot. -/
def SlotAction.Fits (a : SlotAction) (cfg : Config) (sl : Slot) : Prop :=
  match a with
  | .create cap => sl.valid = false ∧ cap ≤ cfg.capBytes
  | .destroy => sl.valid = true
  | .advance t => sl.valid = true ∧ t ≤ sl.bitCount.toNat
  | .put t f => sl.valid = true ∧ t ≤ cfg.capBits ∧ WritesBelow (bytesFor t) f
  | .refill fresh => sl.valid = true ∧ sl.bitCount.toNat % 8 = 0 ∧ sl.keptBytes + fresh.length ≤ cfg.capBytes
  | .flush k => sl.valid = true ∧ k ≤ sl.usedBytes

/-- The commands that do the action. -/
def SlotAction.opcodes (a : SlotAction) : List Opcode :=
  match a with
  | .create _ => [.create]
  | .destroy => [.destroy]
  | .advance _ => [.read, .rdun, .rdeg]
  | .put _ _ => [.align, .skip, .write, .wrun, .wreg]
  | .refill _ => [.refill]
  | .flush _ => [.flush]

/-! ### What a command can see -/

/-- The store `m` in place of the slot's own shows a command no difference: it holds the same bytes below `LEN`, and
below the cursor, whose whole bytes `FLUSH` emits. (The cursor lies within `LEN` by 10_state.md R13, which is no premise
here.) -/
def Slot.ShownBy (sl : Slot) (m : Memory) : Prop := sl.bytes.AgreeBelow (max sl.len sl.usedBytes) m

/-- Slot `b` exists in both states and is the same in them, but for bytes that a command does not see. -/
structure Shared (b : SlotNo) (s t : State) (sl : Slot) (m : Memory) : Prop where
  left : s.slot? b = some sl
  right : t.slot? b = some { sl with bytes := m }
  shown : sl.ShownBy m

/-- Two states show the command `i` the same. -/
structure SameView (i : Instr) (s t : State) : Prop where
  cfg : s.cfg = t.cfg
  streamIn : s.streamIn = t.streamIn
  streamAccept : s.streamAccept = t.streamAccept
  slot : ∀ b, slotOf i = some b → (s.slot? b = none ∧ t.slot? b = none) ∨ ∃ sl m, Shared b s t sl m

/-- The command `i` has ended alike from `s` and from `t`. -/
inductive Alike (i : Instr) (s t : State) : Effect → Effect → Prop
  /-- Both have stopped (log entry 7). -/
  | stop : Alike i s t (.fault .outsideStore) (.fault .outsideStore)
  /-- Both have answered `r` and changed no slot. -/
  | reply (r : Response) : Alike i s t (.next (s.respond r)) (.next (t.respond r))
  /-- Both have done the action `a` to the command's slot and answered `r`. -/
  | act (b : SlotNo) (a : SlotAction) (sl : Slot) (m : Memory) (r : Response) (hb : slotOf i = some b)
      (hsl : Shared b s t sl m) (hop : opcodeOf i ∈ a.opcodes) (hfits : a.Fits s.cfg sl) :
      Alike i s t (.next ((s.setSlot b (a.apply sl)).respond r))
        (.next ((t.setSlot b (a.apply { sl with bytes := m })).respond r))

/-! ### One rule for each shared operation of Machine/Ops.lean -/

section
variable {i : Instr} {s t : State} {b : SlotNo} {sl : Slot} {m : Memory}

theorem SameView.noRoom_iff (h : SameView i s t) (u : Nat) : s.noRoom u = true ↔ t.noRoom u = true := by
  simp only [State.noRoom, h.cfg]

theorem SameView.inStore_iff (h : SameView i s t) (n : Nat) :
    (!s.inStore n) = true ↔ (!t.inStore n) = true := by
  simp only [State.inStore, h.cfg]

theorem le_capBits_of_noRoom {u : Nat} (h : ¬ s.noRoom u = true) : u ≤ s.cfg.capBits := by
  simpa [State.noRoom] using h

theorem Alike.raise (st : Status) : Alike i s t (raise st s) (raise st t) := .reply _

theorem Alike.answer (r0 r1 : Word) : Alike i s t (answer r0 r1 s) (answer r0 r1 t) := .reply _

/-- A test that comes out the same in both states. -/
theorem Alike.ite {c c' : Prop} [Decidable c] [Decidable c'] {e f e' f' : Effect} (hc : c ↔ c')
    (hthen : c → Alike i s t e e') (helse : ¬ c → Alike i s t f f') :
    Alike i s t (if c then e else f) (if c' then e' else f') := by
  by_cases h : c
  · rw [if_pos h, if_pos (hc.mp h)]; exact hthen h
  · rw [if_neg h, if_neg (mt hc.mpr h)]; exact helse h

/-- A check that raises a status, the same in both states, and what comes after it. -/
theorem Alike.check {c c' : Prop} [Decidable c] [Decidable c'] {st : Status} {f f' : Effect} (hc : c ↔ c')
    (hpass : ¬ c → Alike i s t f f') :
    Alike i s t (if c then Machine.raise st s else f) (if c' then Machine.raise st t else f') :=
  .ite hc (fun _ => .raise st) hpass

/-- The check that the bytes below index `n` exist (log entry 7). -/
theorem Alike.guard (h : SameView i s t) (n : Nat) {f f' : Effect} (hpass : Alike i s t f f') :
    Alike i s t (if !s.inStore n then .fault .outsideStore else f)
      (if !t.inStore n then .fault .outsideStore else f') :=
  .ite (h.inStore_iff n) (fun _ => .stop) fun _ => hpass

/-- The end of a command that has done the action `a` to its slot. -/
theorem Alike.finish (a : SlotAction) (hb : slotOf i = some b) (hsl : Shared b s t sl m)
    (hop : a.opcodes.contains (opcodeOf i) = true) (hfits : a.Fits s.cfg sl) (r0 r1 : Word) :
    Alike i s t (finish b (a.apply sl) r0 r1 s) (finish b (a.apply { sl with bytes := m }) r0 r1 t) :=
  .act b a sl m ⟨.ok, r0, r1, []⟩ hb hsl (List.contains_iff_mem.mp hop) hfits

/-- The end of `ALIGN` and of `SKIP`: the slot grown to the target if need be, and the cursor there. -/
theorem Alike.moveTo (u : Nat) (hb : slotOf i = some b) (hsl : Shared b s t sl m)
    (hop : (SlotAction.put u id).opcodes.contains (opcodeOf i) = true) (hv : sl.valid = true)
    (hu : ¬ s.noRoom u = true) :
    Alike i s t (Machine.finish b ((sl.growTo u).seek u) 0 0 s)
      (Machine.finish b ((Slot.growTo { sl with bytes := m } u).seek u) 0 0 t) :=
  .finish (.put u id) hb hsl hop ⟨hv, le_capBits_of_noRoom hu, .id _⟩ 0 0

/-- The end of `REFILL` and of `FLUSH`. -/
theorem Alike.transfer (a : SlotAction) (hb : slotOf i = some b) (hsl : Shared b s t sl m)
    (hop : a.opcodes.contains (opcodeOf i) = true) (hfits : a.Fits s.cfg sl) (asked moved : Nat) (out : List Byte) :
    Alike i s t (transfer b (a.apply sl) asked moved out s)
      (transfer b (a.apply { sl with bytes := m }) asked moved out t) :=
  .act b a sl m _ hb hsl (List.contains_iff_mem.mp hop) hfits

/-- `NeedBuffer` raises `ABSENT_BUFFER` in both states or goes on with the same valid slot in both. -/
theorem Alike.needBuffer (h : SameView i s t) (hb : slotOf i = some b) {k k' : Slot → Effect}
    (hk : ∀ sl m, Shared b s t sl m → sl.valid = true → Alike i s t (k sl) (k' { sl with bytes := m })) :
    Alike i s t (needBuffer b s k) (needBuffer b t k') := by
  rcases h.slot b hb with ⟨hs, ht⟩ | ⟨sl, m, hsl⟩
  · simp only [Machine.needBuffer, hs, ht]
    exact .raise _
  · simp only [Machine.needBuffer, hsl.left, hsl.right]
    exact .ite .rfl (hk sl m hsl) fun _ => .raise _

theorem Slot.ShownBy.agreeBelow (h : sl.ShownBy m) {n : Nat} (hn : n ≤ sl.len ∨ n ≤ sl.usedBytes) :
    sl.bytes.AgreeBelow n m :=
  fun i hi => h i (by omega)

/-- Bits below `BIT_COUNT` lie in bytes below `LEN`. -/
theorem Slot.ShownBy.agreeBelow_bits (h : sl.ShownBy m) {p : Nat} (hp : p ≤ sl.bitCount.toNat) :
    sl.bytes.AgreeBelow (bytesFor p) m :=
  h.agreeBelow (.inl (bytesFor_mono hp))

/-- The shared read gives both states the same value. -/
theorem Alike.readField (h : SameView i s t) (hm : sl.ShownBy m) (pp : Policy) (w : WidthField)
    {k k' : Word → Effect}
    (hk : ∀ v, sl.cursor.toNat + w.toNat ≤ sl.bitCount.toNat → Alike i s t (k v) (k' v)) :
    Alike i s t (readField sl pp w s k) (readField { sl with bytes := m } pp w t k') := by
  refine .check .rfl fun _ => .check .rfl fun hlen => .guard h _ ?_
  rw [sl.bytes.extract_congr m _ _ pp (hm.agreeBelow_bits (Nat.le_of_not_lt hlen))]
  exact hk _ (Nat.le_of_not_lt hlen)

/-- The shared scan finds the same count of non-stop bits in both states, with the stop bit below `BIT_COUNT`. -/
theorem Alike.scanPrefix (h : SameView i s t) (hm : sl.ShownBy m) (bio : BitOrder) (stop : StopField)
    {k k' : Nat → Effect}
    (hk : ∀ n, sl.cursor.toNat + n < sl.bitCount.toNat → Alike i s t (k n) (k' n)) :
    Alike i s t (scanPrefix sl bio stop s k) (scanPrefix { sl with bytes := m } bio stop t k') := by
  have hscan : sl.bytes.scan sl.cursor.toNat stop.toNat bio
      (min sl.bitCount.toNat s.cfg.capBits - sl.cursor.toNat) 0 =
      m.scan sl.cursor.toNat stop.toNat bio (min sl.bitCount.toNat s.cfg.capBits - sl.cursor.toNat) 0 := by
    by_cases hc : sl.cursor.toNat ≤ sl.bitCount.toNat
    · exact sl.bytes.scan_congr m _ _ _ _ _ (hm.agreeBelow_bits (by omega))
    · rw [show min sl.bitCount.toNat s.cfg.capBits - sl.cursor.toNat = 0 by omega]
      rfl
  simp only [Machine.scanPrefix, ← h.cfg, ← hscan]
  cases hn : sl.bytes.scan sl.cursor.toNat stop.toNat bio
      (min sl.bitCount.toNat s.cfg.capBits - sl.cursor.toNat) 0 with
  | none => exact .ite .rfl (fun _ => .raise _) fun _ => .stop
  | some n =>
    have := sl.bytes.scan_some _ _ _ _ _ n hn
    exact hk n (by omega)

end

/-! ### The commands -/

section
variable {s t : State} (b : SlotNo)

theorem execCreate_alike (cap : Word) (h : SameView (.create b cap) s t) :
    Alike (.create b cap) s t (execCreate b cap s) (execCreate b cap t) := by
  rcases h.slot b rfl with ⟨hs, ht⟩ | ⟨sl, m, hsl⟩
  · simp only [execCreate, hs, ht]
    exact .raise _
  · simp only [execCreate, hsl.left, hsl.right, ← h.cfg]
    refine .check .rfl fun hv => .check .rfl fun hcap => ?_
    exact .finish (.create cap.toNat) rfl hsl rfl ⟨by simpa using hv, Nat.le_of_not_lt hcap⟩ 0 0

theorem execDestroy_alike (h : SameView (.destroy b) s t) :
    Alike (.destroy b) s t (execDestroy b s) (execDestroy b t) :=
  .needBuffer h rfl fun _ _ hsl hv => .finish .destroy rfl hsl rfl hv 0 0

theorem execBitlen_alike (h : SameView (.bitlen b) s t) :
    Alike (.bitlen b) s t (execBitlen b s) (execBitlen b t) :=
  .needBuffer h rfl fun sl _ _ _ => .answer sl.bitCount 0

theorem execPos_alike (h : SameView (.pos b) s t) : Alike (.pos b) s t (execPos b s) (execPos b t) :=
  .needBuffer h rfl fun sl _ _ _ => .answer sl.cursor 0

theorem execIsalign_alike (g : Word) (h : SameView (.isalign b g) s t) :
    Alike (.isalign b g) s t (execIsalign b g s) (execIsalign b g t) :=
  .needBuffer h rfl fun _ _ _ _ => .check .rfl fun _ => .ite .rfl (fun _ => .answer 1 0) fun _ => .answer 0 0

theorem execAlign_alike (g : Word) (h : SameView (.align b g) s t) :
    Alike (.align b g) s t (execAlign b g s) (execAlign b g t) :=
  .needBuffer h rfl fun _ _ hsl hv => .check .rfl fun _ => .check (h.noRoom_iff _) fun hroom =>
    .moveTo _ rfl hsl rfl hv hroom

theorem execSkip_alike (delta : Word) (h : SameView (.skip b delta) s t) :
    Alike (.skip b delta) s t (execSkip b delta s) (execSkip b delta t) :=
  .needBuffer h rfl fun _ _ hsl hv => .check .rfl fun _ => .check (h.noRoom_iff _) fun hroom =>
    .moveTo _ rfl hsl rfl hv hroom

theorem execPeek_alike (pp : Policy) (w : WidthField) (h : SameView (.peek b pp w) s t) :
    Alike (.peek b pp w) s t (execPeek b pp w s) (execPeek b pp w t) :=
  .needBuffer h rfl fun _ _ hsl _ => .readField h hsl.shown pp w fun v _ => .answer v 0

theorem execRead_alike (pp : Policy) (w : WidthField) (h : SameView (.read b pp w) s t) :
    Alike (.read b pp w) s t (execRead b pp w s) (execRead b pp w t) :=
  .needBuffer h rfl fun sl _ hsl hv => .readField h hsl.shown pp w fun v hlen =>
    .finish (.advance (sl.cursor.toNat + w.toNat)) rfl hsl rfl ⟨hv, hlen⟩ v 0

theorem execWrite_alike (pp : Policy) (w : WidthField) (value : Word) (h : SameView (.write b pp w value) s t) :
    Alike (.write b pp w value) s t (execWrite b pp w value s) (execWrite b pp w value t) :=
  .needBuffer h rfl fun sl _ hsl hv => .check .rfl fun _ => .check (h.noRoom_iff _) fun hroom =>
    .finish (.put (sl.cursor.toNat + w.toNat) fun m => m.insert sl.cursor.toNat w.toNat value.toNat pp) rfl hsl rfl
      ⟨hv, le_capBits_of_noRoom hroom, writesBelow_insert _ _ _ _ _ le_rfl⟩ 0 0

theorem execRdun_alike (pp : Policy) (flavor : Flavor) (stop : StopField)
    (h : SameView (.rdun b pp flavor stop) s t) :
    Alike (.rdun b pp flavor stop) s t (execRdun b pp flavor stop s) (execRdun b pp flavor stop t) :=
  .needBuffer h rfl fun sl _ hsl hv => .check .rfl fun _ => .scanPrefix h hsl.shown pp.bio stop fun k hlen =>
    .finish (.advance (sl.cursor.toNat + k + 1)) rfl hsl rfl ⟨hv, hlen⟩ _ 0

theorem execWrun_alike (pp : Policy) (flavor : Flavor) (stop : StopField) (value : Word)
    (h : SameView (.wrun b pp flavor stop value) s t) :
    Alike (.wrun b pp flavor stop value) s t (execWrun b pp flavor stop value s)
      (execWrun b pp flavor stop value t) :=
  .needBuffer h rfl fun sl _ hsl hv => .check .rfl fun _ => .check .rfl fun _ =>
    .check (h.noRoom_iff _) fun hroom =>
      .finish (.put (sl.cursor.toNat + unaryCount flavor value + 1) fun m =>
        m.putUnary sl.cursor.toNat (unaryCount flavor value) stop.toNat pp.bio) rfl hsl rfl
        ⟨hv, le_capBits_of_noRoom hroom, writesBelow_putUnary _ _ _ _ _ le_rfl⟩ 0 0

theorem execRdeg_alike (pp : Policy) (sgn : Signedness) (stop : StopField) (h : SameView (.rdeg b pp sgn stop) s t) :
    Alike (.rdeg b pp sgn stop) s t (execRdeg b pp sgn stop s) (execRdeg b pp sgn stop t) := by
  refine .needBuffer h rfl fun sl m hsl hv => .check .rfl fun _ =>
    .scanPrefix h hsl.shown pp.bio stop fun k _ => .check .rfl fun _ => .check .rfl fun hlen => .guard h _ ?_
  rw [sl.bytes.golombPayload_congr m _ k pp (hsl.shown.agreeBelow_bits (Nat.le_of_not_lt hlen))]
  exact .finish (.advance (sl.cursor.toNat + 2 * k + 1)) rfl hsl rfl ⟨hv, Nat.le_of_not_lt hlen⟩ _ 0

theorem execWreg_alike (pp : Policy) (sgn : Signedness) (stop : StopField) (value : Word)
    (h : SameView (.wreg b pp sgn stop value) s t) :
    Alike (.wreg b pp sgn stop value) s t (execWreg b pp sgn stop value s) (execWreg b pp sgn stop value t) := by
  refine .needBuffer h rfl fun sl m hsl hv => .check .rfl fun _ => ?_
  cases golombNumber sgn value with
  | none => exact .raise _
  | some u =>
    exact .check (h.noRoom_iff _) fun hroom =>
      .finish (.put (sl.cursor.toNat + golombLength u) fun m => m.putGolomb sl.cursor.toNat u stop.toNat pp) rfl hsl
        rfl ⟨hv, le_capBits_of_noRoom hroom, writesBelow_putGolomb _ _ _ _ _ le_rfl⟩ 0 0

theorem execCrcgen_alike (w : WidthField) (be : DataOrder) (poly start : Word) (data : List Byte)
    (h : SameView (.crcgen w be poly start data) s t) :
    Alike (.crcgen w be poly start data) s t (execCrcgen w be poly start data s)
      (execCrcgen w be poly start data t) := by
  simp only [execCrcgen, ← h.cfg]
  exact .check .rfl fun _ => .answer _ 0

theorem execCrcvfy_alike (w : WidthField) (be : DataOrder) (poly start embedded : Word) (data : List Byte)
    (h : SameView (.crcvfy w be poly start embedded data) s t) :
    Alike (.crcvfy w be poly start embedded data) s t (execCrcvfy w be poly start embedded data s)
      (execCrcvfy w be poly start embedded data t) := by
  simp only [execCrcvfy, ← h.cfg]
  exact .check .rfl fun _ => .ite .rfl (fun _ => .answer 1 0) fun _ => .answer 0 0

theorem execRefill_alike (n : Word) (h : SameView (.refill b n) s t) :
    Alike (.refill b n) s t (execRefill b n s) (execRefill b n t) := by
  simp only [execRefill, ← h.cfg, ← h.streamIn]
  refine .needBuffer h rfl fun sl _ hsl hv => .check .rfl fun hwhole => .check .rfl fun hroom => .guard h _ ?_
  have htaken : (s.streamIn.take n.toNat).length ≤ n.toNat := List.length_take_le _ _
  exact .transfer (.refill (s.streamIn.take n.toNat)) rfl hsl rfl ⟨hv, by omega, by omega⟩ _ _ []

theorem execFlush_alike (h : SameView (.flush b) s t) : Alike (.flush b) s t (execFlush b s) (execFlush b t) := by
  simp only [execFlush, ← h.streamAccept]
  refine .needBuffer h rfl fun sl m hsl hv => .guard h _ ?_
  have hk : sl.emitCount s.streamAccept ≤ sl.usedBytes := Nat.min_le_right _ _
  have hout : sl.bytes.firstBytes (sl.emitCount s.streamAccept) = m.firstBytes (sl.emitCount s.streamAccept) :=
    sl.bytes.firstBytes_congr m _ (hsl.shown.agreeBelow (.inr hk))
  rw [hout]
  exact .transfer (.flush (sl.emitCount s.streamAccept)) rfl hsl rfl ⟨hv, hk⟩ _ _ _

end

/-- Every command ends alike from two states that show it the same. -/
theorem exec_alike (i : Instr) (s t : State) (h : SameView i s t) : Alike i s t (exec i s) (exec i t) := by
  cases i with
  | create b cap => exact execCreate_alike b cap h
  | destroy b => exact execDestroy_alike b h
  | bitlen b => exact execBitlen_alike b h
  | pos b => exact execPos_alike b h
  | isalign b g => exact execIsalign_alike b g h
  | align b g => exact execAlign_alike b g h
  | skip b delta => exact execSkip_alike b delta h
  | peek b pp w => exact execPeek_alike b pp w h
  | read b pp w => exact execRead_alike b pp w h
  | write b pp w value => exact execWrite_alike b pp w value h
  | rdun b pp flavor stop => exact execRdun_alike b pp flavor stop h
  | wrun b pp flavor stop value => exact execWrun_alike b pp flavor stop value h
  | rdeg b pp sgn stop => exact execRdeg_alike b pp sgn stop h
  | wreg b pp sgn stop value => exact execWreg_alike b pp sgn stop value h
  | crcgen w be poly start data => exact execCrcgen_alike w be poly start data h
  | crcvfy w be poly start embedded data => exact execCrcvfy_alike w be poly start embedded data h
  | refill b n => exact execRefill_alike b n h
  | flush b => exact execFlush_alike b h

/-- What two commands that have ended alike have done, where one of them ends in a next state. -/
theorem Alike.next_cases {i : Instr} {s t s' : State} {e : Effect} (h : Alike i s t (.next s') e) :
    (∃ r, s' = s.respond r ∧ e = .next (t.respond r)) ∨
    ∃ (b : SlotNo) (a : SlotAction) (sl : Slot) (m : Memory) (r : Response), slotOf i = some b ∧
      Shared b s t sl m ∧ opcodeOf i ∈ a.opcodes ∧ a.Fits s.cfg sl ∧
      s' = (s.setSlot b (a.apply sl)).respond r ∧
      e = .next ((t.setSlot b (a.apply { sl with bytes := m })).respond r) := by
  cases h with
  | reply r => exact .inl ⟨r, rfl, rfl⟩
  | act b a sl m r hb hsl hop hfits => exact .inr ⟨b, a, sl, m, r, hb, hsl, hop, hfits, rfl, rfl⟩

/-- Every state shows a command what it shows it. -/
theorem SameView.refl (i : Instr) (s : State) : SameView i s s where
  cfg := rfl
  streamIn := rfl
  streamAccept := rfl
  slot b _ := by
    cases hb : s.slot? b with
    | none => exact .inl ⟨rfl, rfl⟩
    | some sl => exact .inr ⟨sl, sl.bytes, hb, hb, fun _ _ => rfl⟩

/-- Everything a command that ends in a next state can have done: it has answered and changed no slot, or it has done
one action to the slot its `BUF` field names. -/
theorem exec_cases (i : Instr) (s t : State) (h : exec i s = .next t) :
    (∃ r, t = s.respond r) ∨
    ∃ (b : SlotNo) (a : SlotAction) (sl : Slot) (r : Response), slotOf i = some b ∧ s.slot? b = some sl ∧
      opcodeOf i ∈ a.opcodes ∧ a.Fits s.cfg sl ∧ t = (s.setSlot b (a.apply sl)).respond r := by
  have halike := exec_alike i s s (.refl i s)
  rw [h] at halike
  rcases halike.next_cases with ⟨r, ht, _⟩ | ⟨b, a, sl, _, r, hb, hsl, hop, hfits, ht, _⟩
  · exact .inl ⟨r, ht⟩
  · exact .inr ⟨b, a, sl, r, hb, hsl.left, hop, hfits, ht⟩

end Sys2Proof.Machine
end

section
/-! SUPPORT. What the six actions keep: the register invariants and the stores of good slots (10_state.md R13, R19), and
the likeness of two slots that differ only in bytes at or above `LEN` (R20). -/

namespace Sys2Proof.Machine

/-! ### Registers -/

/-- The register invariants of one slot (10_state.md R13), as `State.inBounds` asks them. -/
abbrev Slot.RegistersOk (capBytes : Nat) (sl : Slot) : Prop :=
  sl.cursor.toNat ≤ sl.bitCount.toNat ∧ sl.bitCount.toNat ≤ 8 * capBytes ∧
    (sl.valid = false → sl.bitCount = 0 ∧ sl.cursor = 0)

/-- A register holds every position within a store (00_scope.md R4). -/
theorem toNat_position (cfg : Config) (hcfg : cfg.wf) {p : Nat} (hp : p ≤ 8 * cfg.capBytes) :
    (BitVec.ofNat 64 p).toNat = p :=
  (BitVec.toNat_ofNat p 64).trans (Nat.mod_eq_of_lt (hp.trans_lt (Config.capBits_lt cfg hcfg)))

/-- The registers of a slot that holds a buffer. -/
theorem Slot.registersOk_of_valid {capBytes : Nat} {sl : Slot} (hv : sl.valid = true) {c bc : Nat}
    (hc : sl.cursor.toNat = c) (hbc : sl.bitCount.toNat = bc) (hle : c ≤ bc) (hcap : bc ≤ 8 * capBytes) :
    sl.RegistersOk capBytes := by
  subst hc hbc
  exact ⟨hle, hcap, fun hf => absurd (hv.symm.trans hf) (by decide)⟩

/-- Every action keeps the register invariants of its slot. -/
theorem SlotAction.apply_registersOk (cfg : Config) (hcfg : cfg.wf) (a : SlotAction) (sl : Slot)
    (hfits : a.Fits cfg sl) (h : sl.RegistersOk cfg.capBytes) : (a.apply sl).RegistersOk cfg.capBytes := by
  obtain ⟨hle, hcap, -⟩ := h
  have position {p : Nat} (hp : p ≤ 8 * cfg.capBytes) := toNat_position cfg hcfg hp
  cases a with
  | create cap =>
    obtain ⟨-, hfit⟩ := hfits
    exact Slot.registersOk_of_valid rfl rfl (position (by omega)) (Nat.zero_le _) (by omega)
  | destroy => exact ⟨le_rfl, Nat.zero_le _, fun _ => ⟨rfl, rfl⟩⟩
  | advance u =>
    obtain ⟨hv, hu⟩ := hfits
    exact Slot.registersOk_of_valid hv (position (hu.trans hcap)) rfl hu hcap
  | put u f =>
    obtain ⟨hv, hu, -⟩ := hfits
    have hbc : (sl.growTo u).bitCount.toNat = max sl.bitCount.toNat u :=
      sl.growTo_bitCount u (hu.trans_lt (Config.capBits_lt cfg hcfg))
    exact Slot.registersOk_of_valid ((sl.growTo_valid u).trans hv) (position hu) hbc (le_max_right _ _)
      (max_le hcap hu)
  | refill fresh =>
    obtain ⟨hv, hwhole, hroom⟩ := hfits
    refine Slot.registersOk_of_valid hv (position (p := sl.cursor.toNat % 8) (by omega))
      (position (Nat.mul_le_mul_left 8 hroom)) ?_ (Nat.mul_le_mul_left 8 hroom)
    simp only [Slot.keptBytes]
    omega
  | flush k =>
    obtain ⟨hv, hk⟩ := hfits
    refine Slot.registersOk_of_valid hv (position (p := sl.cursor.toNat - 8 * k) ?_)
      (position (p := sl.bitCount.toNat - 8 * k) ?_) ?_ ?_ <;> omega

/-! ### Stores -/

/-- The store of one slot is in canonical form and lists no index outside `CAP_BYTES` (10_state.md R19). -/
abbrev Slot.StoreOk (capBytes : Nat) (sl : Slot) : Prop :=
  sl.bytes.wf ∧ ∀ x ∈ sl.bytes.cells, x.1 < capBytes

theorem Slot.wf_iff (capBytes : Nat) (sl : Slot) :
    sl.wf capBytes ↔ sl.RegistersOk capBytes ∧ sl.StoreOk capBytes := by
  simp only [Slot.wf, Slot.RegistersOk, Slot.StoreOk, and_assoc]

/-- Every action keeps the store of its slot canonical and inside `CAP_BYTES`. -/
theorem SlotAction.apply_storeOk (cfg : Config) (a : SlotAction) (sl : Slot) (hfits : a.Fits cfg sl)
    (hregs : sl.RegistersOk cfg.capBytes) (h : sl.StoreOk cfg.capBytes) : (a.apply sl).StoreOk cfg.capBytes := by
  obtain ⟨hwf, hbound⟩ := h
  obtain ⟨-, hcap, -⟩ := hregs
  cases a with
  | create cap => exact ⟨sl.bytes.zeroFill_wf hwf _ _, sl.bytes.zeroFill_bound _ _ _ hbound⟩
  | destroy => exact ⟨hwf, hbound⟩
  | advance u => exact ⟨hwf, hbound⟩
  | put u f =>
    obtain ⟨-, hu, hf⟩ := hfits
    have hbytes : bytesFor u ≤ cfg.capBytes := (bytesFor_mono hu).trans_eq (bytesFor_mul_eight _)
    exact ⟨hf.wf _ (sl.growTo_bytes_wf u hwf), hf.bound _ _ hbytes (sl.growTo_bytes_bound u _ hbound)⟩
  | refill fresh =>
    obtain ⟨-, -, hroom⟩ := hfits
    exact ⟨Memory.writeAll_wf _ (sl.bytes.moveDown_wf hwf _ _) _ _,
      Memory.writeAll_bound _ _ _ _ (sl.bytes.moveDown_bound _ _ _ hbound (by omega)) hroom⟩
  | flush k =>
    have hlen : sl.len ≤ cfg.capBytes := (bytesFor_mono hcap).trans_eq (bytesFor_mul_eight _)
    exact ⟨sl.bytes.moveDown_wf hwf _ _, sl.bytes.moveDown_bound _ _ _ hbound (by omega)⟩

/-- Every action keeps good slots. -/
theorem SlotAction.apply_wf (cfg : Config) (hcfg : cfg.wf) (a : SlotAction) (sl : Slot) (hfits : a.Fits cfg sl)
    (h : sl.wf cfg.capBytes) : (a.apply sl).wf cfg.capBytes := by
  obtain ⟨hregs, hstore⟩ := (sl.wf_iff _).mp h
  exact (Slot.wf_iff _ _).mpr
    ⟨a.apply_registersOk cfg hcfg sl hfits hregs, a.apply_storeOk cfg sl hfits hregs hstore⟩

/-! ### Likeness -/

/-- Two like slots differ in the store only. -/
theorem Slot.Same.eq_with {x y : Slot} (h : x.Same y) : y = { x with bytes := y.bytes } := by
  obtain ⟨hv, hbc, hc, -⟩ := h
  rw [hv, hbc, hc]

/-- In a good slot the cursor lies within `LEN`, so a command sees no byte at or above `LEN` (10_state.md R20). -/
theorem Slot.shownBy_of_agreeBelow {x : Slot} {m : Memory} (hc : x.cursor.toNat ≤ x.bitCount.toNat)
    (h : x.bytes.AgreeBelow x.len m) : x.ShownBy m := fun i hi => h i (by
  simp only [Slot.len, Slot.usedBytes, bytesFor] at *
  omega)

/-- Growth brings only zeros into use, so like slots stay alike (20_memory.md R36). -/
theorem Slot.growTo_agreeBelow (x : Slot) (m : Memory) (u : Nat) (h : x.bytes.AgreeBelow x.len m) :
    (x.growTo u).bytes.AgreeBelow (max x.len (bytesFor u)) (Slot.growTo { x with bytes := m } u).bytes := by
  intro i hi
  have hlen : Slot.len { x with bytes := m } = x.len := rfl
  rw [Slot.read_growTo, Slot.read_growTo, hlen]
  by_cases hnew : x.len ≤ i ∧ i < bytesFor u
  · rw [if_pos hnew, if_pos hnew]
  · rw [if_neg hnew, if_neg hnew]
    exact h i (by omega)

/-- Every action keeps two good like slots alike. -/
theorem SlotAction.apply_same (cfg : Config) (hcfg : cfg.wf) (a : SlotAction) (x : Slot) (m : Memory)
    (hfits : a.Fits cfg x) (hx : x.wf cfg.capBytes) (hm : m.wf) (h : x.bytes.AgreeBelow x.len m) :
    (a.apply x).Same (a.apply { x with bytes := m }) := by
  obtain ⟨-, hcap, -, hxm, -⟩ := hx
  have position {p : Nat} (hp : p ≤ 8 * cfg.capBytes) := toNat_position cfg hcfg hp
  cases a with
  | create cap =>
    obtain ⟨-, hfit⟩ := hfits
    refine ⟨rfl, rfl, rfl, fun i hi => ?_⟩
    simp only [SlotAction.apply, Slot.len, position (Nat.mul_le_mul_left 8 hfit), bytesFor_mul_eight] at hi
    simp only [SlotAction.apply, Memory.read_zeroFill, Nat.zero_le, hi, and_self, if_true]
  | destroy =>
    have hlen : (SlotAction.destroy.apply x).len = 0 := by simp [SlotAction.apply, Slot.len, bytesFor]
    exact ⟨rfl, rfl, rfl, fun i hi => absurd (hlen ▸ hi) (Nat.not_lt_zero i)⟩
  | advance u => exact ⟨rfl, rfl, rfl, h⟩
  | put u f =>
    obtain ⟨-, hu, hf⟩ := hfits
    have hu64 : u < 2 ^ 64 := hu.trans_lt (Config.capBits_lt cfg hcfg)
    have hbc : (x.growTo u).bitCount = (Slot.growTo { x with bytes := m } u).bitCount :=
      BitVec.eq_of_toNat_eq (by rw [Slot.growTo_bitCount _ u hu64, Slot.growTo_bitCount _ u hu64])
    refine ⟨by simp [SlotAction.apply], hbc, rfl, fun i hi => ?_⟩
    have hlen : i < max x.len (bytesFor u) := by
      simp only [SlotAction.apply, Slot.len, Slot.seek_bitCount, Slot.growTo_bitCount x u hu64, bytesFor] at *
      omega
    exact hf.congr _ _ _ (le_max_right _ _) (Slot.growTo_bytes_wf _ u hxm) (Slot.growTo_bytes_wf _ u hm)
      (x.growTo_agreeBelow m u h) i hlen
  | refill fresh =>
    obtain ⟨-, -, hroom⟩ := hfits
    refine ⟨rfl, rfl, rfl, fun i hi => ?_⟩
    simp only [SlotAction.apply, Slot.refilled, Slot.len, position (Nat.mul_le_mul_left 8 hroom),
      bytesFor_mul_eight] at hi
    have hkept : Slot.keptBytes { x with bytes := m } = x.keptBytes := rfl
    simp only [SlotAction.apply, Slot.refilled, hkept, Memory.read_writeAll _ (Memory.moveDown_wf _ hxm _ _),
      Memory.read_writeAll _ (Memory.moveDown_wf _ hm _ _), Memory.read_moveDown _ hxm, Memory.read_moveDown _ hm]
    by_cases hnew : x.keptBytes ≤ i
    · rw [if_pos ⟨hnew, hi⟩, if_pos ⟨hnew, hi⟩]
    · have hold : i < x.keptBytes := Nat.lt_of_not_le hnew
      have hnot : ¬ (x.keptBytes ≤ i ∧ i < x.keptBytes + fresh.length) := fun hn => hnew hn.1
      simp only [if_neg hnot, if_pos hold]
      refine h _ ?_
      simp only [Slot.keptBytes, Slot.len, bytesFor] at *
      omega
  | flush k =>
    refine ⟨rfl, rfl, rfl, fun i hi => ?_⟩
    have hmoved : i < x.len - k := by
      simp only [SlotAction.apply, Slot.flushed, Slot.len, bytesFor,
        position (p := x.bitCount.toNat - 8 * k) (by omega)] at *
      omega
    have hlen : Slot.len { x with bytes := m } = x.len := rfl
    simp only [SlotAction.apply, Slot.flushed, hlen, Memory.read_moveDown _ hxm, Memory.read_moveDown _ hm,
      if_pos hmoved]
    exact h _ (by omega)

end Sys2Proof.Machine
end

section
/-! The statements about the state as a whole (10_state.md): its invariants, its frame, and what a host cannot
observe. -/

namespace Sys2Proof.Machine

/-! ### The state after a command and after a step -/

/-- A command keeps the parameters, the pending events and the number of slots, and forgets its host inputs. -/
theorem exec_next_ports (i : Instr) (s t : State) (h : exec i s = .next t) :
    t.cfg = s.cfg ∧ t.pending = s.pending ∧ t.slots.length = s.slots.length ∧ t.streamIn = [] ∧
      t.streamAccept = 0 := by
  rcases exec_cases i s t h with ⟨r, rfl⟩ | ⟨b, a, sl, r, -, -, -, -, rfl⟩
  · exact ⟨rfl, rfl, rfl, rfl, rfl⟩
  · exact ⟨rfl, rfl, List.length_set, rfl, rfl⟩

/-- What holds of every slot after a command: it held before, or the action of the command has made it hold. -/
theorem exec_forall_slots (P : Slot → Prop) (i : Instr) (s t : State)
    (hact : ∀ (a : SlotAction) sl, a.Fits s.cfg sl → P sl → P (a.apply sl)) (hs : ∀ sl ∈ s.slots, P sl)
    (h : exec i s = .next t) : ∀ sl ∈ t.slots, P sl := by
  rcases exec_cases i s t h with ⟨r, rfl⟩ | ⟨b, a, x, r, -, hx, -, hfits, rfl⟩
  · exact hs
  · intro sl hsl
    rcases List.mem_or_eq_of_mem_set hsl with hold | rfl
    · exact hs sl hold
    · exact hact a x hfits (hs x (List.mem_of_getElem? ((s.slot?_eq_some b x).mp hx).2))

/-- The induction step of every invariant of the slots: what holds of the slot that reset leaves, and is kept by the
actions, is kept by every step. -/
theorem step_forall_slots (P : Slot → Prop) (s t : State) (hempty : P Slot.empty)
    (hact : ∀ (a : SlotAction) sl, a.Fits s.cfg sl → P sl → P (a.apply sl)) (hs : ∀ sl ∈ s.slots, P sl)
    (h : step s = .next t) : ∀ sl ∈ t.slots, P sl := by
  rcases step_cases s with ⟨-, hstep⟩ | ⟨rest, -, hstep⟩ | ⟨p, input, rest, e, -, -, hstep⟩ |
    ⟨p, input, rest, i, -, -, hstep⟩ <;> rw [hstep] at h
  · cases h; exact hs
  · cases h
    exact fun sl hsl => List.eq_of_mem_replicate hsl ▸ hempty
  · cases h; exact hs
  · exact exec_forall_slots P i (s.present input rest) t hact hs h

/-- A step keeps the parameters, takes one event and forgets the host inputs (10_state.md R10, R11). -/
theorem step_next_ports (s t : State) (h : step s = .next t) :
    t.cfg = s.cfg ∧ t.pending = s.pending.tail ∧ t.streamIn = [] ∧ t.streamAccept = 0 := by
  rcases step_cases s with ⟨hp, hstep⟩ | ⟨rest, hp, hstep⟩ | ⟨p, input, rest, e, hp, -, hstep⟩ |
    ⟨p, input, rest, i, hp, -, hstep⟩ <;> rw [hstep] at h <;> rw [hp]
  · cases h; exact ⟨rfl, hp, rfl, rfl⟩
  · cases h; exact ⟨rfl, rfl, rfl, rfl⟩
  · cases h; exact ⟨rfl, rfl, rfl, rfl⟩
  · obtain ⟨hcfg, hpend, -, hin, hacc⟩ := exec_next_ports i _ t h
    exact ⟨hcfg, hpend, hin, hacc⟩

/-- A step keeps the number of slots at `NBUF`. -/
theorem step_next_length (s t : State) (hs : s.slots.length = s.cfg.nbuf) (h : step s = .next t) :
    t.slots.length = t.cfg.nbuf := by
  rcases step_cases s with ⟨hp, hstep⟩ | ⟨rest, hp, hstep⟩ | ⟨p, input, rest, e, hp, -, hstep⟩ |
    ⟨p, input, rest, i, hp, -, hstep⟩ <;> rw [hstep] at h
  · cases h; exact hs
  · cases h; exact List.length_replicate
  · cases h; exact hs
  · obtain ⟨hcfg, -, hlen, -, -⟩ := exec_next_ports i _ t h
    rw [hlen, hcfg]
    exact hs

/-- Settles O12: the register invariants hold of an empty slot and are kept by the six actions. -/
theorem stepKeepsRegisterInvariants : Obligations.StepKeepsRegisterInvariants := by
  intro s t ⟨hcfg, hlen, hs⟩ hstep
  obtain ⟨hcfg', -⟩ := step_next_ports s t hstep
  refine ⟨hcfg' ▸ hcfg, step_next_length s t hlen hstep, hcfg' ▸ ?_⟩
  exact step_forall_slots (Slot.RegistersOk s.cfg.capBytes) s t ((Slot.wf_iff _ _).mp (Slot.empty_wf _)).1
    (fun a sl hfits => a.apply_registersOk s.cfg hcfg sl hfits) hs hstep

/-- Settles O13, as O12, with the store of the slot beside its registers. -/
theorem stepKeepsGoodStates : Obligations.StepKeepsGoodStates := by
  intro s t ⟨hcfg, hlen, hs⟩ hstep
  obtain ⟨hcfg', -⟩ := step_next_ports s t hstep
  refine ⟨hcfg' ▸ hcfg, step_next_length s t hlen hstep, hcfg' ▸ ?_⟩
  exact step_forall_slots (Slot.wf s.cfg.capBytes) s t (Slot.empty_wf _)
    (fun a sl hfits => a.apply_wf s.cfg hcfg sl hfits) hs hstep

/-! ### Noninterference -/

/-- States that agree on the command's slot show the command the same. -/
theorem SameView.of_slot_eq (i : Instr) (s t : State) (hcfg : s.cfg = t.cfg) (hin : s.streamIn = t.streamIn)
    (hacc : s.streamAccept = t.streamAccept) (hslot : ∀ b, slotOf i = some b → s.slot? b = t.slot? b) :
    SameView i s t where
  cfg := hcfg
  streamIn := hin
  streamAccept := hacc
  slot b hb := by
    have heq := hslot b hb
    cases hs : s.slot? b with
    | none => exact .inl ⟨rfl, heq ▸ hs⟩
    | some sl => exact .inr ⟨sl, sl.bytes, hs, heq ▸ hs, fun _ _ => rfl⟩

/-- Settles O20: the two commands end alike, and the one action of both makes equal slots of equal slots. -/
theorem commandUsesOwnSlotOnly : Obligations.CommandUsesOwnSlotOnly := by
  intro i s t s' hcfg _ hin hacc hslot hexec
  have halike := exec_alike i s t (.of_slot_eq i s t hcfg hin hacc hslot)
  rw [hexec] at halike
  rcases halike.next_cases with ⟨r, rfl, ht⟩ | ⟨b, a, sl, m, r, hb, hsl, -, -, rfl, ht⟩
  · exact ⟨_, ht, rfl, hslot⟩
  · refine ⟨_, ht, rfl, fun b' hb' => ?_⟩
    obtain rfl : b = b' := Option.some.inj (hb.symm.trans hb')
    have hsame : sl = { sl with bytes := m } :=
      Option.some.inj (hsl.left.symm.trans ((hslot b hb).trans hsl.right))
    rw [State.slot?_respond, State.slot?_respond, State.slot?_setSlot_same s b sl _ hsl.left,
      State.slot?_setSlot_same t b _ _ hsl.right, ← hsame]

/-- Like states have the same slots present, and like ones. -/
theorem State.Same.slot? {s t : State} (h : s.Same t) (b : SlotNo) :
    (s.slot? b = none ∧ t.slot? b = none) ∨
      ∃ x y, s.slot? b = some x ∧ t.slot? b = some y ∧ x.Same y := by
  obtain ⟨hcfg, hlen, hslots, -⟩ := h
  simp only [State.slot?, ← hcfg]
  split
  · by_cases hb : b.toNat < s.slots.length
    · have hx := List.getElem?_eq_getElem hb
      have hy := List.getElem?_eq_getElem (hlen ▸ hb)
      exact .inr ⟨_, _, hx, hy, hslots _ _ _ hx hy⟩
    · exact .inl ⟨List.getElem?_eq_none (by omega), List.getElem?_eq_none (by omega)⟩
  · exact .inl ⟨rfl, rfl⟩

/-- A command sees no byte at or above `LEN` of a good state. -/
theorem SameView.of_same (i : Instr) (s t : State) (hs : s.wf) (h : s.Same t) : SameView i s t := by
  have ⟨hcfg, _, _, _, hin, hacc, _⟩ := h
  refine ⟨hcfg, hin, hacc, fun b _ => ?_⟩
  rcases h.slot? b with hnone | ⟨x, y, hx, hy, hxy⟩
  · exact .inl hnone
  · have hy' := hxy.eq_with
    obtain ⟨-, -, -, hread⟩ := hxy
    obtain ⟨hc, -⟩ := State.slot_wf s hs b x hx
    exact .inr ⟨x, y.bytes, hx, hy.trans (congrArg some hy'), Slot.shownBy_of_agreeBelow hc hread⟩

/-- Like states stay alike when like slots are put in and the same response goes out. -/
theorem State.Same.setSlot_respond {s t : State} (h : s.Same t) (b : SlotNo) {x y : Slot} (hxy : x.Same y)
    (r : Response) : ((s.setSlot b x).respond r).Same ((t.setSlot b y).respond r) := by
  obtain ⟨hcfg, hlen, hslots, hpend, -⟩ := h
  refine ⟨hcfg, by simpa using hlen, fun n x' y' hx' hy' => ?_, hpend, rfl, rfl, rfl⟩
  rw [State.respond_slots, State.setSlot_slots] at hx' hy'
  by_cases hn : b.toNat = n
  · subst hn
    rw [List.getElem?_set_self'] at hx' hy'
    obtain ⟨_, -, rfl⟩ := Option.map_eq_some_iff.mp hx'
    obtain ⟨_, -, rfl⟩ := Option.map_eq_some_iff.mp hy'
    exact hxy
  · rw [List.getElem?_set_ne hn] at hx' hy'
    exact hslots n x' y' hx' hy'

theorem State.Same.respond {s t : State} (h : s.Same t) (r : Response) : (s.respond r).Same (t.respond r) := by
  obtain ⟨hcfg, hlen, hslots, hpend, -⟩ := h
  exact ⟨hcfg, hlen, hslots, hpend, rfl, rfl, rfl⟩

theorem State.Same.present {s t : State} (h : s.Same t) (input : HostInput) (rest : List Event) :
    (s.present input rest).Same (t.present input rest) := by
  obtain ⟨hcfg, hlen, hslots, -⟩ := h
  exact ⟨hcfg, hlen, hslots, rfl, rfl, rfl, rfl⟩

theorem State.Same.idle {s t : State} (h : s.Same t) : s.idle.Same t.idle := by
  obtain ⟨hcfg, hlen, hslots, hpend, -⟩ := h
  exact ⟨hcfg, hlen, hslots, hpend, rfl, rfl, rfl⟩

/-- Every state is like itself. -/
theorem State.Same.refl (s : State) : s.Same s := by
  refine ⟨rfl, rfl, fun n x y hx hy => ?_, rfl, rfl, rfl, rfl⟩
  obtain rfl : x = y := Option.some.inj (hx.symm.trans hy)
  exact ⟨rfl, rfl, rfl, fun _ _ => rfl⟩

/-- A command takes good like states to like states (10_state.md R20). -/
theorem exec_same (i : Instr) (s t s' : State) (hs : s.wf) (ht : t.wf) (h : s.Same t) (hexec : exec i s = .next s') :
    ∃ t', exec i t = .next t' ∧ s'.Same t' := by
  have halike := exec_alike i s t (.of_same i s t hs h)
  rw [hexec] at halike
  rcases halike.next_cases with ⟨r, rfl, ht'⟩ | ⟨b, a, sl, m, r, -, hsl, -, hfits, rfl, ht'⟩
  · exact ⟨_, ht', h.respond r⟩
  · have hx := State.slot_wf s hs b sl hsl.left
    obtain ⟨-, -, -, hm, -⟩ := State.slot_wf t ht b _ hsl.right
    have hagree := hsl.shown.agreeBelow (.inl le_rfl)
    obtain ⟨hcfg, -⟩ := hs
    exact ⟨_, ht', h.setSlot_respond b (a.apply_same s.cfg hcfg sl m hfits hx hm hagree) r⟩

/-- Settles O23: like states take the same kind of step, and each kind keeps them alike. -/
theorem staleBytesUnobservable : Obligations.StaleBytesUnobservable := by
  intro s t s' hs ht h hstep
  have ⟨hcfg, _, _, hpend, _⟩ := h
  rcases step_cases s with ⟨hp, hidle⟩ | ⟨rest, hp, hreset⟩ | ⟨p, input, rest, e, hp, hd, hillegal⟩ |
    ⟨p, input, rest, i, hp, hd, hrun⟩
  · obtain rfl := Host.Outcome.next.inj (hidle.symm.trans hstep)
    have ht' : step t = .next t.idle := by simp only [step, ← hpend, hp]
    exact ⟨_, ht', h.idle⟩
  · obtain rfl := Host.Outcome.next.inj (hreset.symm.trans hstep)
    have ht' : step t = .next (s.resetTo rest) := by simp only [step, ← hpend, hp, State.resetTo, hcfg]
    exact ⟨_, ht', .refl _⟩
  · obtain rfl := Host.Outcome.next.inj (hillegal.symm.trans hstep)
    have ht' : step t = raise (decodeStatus e) (t.present input rest) := by
      simp only [step, ← hpend, hp, runPacket, hd]
    exact ⟨_, ht', (h.present input rest).respond _⟩
  · have ht' : step t = exec i (t.present input rest) := by simp only [step, ← hpend, hp, runPacket, hd]
    rw [ht']
    exact exec_same i _ _ s' (State.present_wf s hs input rest) (State.present_wf t ht input rest)
      (h.present input rest) (hrun.symm.trans hstep)

/-- Settles O11: the four kinds of step each keep what is said, and each starts from a state in which the fields of the
ports have been written anew. -/
theorem nothingElseSurvives : Obligations.NothingElseSurvives := by
  refine ⟨step_next_ports, fun s s' hcfg hslots hpend => ?_⟩
  have hidle : s'.idle = s.idle := by simp only [State.idle, hcfg, hslots, hpend]
  have hpresent (input : HostInput) (rest : List Event) : s'.present input rest = s.present input rest := by
    simp only [State.present, hcfg, hslots]
  simp only [step, State.resetTo, hpend, hcfg, hidle, hpresent]

/-! ### The frame -/

/-- Settles O19: a command sets no slot but the one its `BUF` field names. -/
theorem otherSlotsUntouched : Obligations.OtherSlotsUntouched := by
  intro i s t n hexec hother
  obtain ⟨hcfg, hpend, hlen, -⟩ := exec_next_ports i s t hexec
  refine ⟨?_, hlen, hcfg, hpend⟩
  rcases exec_cases i s t hexec with ⟨r, rfl⟩ | ⟨b, a, sl, r, hb, -, -, -, rfl⟩
  · rfl
  · exact List.getElem?_set_ne (hother b hb)

/-- What each action may change of its slot, by the commands that do it (10_state.md R12). -/
theorem SlotAction.apply_writers (cfg : Config) (a : SlotAction) (sl : Slot) (op : Opcode) (hfits : a.Fits cfg sl)
    (hop : op ∈ a.opcodes) :
    (sl.valid ≠ (a.apply sl).valid →
      op = .create ∧ (a.apply sl).valid = true ∨ op = .destroy ∧ (a.apply sl).valid = false) ∧
    (sl.bitCount ≠ (a.apply sl).bitCount →
      op ∈ [.create, .destroy, .write, .wrun, .wreg, .align, .skip, .refill, .flush]) ∧
    (sl.cursor ≠ (a.apply sl).cursor →
      op ∈ [.create, .destroy, .align, .skip, .read, .write, .rdun, .wrun, .rdeg, .wreg, .refill, .flush]) ∧
    (sl.bytes ≠ (a.apply sl).bytes →
      op ∈ [.create, .destroy, .write, .wrun, .wreg, .align, .skip, .refill, .flush]) := by
  have mem {l l' : List Opcode} (h : op ∈ l) (hsub : l ⊆ l' := by decide) : op ∈ l' := hsub h
  cases a with
  | create cap =>
    obtain rfl := List.mem_singleton.mp hop
    exact ⟨fun _ => .inl ⟨rfl, rfl⟩, fun _ => by decide, fun _ => by decide, fun _ => by decide⟩
  | destroy =>
    obtain rfl := List.mem_singleton.mp hop
    exact ⟨fun _ => .inr ⟨rfl, rfl⟩, fun _ => by decide, fun _ => by decide, fun _ => by decide⟩
  | advance u =>
    have hop : op ∈ [.read, .rdun, .rdeg] := hop
    exact ⟨absurd rfl, absurd rfl, fun _ => mem hop, absurd rfl⟩
  | put u f =>
    have hop : op ∈ [.align, .skip, .write, .wrun, .wreg] := hop
    exact ⟨absurd (sl.growTo_valid u).symm, fun _ => mem hop, fun _ => mem hop, fun _ => mem hop⟩
  | refill fresh =>
    have hop : op ∈ [.refill] := hop
    exact ⟨absurd rfl, fun _ => mem hop, fun _ => mem hop, fun _ => mem hop⟩
  | flush k =>
    have hop : op ∈ [.flush] := hop
    exact ⟨absurd rfl, fun _ => mem hop, fun _ => mem hop, fun _ => mem hop⟩

/-- Settles O21: the command's own slot has changed by an action of the command, every other slot not at all. -/
theorem whoWritesWhat : Obligations.WhoWritesWhat := by
  intro i s t b x y hexec hx hy
  have unchanged (hyx : s.slot? b = some y) : x = y := Option.some.inj (hx.symm.trans hyx)
  rcases exec_cases i s t hexec with ⟨r, rfl⟩ | ⟨b', a, sl, r, -, hsl, hop, hfits, rfl⟩
  · obtain rfl := unchanged hy
    exact ⟨fun h => absurd rfl h, fun h => absurd rfl h, fun h => absurd rfl h, fun h => absurd rfl h⟩
  · by_cases hb : b = b'
    · subst hb
      obtain rfl : x = sl := Option.some.inj (hx.symm.trans hsl)
      rw [State.slot?_respond, State.slot?_setSlot_same s b x _ hx] at hy
      obtain rfl := Option.some.inj hy
      exact a.apply_writers s.cfg x (opcodeOf i) hfits hop
    · rw [State.slot?_respond, State.slot?_setSlot_other s b' b _ hb] at hy
      obtain rfl := unchanged hy
      exact ⟨fun h => absurd rfl h, fun h => absurd rfl h, fun h => absurd rfl h, fun h => absurd rfl h⟩

/-! ### The state after reset -/

/-- The table of a function gives the function back. -/
theorem byteTable_getD (f : Byte → Byte) (x : Byte) : (byteTable f).getD x.toNat 0 = f x := by
  simp [byteTable, x.isLt]

/-- The slots of the state after reset. -/
theorem State.mem_reset_slots {sl : Slot} (h : sl ∈ State.reset.slots) : sl = Slot.empty :=
  List.eq_of_mem_replicate h

/-- Settles O9: every slot is the empty slot, and the table is that of `bitrev8`. -/
theorem resetStateIsGood : Obligations.ResetStateIsGood := by
  have htable : (byteTable bitrev8).length = 256 := by simp only [byteTable, List.length_map, List.length_range]
  have hcfg : State.reset.cfg.wf := ⟨by decide, by decide, htable⟩
  refine ⟨⟨hcfg, rfl, fun sl hsl => ?_⟩, rfl, rfl, rfl, rfl, fun sl hsl => ?_, fun x j hj => ?_⟩
  · exact State.mem_reset_slots hsl ▸ Slot.empty_wf _
  · exact State.mem_reset_slots hsl ▸ ⟨rfl, rfl, rfl⟩
  · have hx : State.reset.cfg.crcBeXform x = x.reverse := byteTable_getD bitrev8 x
    rw [hx, BitVec.getLsbD_reverse, BitVec.getMsbD_eq_getLsbD]
    simp [hj]

end Sys2Proof.Machine
end

section
/-! The statements about one step and about growth (20_memory.md R36, R40). -/

namespace Sys2Proof.Machine

/-! ### One step -/

/-- A step at a command packet that decodes (20_memory.md R40; 30_encoding.md R57). -/
theorem step_of_decode (s : State) (p : Packet) (input : HostInput) (rest : List Event) (i : Instr)
    (hp : s.pending = .command p input :: rest) (hd : decode p = .ok i) :
    step s = exec i (s.present input rest) := by
  simp only [step, hp, runPacket, hd]

/-- A step at which nothing is presented (log entry 6). -/
theorem step_of_nothing_pending (s : State) (hp : s.pending = []) : step s = .next s.idle := by
  simp only [step, hp]

/-- The host reads an instruction from a word exactly where the word's packet decodes to it (log entry 9). -/
theorem decodeTableWord_eq_some (nbits w : Nat) (i : Instr) :
    decodeTableWord nbits w = some i ↔ decode (packetOfBits nbits w) = .ok i := by
  simp only [decodeTableWord]
  cases decode (packetOfBits nbits w) with
  | error e => exact ⟨nofun, nofun⟩
  | ok j => simp only [Option.some.injEq, Except.ok.injEq]

/-- Settles O6: both halves are the step at a command packet that decodes; the word of the second half is such a packet,
put before all pending events. -/
theorem stepRunsDecoded : Obligations.StepRunsDecoded :=
  ⟨step_of_decode, fun s nbits w i hword =>
    step_of_decode (s.withFetchWord nbits w) (packetOfBits nbits w) ⟨[], 0⟩ s.pending i rfl
      ((decodeTableWord_eq_some nbits w i).mp hword)⟩

/-- Settles O10: the next state is the idle one, which differs from the old in the port fields only. -/
theorem idleStep : Obligations.IdleStep := fun s hp =>
  ⟨s.idle, step_of_nothing_pending s hp, s.idle_slots, s.idle_cfg, s.idle_pending.trans hp, s.idle_response⟩

/-! ### Growth -/

/-- What a command has done to one slot, seen from the slot: nothing, or one of its own actions. -/
theorem exec_slot_cases (i : Instr) (s t : State) (b : SlotNo) (x y : Slot) (hexec : exec i s = .next t)
    (hx : s.slot? b = some x) (hy : t.slot? b = some y) :
    y = x ∨ ∃ a : SlotAction, opcodeOf i ∈ a.opcodes ∧ a.Fits s.cfg x ∧ y = a.apply x := by
  rcases exec_cases i s t hexec with ⟨r, rfl⟩ | ⟨b', a, sl, r, -, hsl, hop, hfits, rfl⟩
  · exact .inl (Option.some.inj (hy.symm.trans hx))
  · rw [State.slot?_respond] at hy
    by_cases hb : b = b'
    · subst hb
      obtain rfl : x = sl := Option.some.inj (hx.symm.trans hsl)
      rw [State.slot?_setSlot_same s b x _ hx] at hy
      exact .inr ⟨a, hop, hfits, (Option.some.inj hy).symm⟩
    · rw [State.slot?_setSlot_other s b' b _ hb] at hy
      exact .inl (Option.some.inj (hy.symm.trans hx))

/-- A buffer that `growTo` has made longer ends at the target (20_memory.md R36). -/
theorem Slot.growTo_bitCount_of_lt (sl : Slot) (u : Nat) (h : sl.bitCount.toNat < (sl.growTo u).bitCount.toNat) :
    (sl.growTo u).bitCount = BitVec.ofNat 64 u := by
  by_cases hu : u > sl.bitCount.toNat
  · rw [Slot.growTo, if_pos hu, Slot.grow_bitCount]
  · rw [Slot.growTo, if_neg hu] at h
    exact absurd h (Nat.lt_irrefl _)

/-- Which actions raise `BIT_COUNT`, by the commands that do them, and how far (20_memory.md R36). -/
theorem SlotAction.apply_growth (a : SlotAction) (sl : Slot) (op : Opcode) (hop : op ∈ a.opcodes)
    (hraised : sl.bitCount.toNat < (a.apply sl).bitCount.toNat) :
    op = .create ∨ op = .refill ∨
      op ∈ [.align, .skip, .write, .wrun, .wreg] ∧ (a.apply sl).bitCount = (a.apply sl).cursor := by
  cases a with
  | create cap => exact .inl (List.mem_singleton.mp hop)
  | destroy => exact absurd hraised (Nat.not_lt_zero _)
  | advance u => exact absurd hraised (Nat.lt_irrefl _)
  | put u f => exact .inr (.inr ⟨hop, sl.growTo_bitCount_of_lt u hraised⟩)
  | refill fresh => exact .inr (.inl (List.mem_singleton.mp hop))
  | flush k =>
    have hle : (BitVec.ofNat 64 (sl.bitCount.toNat - 8 * k)).toNat ≤ sl.bitCount.toNat := by
      rw [BitVec.toNat_ofNat]
      exact (Nat.mod_le _ _).trans (Nat.sub_le _ _)
    exact absurd hraised (Nat.not_lt_of_le hle)

/-- Settles O22: a slot whose `BIT_COUNT` has risen has been changed by an action of the command, and only `put` raises it
outside `CREATE` and `REFILL`. -/
theorem growthIsExact : Obligations.GrowthIsExact := by
  intro i s t b x y _ hexec hx hy hraised
  rcases exec_slot_cases i s t b x y hexec hx hy with rfl | ⟨a, hop, -, rfl⟩
  · exact absurd hraised (Nat.lt_irrefl _)
  · exact a.apply_growth x (opcodeOf i) hop hraised

end Sys2Proof.Machine
end

section
/-! The statements about packets and decoding (30_encoding.md R52, R54, R56, R57). Each header form is the header it was
read from, because the bits its rows' mask leaves free are the bits of its fields; each operand form accepts exactly the
operand words and the payload of its rows; and the decoder and the encoder are inverse row by row. -/

namespace Sys2Proof

open Sys2Proof.Machine

/-! ### Each header from the fields read from it -/

section
variable (h : Header) (opc : BitVec 8)

@[simp] theorem byoOf_code : (byoOf h).code = BitVec.ofBool (h.getLsbD 12) := by
  cases hb : h.getLsbD 12 <;> simp only [byoOf, hb] <;> rfl

@[simp] theorem bioOf_code : (bioOf h).code = BitVec.ofBool (h.getLsbD 13) := by
  cases hb : h.getLsbD 13 <;> simp only [bioOf, hb] <;> rfl

@[simp] theorem flavorOf_code : (flavorOf h).code = BitVec.ofBool (h.getLsbD 23) := by
  cases hb : h.getLsbD 23 <;> simp only [flavorOf, hb] <;> rfl

@[simp] theorem sgnOf_code : (sgnOf h).code = BitVec.ofBool (h.getLsbD 24) := by
  cases hb : h.getLsbD 24 <;> simp only [sgnOf, hb] <;> rfl

@[simp] theorem beOf_code : (beOf h).code = BitVec.ofBool (h.getLsbD 26) := by
  cases hb : h.getLsbD 26 <;> simp only [beOf, hb] <;> rfl

/-- Headers that agree under a mask and on the bits it leaves free are equal. -/
theorem header_eq_of_and_eq {h h' : Header} (mask : Header) (hand : h &&& mask = h' &&& mask)
    (hfree : ∀ i, i < 32 → mask.getLsbD i = false → h.getLsbD i = h'.getLsbD i) : h = h' := by
  apply BitVec.eq_of_getLsbD_eq
  intro i hi
  cases hm : mask.getLsbD i with
  | false => exact hfree i hi hm
  | true => simpa [hm] using congrArg (·.getLsbD i) hand

theorem bufHeader_bufOf (hsel : h &&& 0xFFFFF0FF#32 = opc.setWidth 32) : bufHeader (bufOf h) opc = h := by
  refine header_eq_of_and_eq 0xFFFFF0FF#32 ((bufHeader_and _ opc).trans hsel.symm) fun i hi hm => ?_
  have hfield : 8 ≤ i ∧ i < 12 := by revert i; decide
  obtain ⟨hlo, hhi⟩ := hfield
  simp only [bufHeader, header_getLsbD, bufOf]
  interval_cases i <;> simp

theorem fieldHeader_fieldsOf (hsel : h &&& 0xFF80C0FF#32 = opc.setWidth 32) :
    fieldHeader (bufOf h) (policyOf h) (widthOf h) opc = h := by
  refine header_eq_of_and_eq 0xFF80C0FF#32 ((fieldHeader_and _ _ opc _).trans hsel.symm) fun i hi hm => ?_
  have hfields : 8 ≤ i ∧ i < 14 ∨ 16 ≤ i ∧ i < 23 := by revert i; decide
  simp only [fieldHeader, header_getLsbD, bufOf, policyOf, widthOf]
  rcases hfields with ⟨hlo, hhi⟩ | ⟨hlo, hhi⟩ <;> interval_cases i <;> simp

theorem unaryHeader_fieldsOf (hsel : h &&& 0xFF7F00FF#32 = opc.setWidth 32) :
    unaryHeader (bufOf h) (policyOf h) (flavorOf h) (stopOf h) opc = h := by
  refine header_eq_of_and_eq 0xFF7F00FF#32 ((unaryHeader_and _ _ opc _ _).trans hsel.symm) fun i hi hm => ?_
  have hfields : 8 ≤ i ∧ i < 16 ∨ i = 23 := by revert i; decide
  simp only [unaryHeader, header_getLsbD, bufOf, policyOf, stopOf]
  rcases hfields with ⟨hlo, hhi⟩ | rfl
  · interval_cases i <;> simp
  · simp

theorem golombHeader_fieldsOf (hsel : h &&& 0xFEFF00FF#32 = opc.setWidth 32) :
    golombHeader (bufOf h) (policyOf h) (sgnOf h) (stopOf h) opc = h := by
  refine header_eq_of_and_eq 0xFEFF00FF#32 ((golombHeader_and _ _ opc _ _).trans hsel.symm) fun i hi hm => ?_
  have hfields : 8 ≤ i ∧ i < 16 ∨ i = 24 := by revert i; decide
  simp only [golombHeader, header_getLsbD, bufOf, policyOf, stopOf]
  rcases hfields with ⟨hlo, hhi⟩ | rfl
  · interval_cases i <;> simp
  · simp

theorem crcHeader_fieldsOf (hsel : h &&& 0xFB80FFFF#32 = opc.setWidth 32) :
    crcHeader (widthOf h) (beOf h) opc = h := by
  refine header_eq_of_and_eq 0xFB80FFFF#32 ((crcHeader_and _ opc _).trans hsel.symm) fun i hi hm => ?_
  have hfields : 16 ≤ i ∧ i < 23 ∨ i = 26 := by revert i; decide
  simp only [crcHeader, header_getLsbD, widthOf]
  rcases hfields with ⟨hlo, hhi⟩ | rfl
  · interval_cases i <;> simp
  · simp

end

/-! ### What each operand form accepts -/

section
variable {a : List Word} {pl : List Byte} {i : Instr}

theorem noWord_eq_some {j : Instr} : noWord j a pl = some i ↔ a = [] ∧ pl = [] ∧ j = i := by
  unfold noWord
  split <;> simp_all

theorem oneWord_eq_some {f : Word → Instr} : oneWord f a pl = some i ↔ ∃ x, a = [x] ∧ pl = [] ∧ f x = i := by
  unfold oneWord
  split <;> simp_all

theorem crcGenWords_eq_some {w : WidthField} {be : DataOrder} :
    crcGenWords w be a pl = some i ↔
      ∃ poly start len, a = [poly, start, len] ∧ pl.length = len.toNat ∧ .crcgen w be poly start pl = i := by
  unfold crcGenWords
  split <;> simp_all

theorem crcVfyWords_eq_some {w : WidthField} {be : DataOrder} :
    crcVfyWords w be a pl = some i ↔
      ∃ poly start len embedded, a = [poly, start, len, embedded] ∧ pl.length = len.toNat ∧
        .crcvfy w be poly start embedded pl = i := by
  unfold crcVfyWords
  split <;> simp_all

theorem exists_noWord_iff {j : Instr} : (∃ i, noWord j a pl = some i) ↔ a.length = 0 ∧ pl = [] := by
  simp [noWord_eq_some]

theorem exists_oneWord_iff {f : Word → Instr} : (∃ i, oneWord f a pl = some i) ↔ a.length = 1 ∧ pl = [] := by
  simp [oneWord_eq_some, List.length_eq_one_iff]

theorem exists_crcGenWords_iff {w : WidthField} {be : DataOrder} :
    (∃ i, crcGenWords w be a pl = some i) ↔ a.length = 3 ∧ a[2]?.map BitVec.toNat = some pl.length := by
  constructor
  · rintro ⟨i, h⟩
    obtain ⟨poly, start, len, rfl, hlen, -⟩ := crcGenWords_eq_some.mp h
    exact ⟨rfl, congrArg some hlen.symm⟩
  · rintro ⟨hcount, hlen⟩
    obtain ⟨poly, start, len, rfl⟩ := List.length_eq_three.mp hcount
    exact ⟨_, crcGenWords_eq_some.mpr ⟨poly, start, len, rfl, (Option.some.inj hlen).symm, rfl⟩⟩

theorem exists_crcVfyWords_iff {w : WidthField} {be : DataOrder} :
    (∃ i, crcVfyWords w be a pl = some i) ↔ a.length = 4 ∧ a[2]?.map BitVec.toNat = some pl.length := by
  constructor
  · rintro ⟨i, h⟩
    obtain ⟨poly, start, len, embedded, rfl, hlen, -⟩ := crcVfyWords_eq_some.mp h
    exact ⟨rfl, congrArg some hlen.symm⟩
  · rintro ⟨hcount, hlen⟩
    match a, hcount with
    | [poly, start, len, embedded], _ =>
      exact ⟨_, crcVfyWords_eq_some.mpr ⟨poly, start, len, embedded, rfl, (Option.some.inj hlen).symm, rfl⟩⟩

end

/-! ### The rows -/

/-- The map lists the rows in the order of the opcodes, so the opcode of a row says which row it is. -/
theorem opcodeMap_getElem?_op : ∀ r ∈ opcodeMap, opcodeMap[r.op.ctorIdx]? = some r := by decide

theorem rowOf_eq_some_iff {h : Header} {r : Row} : rowOf h = some r ↔ r ∈ opcodeMap ∧ h &&& r.mask = r.pattern := by
  constructor
  · intro hrow
    have hsel : r.selects h = true := List.find?_some (p := fun r : Row => r.selects h) hrow
    exact ⟨List.mem_of_find?_eq_some hrow, by simpa [Row.selects] using hsel⟩
  · rintro ⟨hr, hsel⟩
    exact rowOf_of_and _ _ _ h _ hr hsel

theorem rowOf_eq_none_iff {h : Header} : rowOf h = none ↔ ∀ r ∈ opcodeMap, h &&& r.mask ≠ r.pattern := by
  simp [rowOf, Row.selects]

/-- A row's operand words and payload make an instruction exactly where they fit the row (30_encoding.md R57 item 2). -/
theorem exists_build_iff (r : Row) (hr : r ∈ opcodeMap) (p : Packet) :
    (∃ i, r.op.build p.header p.operands p.payload = some i) ↔ RowFits r p := by
  obtain ⟨op, mask, pattern, words⟩ := r
  have hrow := opcodeMap_getElem?_op _ hr
  cases op <;> cases hrow
  case destroy | bitlen | pos | peek | read | rdun | rdeg | flush => exact exists_noWord_iff
  case create | isalign | align | skip | write | wrun | wreg | refill => exact exists_oneWord_iff
  case crcgen => exact exists_crcGenWords_iff
  case crcvfy => exact exists_crcVfyWords_iff

/-! ### Encoding what has been built, by operand form -/

section
variable {a : List Word} {pl : List Byte} {i : Instr} {h hd : Header}

theorem encode_of_noWord {j : Instr} (hhd : hd = h) (henc : encode j = ⟨hd, [], []⟩) (hwf : j.wf = true)
    (hb : noWord j a pl = some i) : encode i = ⟨h, a, pl⟩ ∧ i.wf = true := by
  obtain ⟨rfl, rfl, rfl⟩ := noWord_eq_some.mp hb
  exact ⟨hhd ▸ henc, hwf⟩

theorem encode_of_oneWord {f : Word → Instr} (hhd : hd = h) (henc : ∀ x, encode (f x) = ⟨hd, [x], []⟩)
    (hwf : ∀ x, (f x).wf = true) (hb : oneWord f a pl = some i) : encode i = ⟨h, a, pl⟩ ∧ i.wf = true := by
  obtain ⟨x, rfl, rfl, rfl⟩ := oneWord_eq_some.mp hb
  exact ⟨hhd ▸ henc x, hwf x⟩

/-- A payload whose length is the operand word `A2` gives that word back, and fits. -/
theorem lengthWord_of_length_eq {len : Word} (hlen : pl.length = len.toNat) :
    lengthWord pl = len ∧ payloadFits pl = true := by
  refine ⟨by rw [lengthWord, hlen, BitVec.ofNat_toNat, BitVec.setWidth_eq], ?_⟩
  simpa [payloadFits, hlen] using len.isLt

theorem encode_of_crcGenWords {w : WidthField} {be : DataOrder} (hhd : crcHeader w be 0x30 = h)
    (hb : crcGenWords w be a pl = some i) : encode i = ⟨h, a, pl⟩ ∧ i.wf = true := by
  obtain ⟨poly, start, len, rfl, hlen, rfl⟩ := crcGenWords_eq_some.mp hb
  obtain ⟨hword, hfits⟩ := lengthWord_of_length_eq hlen
  exact ⟨by rw [encode, hhd, hword], hfits⟩

theorem encode_of_crcVfyWords {w : WidthField} {be : DataOrder} (hhd : crcHeader w be 0x31 = h)
    (hb : crcVfyWords w be a pl = some i) : encode i = ⟨h, a, pl⟩ ∧ i.wf = true := by
  obtain ⟨poly, start, len, embedded, rfl, hlen, rfl⟩ := crcVfyWords_eq_some.mp hb
  obtain ⟨hword, hfits⟩ := lengthWord_of_length_eq hlen
  exact ⟨by rw [encode, hhd, hword], hfits⟩

/-- The instruction built under a row that the header selects encodes to the packet it was built from. -/
theorem encode_of_build (r : Row) (hr : r ∈ opcodeMap) (hsel : h &&& r.mask = r.pattern)
    (hb : r.op.build h a pl = some i) : encode i = ⟨h, a, pl⟩ ∧ i.wf = true := by
  obtain ⟨op, mask, pattern, words⟩ := r
  have hrow := opcodeMap_getElem?_op _ hr
  cases op <;> cases hrow
  case create => exact encode_of_oneWord (bufHeader_bufOf h 0x01 hsel) (fun _ => rfl) (fun _ => rfl) hb
  case destroy => exact encode_of_noWord (bufHeader_bufOf h 0x02 hsel) rfl rfl hb
  case bitlen => exact encode_of_noWord (bufHeader_bufOf h 0x03 hsel) rfl rfl hb
  case pos => exact encode_of_noWord (bufHeader_bufOf h 0x04 hsel) rfl rfl hb
  case isalign => exact encode_of_oneWord (bufHeader_bufOf h 0x05 hsel) (fun _ => rfl) (fun _ => rfl) hb
  case align => exact encode_of_oneWord (bufHeader_bufOf h 0x06 hsel) (fun _ => rfl) (fun _ => rfl) hb
  case skip => exact encode_of_oneWord (bufHeader_bufOf h 0x07 hsel) (fun _ => rfl) (fun _ => rfl) hb
  case peek => exact encode_of_noWord (fieldHeader_fieldsOf h 0x10 hsel) rfl rfl hb
  case read => exact encode_of_noWord (fieldHeader_fieldsOf h 0x11 hsel) rfl rfl hb
  case write => exact encode_of_oneWord (fieldHeader_fieldsOf h 0x12 hsel) (fun _ => rfl) (fun _ => rfl) hb
  case rdun => exact encode_of_noWord (unaryHeader_fieldsOf h 0x20 hsel) rfl rfl hb
  case wrun => exact encode_of_oneWord (unaryHeader_fieldsOf h 0x21 hsel) (fun _ => rfl) (fun _ => rfl) hb
  case rdeg => exact encode_of_noWord (golombHeader_fieldsOf h 0x22 hsel) rfl rfl hb
  case wreg => exact encode_of_oneWord (golombHeader_fieldsOf h 0x23 hsel) (fun _ => rfl) (fun _ => rfl) hb
  case crcgen => exact encode_of_crcGenWords (crcHeader_fieldsOf h 0x30 hsel) hb
  case crcvfy => exact encode_of_crcVfyWords (crcHeader_fieldsOf h 0x31 hsel) hb
  case refill => exact encode_of_oneWord (bufHeader_bufOf h 0x40 hsel) (fun _ => rfl) (fun _ => rfl) hb
  case flush => exact encode_of_noWord (bufHeader_bufOf h 0x41 hsel) rfl rfl hb

end

/-! ### Building from what has been encoded -/

theorem encodesUnderItsRow (i : Instr) : Laws.EncodesUnderItsRow.Statement i := by
  cases i with
  | create b cap => exact Laws.EncodesUnderItsRow.create b cap
  | destroy b => exact Laws.EncodesUnderItsRow.destroy b
  | bitlen b => exact Laws.EncodesUnderItsRow.bitlen b
  | pos b => exact Laws.EncodesUnderItsRow.pos b
  | isalign b g => exact Laws.EncodesUnderItsRow.isalign b g
  | align b g => exact Laws.EncodesUnderItsRow.align b g
  | skip b delta => exact Laws.EncodesUnderItsRow.skip b delta
  | peek b pp w => exact Laws.EncodesUnderItsRow.peek b pp w
  | read b pp w => exact Laws.EncodesUnderItsRow.read b pp w
  | write b pp w value => exact Laws.EncodesUnderItsRow.write b pp w value
  | rdun b pp flavor stop => exact Laws.EncodesUnderItsRow.rdun b pp flavor stop
  | wrun b pp flavor stop value => exact Laws.EncodesUnderItsRow.wrun b pp flavor stop value
  | rdeg b pp sgn stop => exact Laws.EncodesUnderItsRow.rdeg b pp sgn stop
  | wreg b pp sgn stop value => exact Laws.EncodesUnderItsRow.wreg b pp sgn stop value
  | crcgen w be poly start data => exact Laws.EncodesUnderItsRow.crcgen w be poly start data
  | crcvfy w be poly start embedded data => exact Laws.EncodesUnderItsRow.crcvfy w be poly start embedded data
  | refill b n => exact Laws.EncodesUnderItsRow.refill b n
  | flush b => exact Laws.EncodesUnderItsRow.flush b

/-- The length of a payload that fits is the value of its operand word `A2` (30_encoding.md R51). -/
theorem length_eq_lengthWord {data : List Byte} (h : payloadFits data = true) :
    data.length = (lengthWord data).toNat := by
  rw [lengthWord, BitVec.toNat_ofNat, Nat.mod_eq_of_lt (of_decide_eq_true h)]

/-- The fields, the operand words and the payload of an encoded instruction build it again. -/
theorem build_encode (i : Instr) (hwf : i.wf = true) :
    (opcodeOf i).build (encode i).header (encode i).operands (encode i).payload = some i := by
  cases i with
  | create b | destroy b | bitlen b | pos b | isalign b | align b | skip b | refill b | flush b =>
    simp only [opcodeOf, Opcode.build, encode, noWord, oneWord, bufHeader, bufOf_header]
  | peek b pp w | read b pp w | write b pp w =>
    simp only [opcodeOf, Opcode.build, encode, noWord, oneWord, fieldHeader, bufOf_header, policyOf_header,
      widthOf_header]
  | rdun b pp flavor stop | wrun b pp flavor stop =>
    simp only [opcodeOf, Opcode.build, encode, noWord, oneWord, unaryHeader, bufOf_header, policyOf_header,
      flavorOf_header, stopOf_header]
  | rdeg b pp sgn stop | wreg b pp sgn stop =>
    simp only [opcodeOf, Opcode.build, encode, noWord, oneWord, golombHeader, bufOf_header, policyOf_header,
      sgnOf_header, stopOf_header]
  | crcgen w be poly start data =>
    simp only [opcodeOf, Opcode.build, encode, crcGenWords, crcHeader, widthOf_header, beOf_header,
      if_pos (length_eq_lengthWord hwf)]
  | crcvfy w be poly start embedded data =>
    simp only [opcodeOf, Opcode.build, encode, crcVfyWords, crcHeader, widthOf_header, beOf_header,
      if_pos (length_eq_lengthWord hwf)]

/-! ### The decoder -/

/-- Everything the decoder can do (30_encoding.md R57). -/
theorem decode_cases (p : Packet) :
    (rowOf p.header = none ∧ decode p = .error .encoding) ∨
    ∃ r, rowOf p.header = some r ∧
      ((r.op.build p.header p.operands p.payload = none ∧ decode p = .error .packet) ∨
        ∃ i, r.op.build p.header p.operands p.payload = some i ∧ decode p = .ok i) := by
  unfold decode
  cases rowOf p.header with
  | none => exact .inl ⟨rfl, rfl⟩
  | some r =>
    refine .inr ⟨r, rfl, ?_⟩
    cases hb : r.op.build p.header p.operands p.payload with
    | none => exact .inl ⟨rfl, by simp only [hb]⟩
    | some i => exact .inr ⟨i, rfl, by simp only [hb]⟩

/-- A packet decodes to what its row builds. -/
theorem decode_eq_ok_iff (p : Packet) (i : Instr) :
    decode p = .ok i ↔ ∃ r, rowOf p.header = some r ∧ r.op.build p.header p.operands p.payload = some i := by
  rcases decode_cases p with ⟨hrow, hd⟩ | ⟨r, hrow, ⟨hb, hd⟩ | ⟨j, hb, hd⟩⟩
  · simp [hrow, hd]
  · simp [hrow, hb, hd]
  · simp [hrow, hb, hd]

/-- Settles O1: the header selects the instruction's own row, and that row builds the instruction. -/
theorem decodeOfEncode : Obligations.DecodeOfEncode := by
  intro i hwf
  obtain ⟨r, hrow, hop, -⟩ := encodesUnderItsRow i
  exact (decode_eq_ok_iff _ i).mpr ⟨r, hrow, hop ▸ build_encode i hwf⟩

/-- Settles O2: what the selected row builds encodes to what it was built from. -/
theorem encodeOfDecode : Obligations.EncodeOfDecode := by
  intro p i hd
  obtain ⟨r, hrow, hb⟩ := (decode_eq_ok_iff p i).mp hd
  obtain ⟨hr, hsel⟩ := rowOf_eq_some_iff.mp hrow
  exact encode_of_build r hr hsel hb

/-- A packet decodes to an instruction of the row its header selects. -/
theorem opcodeOf_of_decode {p : Packet} {i : Instr} {r : Row} (hd : decode p = .ok i) (hrow : rowOf p.header = some r) :
    opcodeOf i = r.op := by
  obtain ⟨henc, -⟩ := encodeOfDecode p i hd
  obtain ⟨r', hrow', hop, -⟩ := encodesUnderItsRow i
  rw [henc, hrow] at hrow'
  cases hrow'
  exact hop.symm

/-- A packet whose header selects a row decodes, to some instruction, exactly where it fits the row. -/
theorem exists_decode_iff {p : Packet} {r : Row} (hrow : rowOf p.header = some r) :
    (∃ i, decode p = .ok i) ↔ RowFits r p := by
  obtain ⟨hr, -⟩ := rowOf_eq_some_iff.mp hrow
  simp only [decode_eq_ok_iff, hrow, Option.some.injEq, exists_eq_left', ← exists_build_iff r hr p]

theorem decode_eq_packet_error {p : Packet} {r : Row} (hrow : rowOf p.header = some r) (hfits : ¬ RowFits r p) :
    decode p = .error .packet := by
  rcases decode_cases p with ⟨hnone, -⟩ | ⟨-, -, ⟨-, hd⟩ | ⟨i, -, hd⟩⟩
  · exact absurd (hrow.symm.trans hnone) nofun
  · exact hd
  · exact absurd ((exists_decode_iff hrow).mp ⟨i, hd⟩) hfits

theorem decode_eq_encoding_error {p : Packet} (hrow : rowOf p.header = none) : decode p = .error .encoding := by
  simp only [decode, hrow]

/-- A step at a command packet that does not decode (30_encoding.md R57). -/
theorem step_of_decode_error (s : State) (p : Packet) (input : HostInput) (rest : List Event) (e : DecodeError)
    (hp : s.pending = .command p input :: rest) (hd : decode p = .error e) :
    step s = raise (decodeStatus e) (s.present input rest) := by
  simp only [step, hp, runPacket, hd]

/-- Settles O3: the three outcomes of the decoder, each with the step it leads to. -/
theorem decodingIsTotal : Obligations.DecodingIsTotal := by
  refine ⟨rfl, rfl, fun s p input rest hp => ⟨fun hnone => ?_, fun r hr hsel => ?_⟩⟩
  · exact step_of_decode_error s p input rest .encoding hp (decode_eq_encoding_error (rowOf_eq_none_iff.mpr hnone))
  · have hrow := rowOf_eq_some_iff.mpr ⟨hr, hsel⟩
    refine ⟨fun hfits => ?_, fun hfits => ?_⟩
    · exact step_of_decode_error s p input rest .packet hp (decode_eq_packet_error hrow hfits)
    · obtain ⟨i, hd⟩ := (exists_decode_iff hrow).mpr hfits
      obtain ⟨henc, -⟩ := encodeOfDecode p i hd
      exact ⟨i, opcodeOf_of_decode hd hrow, henc, step_of_decode s p input rest i hp hd⟩

end Sys2Proof
end

section
/-! The statement about the response of a command (30_encoding.md R55; 44_stream.md R153). From a good state no command
stops, and what it answers is one of four kinds of response, said once for all 18 commands. -/

namespace Sys2Proof.Machine

/-! ### The responses a command may give -/

/-- The responses that the command `i` may give from the state `s` (30_encoding.md R55). -/
inductive Response.Allowed (i : Instr) (s : State) : Response → Prop
  /-- An error, with zero result words. -/
  | error (st : Status) (hst : st.isError = true) : Allowed i s (Response.error st)
  /-- `OK`, with any result words and no byte emitted. -/
  | ok (r0 r1 : Word) : Allowed i s ⟨.ok, r0, r1, []⟩
  /-- The end of `REFILL`: of `n` bytes asked for, as many have come as the host had. -/
  | refill (b : SlotNo) (n : Word) (moved : Nat) (hi : i = .refill b n)
      (hmoved : moved = min n.toNat s.streamIn.length) :
      Allowed i s ⟨if moved = n.toNat then .ok else .short, BitVec.ofNat 64 n.toNat, BitVec.ofNat 64 moved, []⟩
  /-- The end of `FLUSH`: of the whole bytes used, as many have gone as the host accepts. -/
  | flush (b : SlotNo) (sl : Slot) (out : List Byte) (hi : i = .flush b) (hsl : s.Holds b sl) :
      Allowed i s ⟨if sl.emitCount s.streamAccept = sl.usedBytes then .ok else .short, BitVec.ofNat 64 sl.usedBytes,
        BitVec.ofNat 64 (sl.emitCount s.streamAccept), out⟩

/-- The command `i` run from `s` has ended in a next state with a response that it may give. -/
def Responds (i : Instr) (s : State) (e : Effect) : Prop :=
  ∃ t r, e = .next t ∧ t.response = some r ∧ r.Allowed i s

/-! ### The bytes that a command accesses exist (10_state.md R13) -/

section
variable {capBytes : Nat} {sl : Slot} (hsl : sl.wf capBytes)
include hsl

/-- Bits below `BIT_COUNT` of a good slot lie in bytes that exist. -/
theorem Slot.bytesFor_le_of_wf {p : Nat} (hp : p ≤ sl.bitCount.toNat) : bytesFor p ≤ capBytes := by
  obtain ⟨-, hbits, -⟩ := hsl
  simp only [bytesFor]
  omega

/-- The bytes that `REFILL` keeps of a good slot exist. -/
theorem Slot.keptEnd_le_of_wf : sl.keptEnd ≤ capBytes := by
  obtain ⟨hcursor, hbits, -⟩ := hsl
  rw [Slot.keptEnd]
  split
  · exact Nat.zero_le _
  · rw [Slot.keptBytes]
    omega

/-- The bytes that `FLUSH` emits of a good slot exist. -/
theorem Slot.emitCount_le_of_wf (accept : Nat) : sl.emitCount accept ≤ capBytes := by
  obtain ⟨hcursor, hbits, -⟩ := hsl
  rw [Slot.emitCount, Slot.usedBytes]
  omega

end

/-! ### One rule for each shared operation of Machine/Ops.lean -/

section
variable {i : Instr} {s : State} {b : SlotNo} {sl : Slot}

theorem Responds.raise (st : Status) (hst : st.isError = true := by decide) : Responds i s (raise st s) :=
  ⟨_, _, rfl, rfl, .error st hst⟩

theorem Responds.answer (r0 r1 : Word) : Responds i s (answer r0 r1 s) := ⟨_, _, rfl, rfl, .ok r0 r1⟩

theorem Responds.finish (x : Slot) (r0 r1 : Word) : Responds i s (finish b x r0 r1 s) := ⟨_, _, rfl, rfl, .ok r0 r1⟩

theorem Responds.ite {c : Prop} [Decidable c] {e f : Effect} (hthen : c → Responds i s e)
    (helse : ¬ c → Responds i s f) : Responds i s (if c then e else f) := by
  split
  · next h => exact hthen h
  · next h => exact helse h

/-- A check that raises a status, and what comes after it. -/
theorem Responds.check {c : Prop} [Decidable c] {st : Status} {f : Effect} (hpass : ¬ c → Responds i s f)
    (hst : st.isError = true := by decide) : Responds i s (if c then Machine.raise st s else f) :=
  .ite (fun _ => .raise st hst) hpass

/-- The check that the bytes below index `n` exist, where they do (log entry 7). -/
theorem Responds.guard {n : Nat} (hn : n ≤ s.cfg.capBytes) {f : Effect} (hpass : Responds i s f) :
    Responds i s (if !s.inStore n then .fault .outsideStore else f) := by
  rwa [if_neg (by simpa [State.inStore] using hn)]

/-- `NeedBuffer` raises `ABSENT_BUFFER` or goes on with a good slot that holds a Bit Buffer. -/
theorem Responds.needBuffer (hs : s.wf) {k : Slot → Effect}
    (hk : ∀ sl, s.Holds b sl → sl.wf s.cfg.capBytes → Responds i s (k sl)) : Responds i s (needBuffer b s k) := by
  rcases needBuffer_cases b s k with ⟨sl, hb, hv, he⟩ | ⟨-, he⟩
  · exact he ▸ hk sl ⟨hb, hv⟩ (State.slot_wf s hs b sl hb)
  · exact he ▸ .raise _

theorem Responds.readField (hsl : sl.wf s.cfg.capBytes) (pp : Policy) (w : WidthField) {k : Word → Effect}
    (hk : ∀ v, Responds i s (k v)) : Responds i s (readField sl pp w s k) :=
  .check fun _ => .check fun hlen => .guard (Slot.bytesFor_le_of_wf hsl (Nat.le_of_not_lt hlen)) (hk _)

theorem Responds.scanPrefix (hsl : sl.wf s.cfg.capBytes) (bio : BitOrder) (stop : StopField) {k : Nat → Effect}
    (hk : ∀ n, Responds i s (k n)) : Responds i s (scanPrefix sl bio stop s k) := by
  rcases scanPrefix_cases sl bio stop s k with ⟨n, -, he⟩ | ⟨-, -, he⟩ | ⟨-, hbeyond, -⟩
  · exact he ▸ hk n
  · exact he ▸ .raise _
  · obtain ⟨-, hbits, -⟩ := hsl
    simp only [Config.capBits] at hbeyond
    omega

end

/-! ### The commands -/

section
variable {s : State} (b : SlotNo)

theorem execCreate_responds (cap : Word) : Responds (.create b cap) s (execCreate b cap s) := by
  unfold execCreate
  cases s.slot? b with
  | none => exact .raise _
  | some sl => exact .check fun _ => .check fun _ => .finish _ 0 0

theorem execCrcgen_responds (w : WidthField) (be : DataOrder) (poly start : Word) (data : List Byte) :
    Responds (.crcgen w be poly start data) s (execCrcgen w be poly start data s) :=
  .check fun _ => .answer _ 0

theorem execCrcvfy_responds (w : WidthField) (be : DataOrder) (poly start embedded : Word) (data : List Byte) :
    Responds (.crcvfy w be poly start embedded data) s (execCrcvfy w be poly start embedded data s) :=
  .check fun _ => .ite (fun _ => .answer 1 0) fun _ => .answer 0 0

variable (hs : s.wf)
include hs

theorem execIsalign_responds (g : Word) : Responds (.isalign b g) s (execIsalign b g s) :=
  .needBuffer hs fun _ _ _ => .check fun _ => .ite (fun _ => .answer 1 0) fun _ => .answer 0 0

theorem execAlign_responds (g : Word) : Responds (.align b g) s (execAlign b g s) :=
  .needBuffer hs fun _ _ _ => .check fun _ => .check fun _ => .finish _ 0 0

theorem execSkip_responds (delta : Word) : Responds (.skip b delta) s (execSkip b delta s) :=
  .needBuffer hs fun _ _ _ => .check fun _ => .check fun _ => .finish _ 0 0

theorem execPeek_responds (pp : Policy) (w : WidthField) : Responds (.peek b pp w) s (execPeek b pp w s) :=
  .needBuffer hs fun _ _ hsl => .readField hsl pp w fun v => .answer v 0

theorem execRead_responds (pp : Policy) (w : WidthField) : Responds (.read b pp w) s (execRead b pp w s) :=
  .needBuffer hs fun _ _ hsl => .readField hsl pp w fun v => .finish _ v 0

theorem execWrite_responds (pp : Policy) (w : WidthField) (value : Word) :
    Responds (.write b pp w value) s (execWrite b pp w value s) :=
  .needBuffer hs fun _ _ _ => .check fun _ => .check fun _ => .finish _ 0 0

theorem execRdun_responds (pp : Policy) (flavor : Flavor) (stop : StopField) :
    Responds (.rdun b pp flavor stop) s (execRdun b pp flavor stop s) :=
  .needBuffer hs fun _ _ hsl => .check fun _ => .scanPrefix hsl pp.bio stop fun _ => .finish _ _ 0

theorem execWrun_responds (pp : Policy) (flavor : Flavor) (stop : StopField) (value : Word) :
    Responds (.wrun b pp flavor stop value) s (execWrun b pp flavor stop value s) :=
  .needBuffer hs fun _ _ _ => .check fun _ => .check fun _ => .check fun _ => .finish _ 0 0

theorem execRdeg_responds (pp : Policy) (sgn : Signedness) (stop : StopField) :
    Responds (.rdeg b pp sgn stop) s (execRdeg b pp sgn stop s) :=
  .needBuffer hs fun _ _ hsl => .check fun _ => .scanPrefix hsl pp.bio stop fun _ => .check fun _ =>
    .check fun hlen => .guard (Slot.bytesFor_le_of_wf hsl (Nat.le_of_not_lt hlen)) (.finish _ _ 0)

theorem execWreg_responds (pp : Policy) (sgn : Signedness) (stop : StopField) (value : Word) :
    Responds (.wreg b pp sgn stop value) s (execWreg b pp sgn stop value s) := by
  refine .needBuffer hs fun sl _ _ => .check fun _ => ?_
  cases golombNumber sgn value with
  | none => exact .raise _
  | some u => exact .check fun _ => .finish _ 0 0

theorem execRefill_responds (n : Word) : Responds (.refill b n) s (execRefill b n s) :=
  .needBuffer hs fun sl _ hsl => .check fun _ => .check fun _ => .guard (Slot.keptEnd_le_of_wf hsl)
    ⟨_, _, rfl, rfl, .refill b n _ rfl List.length_take⟩

theorem execFlush_responds : Responds (.flush b) s (execFlush b s) :=
  .needBuffer hs fun sl hholds hsl =>
    .guard (max_le (Slot.emitCount_le_of_wf hsl _) (Slot.bytesFor_le_of_wf hsl le_rfl))
      ⟨_, _, rfl, rfl, .flush b sl _ rfl hholds⟩

/-- From a good state every command ends in a next state, with a response that it may give. -/
theorem exec_responds (i : Instr) : Responds i s (exec i s) := by
  cases i with
  | create b cap => exact execCreate_responds b cap
  | destroy b => exact .needBuffer hs fun _ _ _ => .finish _ 0 0
  | bitlen b => exact .needBuffer hs fun sl _ _ => .answer sl.bitCount 0
  | pos b => exact .needBuffer hs fun sl _ _ => .answer sl.cursor 0
  | isalign b g => exact execIsalign_responds b hs g
  | align b g => exact execAlign_responds b hs g
  | skip b delta => exact execSkip_responds b hs delta
  | peek b pp w => exact execPeek_responds b hs pp w
  | read b pp w => exact execRead_responds b hs pp w
  | write b pp w value => exact execWrite_responds b hs pp w value
  | rdun b pp flavor stop => exact execRdun_responds b hs pp flavor stop
  | wrun b pp flavor stop value => exact execWrun_responds b hs pp flavor stop value
  | rdeg b pp sgn stop => exact execRdeg_responds b hs pp sgn stop
  | wreg b pp sgn stop value => exact execWreg_responds b hs pp sgn stop value
  | crcgen w be poly start data => exact execCrcgen_responds w be poly start data
  | crcvfy w be poly start embedded data => exact execCrcvfy_responds w be poly start embedded data
  | refill b n => exact execRefill_responds b hs n
  | flush b => exact execFlush_responds b hs

end

/-! ### What the responses have in common -/

theorem Status.eq_ok_iff_code (st : Status) : st = .ok ↔ st.code = 0x00 := by
  cases st <;> decide

/-- A transfer ends `SHORT` exactly where not all bytes have moved (44_stream.md R153). -/
theorem ite_ok_short_eq_short {moved asked : Nat} :
    (if moved = asked then Status.ok else .short) = .short ↔ moved ≠ asked := by
  split <;> simp_all

section
variable {i : Instr} {s : State} {r : Response}

/-- Result words are 0 unless the status is `OK` or `SHORT` (30_encoding.md R55). -/
theorem Response.Allowed.words_eq_zero (h : r.Allowed i s) (hok : r.st ≠ .ok) (hshort : r.st ≠ .short) :
    r.r0 = 0 ∧ r.r1 = 0 := by
  cases h with
  | error st hst => exact ⟨rfl, rfl⟩
  | ok r0 r1 => exact absurd rfl hok
  | refill | flush => exact absurd (if_pos (not_not.mp (mt ite_ok_short_eq_short.mpr hshort))) hok

/-- With `SHORT` the result words are the requested and the smaller actual count (30_encoding.md R55; 44_stream.md
R153): what was asked for is more than the host had or took. -/
theorem Response.Allowed.short_counts (h : r.Allowed i s) (hshort : r.st = .short) :
    r.r1.toNat < r.r0.toNat ∧
      ((∃ b n, i = .refill b n ∧ r.r0 = n ∧ r.r1.toNat = s.streamIn.length) ∨
        ∃ b sl, i = .flush b ∧ s.Holds b sl ∧ r.r0.toNat = sl.cursor.toNat / 8 ∧ r.r1.toNat = s.streamAccept) := by
  cases h with
  | error st hst => exact absurd hshort (by rintro rfl; exact absurd hst (by decide))
  | ok r0 r1 => exact absurd hshort nofun
  | refill b n moved hi hmoved =>
    have hne := ite_ok_short_eq_short.mp hshort
    have hlt := n.isLt
    have hword : BitVec.ofNat 64 n.toNat = n := by simp
    have hcount : (BitVec.ofNat 64 moved).toNat = s.streamIn.length := by rw [BitVec.toNat_ofNat]; omega
    refine ⟨?_, .inl ⟨b, n, hi, hword, hcount⟩⟩
    simp only [hword, hcount]
    omega
  | flush b sl out hi hsl =>
    have hne := ite_ok_short_eq_short.mp hshort
    have hlt := sl.cursor.isLt
    simp only [Slot.emitCount, Slot.usedBytes] at hne
    have hasked : (BitVec.ofNat 64 sl.usedBytes).toNat = sl.cursor.toNat / 8 := by
      rw [BitVec.toNat_ofNat, Slot.usedBytes]; omega
    have hcount : (BitVec.ofNat 64 (sl.emitCount s.streamAccept)).toNat = s.streamAccept := by
      rw [BitVec.toNat_ofNat, Slot.emitCount, Slot.usedBytes]; omega
    refine ⟨?_, .inr ⟨b, sl, hi, hsl, hasked, hcount⟩⟩
    simp only [hasked, hcount]
    omega

/-- Only `FLUSH` emits bytes (30_encoding.md R55). -/
theorem Response.Allowed.flush_of_out (h : r.Allowed i s) (hout : r.out ≠ []) : ∃ b, i = .flush b := by
  cases h with
  | error | ok | refill => exact absurd rfl hout
  | flush b sl out hi hsl => exact ⟨b, hi⟩

end

/-- Settles O15: a packet that does not decode answers an error; one that does answers what its command may answer. -/
theorem oneResponse : Obligations.OneResponse := by
  intro s p input rest hs hp
  cases hd : decode p with
  | error e =>
    have herr : (decodeStatus e).isError = true := by cases e <;> decide
    have hshort : decodeStatus e ≠ .short := by cases e <;> decide
    exact ⟨_, _, step_of_decode_error s p input rest e hp hd, rfl, rfl, Status.eq_ok_iff_code _,
      fun _ _ => ⟨rfl, rfl⟩, fun h => absurd h hshort, absurd rfl⟩
  | ok i =>
    have hs' := State.present_wf s hs input rest
    obtain ⟨t, r, hexec, hr, hallowed⟩ := exec_responds hs' i
    obtain ⟨-, hpend, -⟩ := exec_next_ports i _ t hexec
    refine ⟨t, r, (step_of_decode s p input rest i hp hd).trans hexec, hr, hpend, r.st.eq_ok_iff_code,
      hallowed.words_eq_zero, fun hshort => ?_, fun hout => ?_⟩
    · simp only [Except.ok.injEq]
      exact hallowed.short_counts hshort
    · simpa only [Except.ok.injEq] using hallowed.flush_of_out hout

end Sys2Proof.Machine
end

section
/-! The statements about the Bit Buffer commands (40_buffer.md R70 to R76). `ALIGN` and `SKIP` differ only in how they
find their target: both end in one move of the cursor to it, whose outcomes are said once. -/

namespace Sys2Proof.Machine

/-! ### Operands -/

/-- The opcode of a command with no field but `BUF` (30_encoding.md R52). -/
theorem opc_bufHeader (b : SlotNo) (opc : BitVec 8) : (bufHeader b opc).extractLsb' 0 8 = opc :=
  opc_header ..

/-- The bit test for powers of two, in numbers. -/
theorem isPow2_iff_and_eq_zero (g : Word) : isPow2 g = true ↔ g.toNat ≠ 0 ∧ g.toNat &&& (g.toNat - 1) = 0 := by
  have hne : g ≠ 0 ↔ g.toNat ≠ 0 := not_congr (BitVec.toNat_inj (y := 0)).symm
  simp only [isPow2, Bool.and_eq_true, bne_iff_ne, beq_iff_eq]
  refine (and_congr_right fun hg => ?_).trans (and_congr_left' hne)
  have hpred : (g - 1).toNat = g.toNat - 1 := by bv_omega
  rw [← BitVec.toNat_inj, BitVec.toNat_and, hpred]
  rfl

/-- `IsPow2` accepts exactly the granularities 1, 2, 4, ..., 2^63 (40_buffer.md, before R70). -/
theorem isPow2_iff (g : Word) : isPow2 g = true ↔ PowerOfTwo g := by
  rw [isPow2_iff_and_eq_zero, Nat.ne_zero_and_sub_one_eq_zero_iff_isPowerOfTwo]
  constructor
  · rintro ⟨n, hn⟩
    exact ⟨n, (Nat.pow_lt_pow_iff_right (by decide)).mp (hn ▸ g.isLt), hn⟩
  · rintro ⟨n, -, hn⟩
    exact ⟨n, hn⟩

/-- The check for a bad granularity raises exactly where the statements say. -/
theorem not_isPow2_iff (g : Word) : (!isPow2 g) = true ↔ ¬ PowerOfTwo g := by
  rw [← isPow2_iff, Bool.not_eq_true', Bool.not_eq_true]

theorem PowerOfTwo.pos {g : Word} (hg : PowerOfTwo g) : 0 < g.toNat := by
  obtain ⟨n, -, hn⟩ := hg
  exact hn ▸ Nat.two_pow_pos n

/-- `ceil(c / u) * u` is the least multiple of `u` that is not below `c` (40_buffer.md R75). -/
theorem alignUp_isLeast (c u : Nat) (hu : 0 < u) : IsLeast {v | u ∣ v ∧ c ≤ v} (alignUp c u) := by
  have hceil : alignUp c u = u * (c ⌈/⌉ u) := Nat.mul_comm _ _
  rw [hceil]
  refine ⟨⟨dvd_mul_right _ _, le_smul_ceilDiv hu⟩, ?_⟩
  rintro _ ⟨⟨k, rfl⟩, hk⟩
  exact Nat.mul_le_mul_left u ((ceilDiv_le_iff_le_mul hu).mpr hk)

/-! ### The move of the cursor -/

section
variable (b : SlotNo) (s : State) (sl : Slot)

/-- The end of `ALIGN` and of `SKIP`: `ALLOC` where the target lies beyond the store, else the slot grown to the target
if need be, and the cursor there (40_buffer.md R75, R76). -/
def moveTo (t : Nat) : Effect :=
  if s.noRoom t then raise .alloc s else finish b ((sl.growTo t).seek t) 0 0 s

theorem moveTo_of_lt (t : Nat) (ht : 8 * s.cfg.capBytes < t) : moveTo b s sl t = raise .alloc s :=
  if_pos (decide_eq_true ht)

theorem moveTo_of_le (t : Nat) (ht : t ≤ 8 * s.cfg.capBytes) :
    moveTo b s sl t = finish b ((sl.growTo t).seek t) 0 0 s :=
  if_neg (by simpa [State.noRoom, Config.capBits] using ht)

/-- The registers of a buffer after the move. -/
theorem Slot.seek_growTo (t : Nat) (hv : sl.valid = true) :
    (sl.growTo t).seek t =
      ⟨true, BitVec.ofNat 64 (max sl.bitCount.toNat t), BitVec.ofNat 64 t, (sl.growTo t).bytes⟩ := by
  have hbc : (sl.growTo t).bitCount = BitVec.ofNat 64 (max sl.bitCount.toNat t) := by
    by_cases ht : t > sl.bitCount.toNat
    · rw [Slot.growTo, if_pos ht, Slot.grow_bitCount, max_eq_right ht.le]
    · rw [Slot.growTo, if_neg ht, max_eq_left (Nat.le_of_not_lt ht), BitVec.ofNat_toNat, BitVec.setWidth_eq]
  rw [Slot.seek, Slot.growTo_valid, hv, hbc]

/-- Both outcomes of the move, in the terms of the statements. -/
theorem moveTo_outcomes {i : Instr} {t : Nat} (hexec : exec i s = moveTo b s sl t) (hv : sl.valid = true) :
    (8 * s.cfg.capBytes < t → Raises i s .alloc) ∧
      (t ≤ 8 * s.cfg.capBytes →
        ∃ m, Becomes i s b ⟨true, BitVec.ofNat 64 (max sl.bitCount.toNat t), BitVec.ofNat 64 t, m⟩ ⟨.ok, 0, 0, []⟩ ∧
          ∀ j, m.read j = sl.grownByte t j) := by
  refine ⟨fun ht => hexec.trans (moveTo_of_lt b s sl t ht), fun ht => ⟨(sl.growTo t).bytes, ?_, sl.read_growTo t⟩⟩
  rw [Becomes, hexec, moveTo_of_le b s sl t ht, finish_next, sl.seek_growTo t hv]

end

/-! ### The commands on a slot that holds a buffer -/

section
variable {b : SlotNo} {s : State} {sl : Slot} (h : s.Holds b sl)
include h

theorem exec_isalign_of_holds (g : Word) :
    exec (.isalign b g) s =
      if !isPow2 g then raise .granularity s
      else if sl.cursor.toNat % (8 * g.toNat) = 0 then answer 1 0 s else answer 0 0 s :=
  needBuffer_present b s _ sl h.1 h.2

theorem exec_align_of_holds (g : Word) :
    exec (.align b g) s = if !isPow2 g then raise .granularity s else moveTo b s sl (sl.alignTarget g) :=
  needBuffer_present b s _ sl h.1 h.2

theorem exec_skip_of_holds (delta : Word) :
    exec (.skip b delta) s =
      if sl.skipTarget delta < 0 then raise .skipBelowStart s else moveTo b s sl (sl.skipTarget delta).toNat :=
  needBuffer_present b s _ sl h.1 h.2

end

/-! ### `CREATE`, which asks for a slot that holds no buffer -/

theorem State.slot?_eq_none (s : State) (b : SlotNo) (h : s.cfg.nbuf ≤ b.toNat) : s.slot? b = none :=
  if_neg (Nat.not_lt_of_le h)

theorem exec_create_of_slot?_none (b : SlotNo) (cap : Word) (s : State) (h : s.slot? b = none) :
    exec (.create b cap) s = raise .absentBuffer s := by
  simp only [exec, execCreate, h]

theorem exec_create_of_holds (b : SlotNo) (cap : Word) (s : State) (sl : Slot) (h : s.Holds b sl) :
    exec (.create b cap) s = raise .slotInUse s := by
  simp only [exec, execCreate, h.1, h.2, if_true]

theorem exec_create_of_vacant (b : SlotNo) (cap : Word) (s : State) (sl : Slot) (h : s.Vacant b sl) :
    exec (.create b cap) s =
      if cap.toNat > s.cfg.capBytes then raise .alloc s
      else finish b ⟨true, BitVec.ofNat 64 (8 * cap.toNat), 0, sl.bytes.zeroFill 0 cap.toNat⟩ 0 0 s := by
  simp only [exec, execCreate, h.1, h.2, Bool.false_eq_true, if_false]

/-! ### The statements -/

/-- Settles O25: the store after `CREATE` is the old one with its first `cap` bytes filled with zeros. -/
theorem create : Obligations.Create := by
  intro b cap s _
  refine ⟨opc_bufHeader b 0x01, fun hb => exec_create_of_slot?_none b cap s (s.slot?_eq_none b hb),
    exec_create_of_holds b cap s, fun sl hvacant => ?_⟩
  have hexec := exec_create_of_vacant b cap s sl hvacant
  refine ⟨fun hcap => hexec.trans (if_pos hcap), fun hcap => ?_⟩
  refine ⟨_, hexec.trans (if_neg (Nat.not_lt_of_le hcap)), fun i hi => ?_⟩
  rw [Memory.read_zeroFill, if_pos ⟨Nat.zero_le i, hi⟩]

/-- Settles O26: a held slot loses its registers and keeps its store. -/
theorem destroy : Obligations.Destroy := fun b s =>
  ⟨opc_bufHeader b 0x02, needBuffer_absent b s _, fun sl ⟨hsl, hv⟩ =>
    ⟨sl.bytes, needBuffer_present b s (fun x => finish b ⟨false, 0, 0, x.bytes⟩ 0 0 s) sl hsl hv⟩⟩

/-- Settles O27: both commands answer a register of a held slot. -/
theorem accessors : Obligations.Accessors := fun b s =>
  ⟨opc_bufHeader b 0x03, opc_bufHeader b 0x04,
    fun habsent => ⟨needBuffer_absent b s _ habsent, needBuffer_absent b s _ habsent⟩,
    fun sl ⟨hsl, hv⟩ =>
      ⟨needBuffer_present b s (fun x => answer x.bitCount 0 s) sl hsl hv,
        needBuffer_present b s (fun x => answer x.cursor 0 s) sl hsl hv⟩⟩

/-- Settles O28: the bit test finds the powers of two, and the remainder is 0 exactly where `8g` divides the cursor. -/
theorem isalign : Obligations.Isalign := by
  intro b g s
  refine ⟨opc_bufHeader b 0x05, needBuffer_absent b s _, fun sl hsl => ?_⟩
  have hexec := exec_isalign_of_holds hsl g
  refine ⟨fun hg => hexec.trans (if_pos ((not_isPow2_iff g).mpr hg)), fun hg hdvd => ?_, fun hg hdvd => ?_⟩
  all_goals rw [if_neg (mt (not_isPow2_iff g).mp (not_not.mpr hg))] at hexec
  · exact hexec.trans (if_pos (Nat.mod_eq_zero_of_dvd hdvd))
  · exact hexec.trans (if_neg (mt Nat.dvd_of_mod_eq_zero hdvd))

/-- Settles O29: with a good granularity `ALIGN` is a move to the least multiple of `8g` that is not below the cursor. -/
theorem align : Obligations.Align := by
  intro b g s _
  refine ⟨opc_bufHeader b 0x06, needBuffer_absent b s _, fun sl hsl => ?_⟩
  have hexec := exec_align_of_holds hsl g
  refine ⟨fun hg => hexec.trans (if_pos ((not_isPow2_iff g).mpr hg)), fun hg => ?_⟩
  rw [if_neg (mt (not_isPow2_iff g).mp (not_not.mpr hg))] at hexec
  obtain ⟨⟨hdvd, hle⟩, hleast⟩ :=
    alignUp_isLeast sl.cursor.toNat (8 * g.toNat) (Nat.mul_pos (by decide) hg.pos)
  exact ⟨sl.alignTarget g, hdvd, hle, fun u hu hcu => hleast ⟨hu, hcu⟩, moveTo_outcomes b s sl hexec hsl.2⟩

/-- Settles O30: with a target that is not below 0 `SKIP` is a move to the target. -/
theorem skip : Obligations.Skip := by
  intro b delta s _
  refine ⟨opc_bufHeader b 0x07, needBuffer_absent b s _, fun sl hsl => ?_⟩
  have hexec := exec_skip_of_holds hsl delta
  refine ⟨fun hneg => hexec.trans (if_pos hneg), fun t ht => ?_⟩
  have htarget : sl.skipTarget delta = t := ht.symm
  rw [htarget, if_neg (Int.not_lt.mpr (Int.natCast_nonneg t)), Int.toNat_natCast] at hexec
  exact moveTo_outcomes b s sl hexec hsl.2

end Sys2Proof.Machine
end

section
/-! The closed form of the bit map of a field (41_bitcodec.md R92), for the loops of R90 and R91. Each stream bit lies in
one chunk; a chunk carries its bits to and from an interval of value bits, and the intervals tile the value. All that a
field read or written does to single bits follows from these facts about one chunk. -/

namespace Sys2Proof.Machine

/-! ### The chunks as tiles -/

/-- The chunks `ks` lie one after the other from stream bit `start` of the `w`-bit field at position `c` to its end,
each in one byte and at its place in the store. -/
inductive Tiles (c w : Nat) : Nat → List Chunk → Prop
  | nil : Tiles c w w []
  | cons (k : Chunk) (ks : List Chunk) (hbyte : k.offset + k.size ≤ 8) (hplace : 8 * k.index + k.offset = c + k.start)
      (hrest : Tiles c w (k.start + k.size) ks) : Tiles c w k.start (k :: ks)

theorem cutFrom_tiles (fuel c done w : Nat) (hfuel : w - done ≤ fuel) (hdone : done ≤ w) :
    Tiles c w done (cutFrom fuel (c + done) done w) := by
  induction fuel generalizing done with
  | zero =>
    obtain rfl : done = w := by omega
    exact .nil
  | succ fuel ih =>
    by_cases hlt : done < w
    · simp only [cutFrom, if_pos hlt]
      refine .cons ⟨_, _, _, done⟩ _ (by simp only; omega) (by simp only; omega) ?_
      rw [Nat.add_assoc]
      exact ih _ (by simp only; omega) (by simp only; omega)
    · obtain rfl : done = w := by omega
      simp only [cutFrom, if_neg hlt]
      exact .nil

/-- The chunks of a field tile it. -/
theorem cut_tiles (c w : Nat) : Tiles c w 0 (cut c w) := cutFrom_tiles w c 0 w (Nat.sub_le ..) (Nat.zero_le w)

theorem Tiles.start_le {c w start : Nat} {ks : List Chunk} (ht : Tiles c w start ks) : start ≤ w := by
  induction ht with
  | nil => exact le_rfl
  | cons k ks _ _ _ ih => exact (Nat.le_add_right ..).trans ih

/-- Every stream bit from `start` on is a bit of one of the tiles. -/
theorem Tiles.exists_mem {c w start : Nat} {ks : List Chunk} (ht : Tiles c w start ks) (j : Nat) (hle : start ≤ j)
    (hj : j < w) : ∃ k ∈ ks, ∃ d, d < k.size ∧ j = k.start + d := by
  induction ht with
  | nil => omega
  | cons k ks _ _ _ ih =>
    by_cases hhead : j < k.start + k.size
    · exact ⟨k, List.mem_cons_self, j - k.start, by omega, by omega⟩
    · obtain ⟨k', hk', hj'⟩ := ih (Nat.le_of_not_lt hhead)
      exact ⟨k', List.mem_cons_of_mem _ hk', hj'⟩

/-- Every stream bit of a field is a bit of one of its chunks. -/
theorem exists_chunk (c w j : Nat) (hj : j < w) : ∃ k ∈ cut c w, ∃ d, d < k.size ∧ j = k.start + d :=
  (cut_tiles c w).exists_mem j (Nat.zero_le j) hj

/-- A chunk takes all that its byte can still hold of the field, and only the first one can start inside a byte. -/
theorem cutFrom_size (fuel p done w : Nat) (k : Chunk) (hk : k ∈ cutFrom fuel p done w) :
    k.size = min (8 - k.offset) (w - k.start) ∧ (k.start = done ∧ k.offset = p % 8 ∨ k.offset = 0) := by
  induction fuel generalizing p done with
  | zero => simp [cutFrom] at hk
  | succ fuel ih =>
    simp only [cutFrom] at hk
    split at hk
    · rcases List.mem_cons.mp hk with rfl | hk
      · exact ⟨rfl, .inl ⟨rfl, rfl⟩⟩
      · have hmem := cutFrom_mem fuel _ _ w k hk
        have hsize := ih _ _ hk
        omega
    · simp at hk

/-! ### The closed form, chunk by chunk -/

/-- The significance inside its chunk of the chunk's stream bit `d` (41_bitcodec.md R92, first table). -/
def Chunk.rank (k : Chunk) (bio : BitOrder) (d : Nat) : Nat :=
  match bio with
  | .msbit => k.size - 1 - d
  | .lsbit => d

/-- The lowest value bit of the stream bits `start` to `start + size - 1` of a `w`-bit field (41_bitcodec.md R92, second
table). -/
def bitWeight (byo : ByteOrder) (w start size : Nat) : Nat :=
  match byo with
  | .msbyte => w - start - size
  | .lsbyte => start

theorem Chunk.rank_lt (k : Chunk) (bio : BitOrder) (d : Nat) (hd : d < k.size) : k.rank bio d < k.size := by
  cases bio <;> simp only [Chunk.rank] <;> omega

/-- The chunk that the closed form speaks of is the one the loop cuts. -/
theorem chunkStart_chunkSize (c w : Nat) (k : Chunk) (hk : k ∈ cut c w) (d : Nat) (hd : d < k.size) :
    chunkStart c w (k.start + d) = k.start ∧ chunkSize c w (k.start + d) = k.size := by
  have hmem := cut_mem c w k hk
  obtain ⟨hsize, hoffset⟩ := cutFrom_size w c 0 w k hk
  have hstart : chunkStart c w (k.start + d) = k.start := by
    simp only [chunkStart]
    split <;> omega
  refine ⟨hstart, ?_⟩
  simp only [chunkSize, hstart]
  split <;> omega

/-- The closed form, chunk by chunk: significance inside the chunk plus weight of the chunk. -/
theorem fieldBit_chunk (c w : Nat) (pp : Policy) (k : Chunk) (hk : k ∈ cut c w) (d : Nat) (hd : d < k.size) :
    fieldBit c w (k.start + d) pp = k.rank pp.bio d + bitWeight pp.byo w k.start k.size := by
  obtain ⟨hstart, hsize⟩ := chunkStart_chunkSize c w k hk d hd
  simp only [fieldBit, hstart, hsize, Nat.add_sub_cancel_left]
  rfl

/-! ### The map is one-to-one -/

/-- Stream bit `j` lies in the chunk the closed form gives it, and that chunk in the field. -/
theorem chunk_bounds (c w j : Nat) (hj : j < w) :
    chunkStart c w j ≤ j ∧ j < chunkStart c w j + chunkSize c w j ∧ chunkStart c w j + chunkSize c w j ≤ w := by
  simp only [chunkSize, chunkStart]
  split <;> omega

/-- Two stream bits lie in the same chunk or in chunks that do not overlap. -/
theorem chunk_disjoint (c w j j' : Nat) (hj : j < w) (hj' : j' < w) :
    chunkStart c w j = chunkStart c w j' ∧ chunkSize c w j = chunkSize c w j' ∨
      chunkStart c w j + chunkSize c w j ≤ chunkStart c w j' ∨
      chunkStart c w j' + chunkSize c w j' ≤ chunkStart c w j := by
  simp only [chunkSize, chunkStart]
  split <;> split <;> omega

theorem fieldBit_lt (c w j : Nat) (pp : Policy) (hj : j < w) : fieldBit c w j pp < w := by
  have hbounds := chunk_bounds c w j hj
  obtain ⟨byo, bio⟩ := pp
  cases byo <;> cases bio <;> simp only [fieldBit] <;> omega

theorem fieldBit_injective (c w j j' : Nat) (pp : Policy) (hj : j < w) (hj' : j' < w)
    (h : fieldBit c w j pp = fieldBit c w j' pp) : j = j' := by
  have hbounds := chunk_bounds c w j hj
  have hbounds' := chunk_bounds c w j' hj'
  have hdisjoint := chunk_disjoint c w j j' hj hj'
  obtain ⟨byo, bio⟩ := pp
  cases byo <;> cases bio <;> simp only [fieldBit] at h <;> omega

/-- Every value bit below the width carries a stream bit. -/
theorem exists_fieldBit_eq (c w i : Nat) (pp : Policy) (hi : i < w) : ∃ j, j < w ∧ fieldBit c w j pp = i := by
  have hinj : Function.Injective fun j : Fin w => (⟨fieldBit c w j pp, fieldBit_lt c w j pp j.isLt⟩ : Fin w) :=
    fun j j' h => Fin.ext (fieldBit_injective c w j j' pp j.isLt j'.isLt (Fin.val_eq_of_eq h))
  obtain ⟨j, hj⟩ := Finite.surjective_of_injective hinj ⟨i, hi⟩
  exact ⟨j, j.isLt, Fin.val_eq_of_eq hj⟩

/-- Under `.BM` the field reads as a number written from its most significant bit on (41_bitcodec.md R92). -/
theorem fieldBit_bm (c w j : Nat) (hj : j < w) : fieldBit c w j ⟨.msbyte, .msbit⟩ = w - 1 - j := by
  have hbounds := chunk_bounds c w j hj
  simp only [fieldBit]
  omega

/-- Under `.LL` the field reads as a number written from its least significant bit on (41_bitcodec.md R92). -/
theorem fieldBit_ll (c w j : Nat) (hj : j < w) : fieldBit c w j ⟨.lsbyte, .lsbit⟩ = j := by
  have hbounds := chunk_bounds c w j hj
  simp only [fieldBit]
  omega

/-- Two numbers of `w` bits that agree at the value bits of all stream bits are equal. -/
theorem eq_of_testBit_fieldBit (c w : Nat) (pp : Policy) {x y : Nat} (hx : x < 2 ^ w) (hy : y < 2 ^ w)
    (h : ∀ j, j < w → x.testBit (fieldBit c w j pp) = y.testBit (fieldBit c w j pp)) : x = y := by
  refine Nat.eq_of_testBit_eq fun i => ?_
  by_cases hi : i < w
  · obtain ⟨j, hj, rfl⟩ := exists_fieldBit_eq c w i pp hi
    exact h j hj
  · have hpow : 2 ^ w ≤ 2 ^ i := Nat.pow_le_pow_right (by decide) (Nat.le_of_not_lt hi)
    rw [Nat.testBit_lt_two_pow (hx.trans_le hpow), Nat.testBit_lt_two_pow (hy.trans_le hpow)]

/-! ### Reading: how the chunks join to a value (41_bitcodec.md R90) -/

/-- The physical bit of a chunk's stream bit `d` (20_memory.md R33). -/
theorem Chunk.shift_add_rank (k : Chunk) (bio : BitOrder) (d : Nat) (hk : k.offset + k.size ≤ 8) (hd : d < k.size) :
    k.shift bio + k.rank bio d = physicalBit bio (8 * k.index + k.offset + d) := by
  cases bio <;> simp only [Chunk.shift, Chunk.rank, physicalBit] <;> omega

theorem Chunk.load_lt (k : Chunk) (bio : BitOrder) (m : Memory) : k.load bio m < 2 ^ k.size :=
  Nat.mod_lt _ (Nat.two_pow_pos _)

/-- A loaded chunk holds the stream bits of its place. -/
theorem Chunk.load_testBit (k : Chunk) (bio : BitOrder) (m : Memory) (d : Nat) (hk : k.offset + k.size ≤ 8)
    (hd : d < k.size) : (k.load bio m).testBit (k.rank bio d) = m.bit bio (8 * k.index + k.offset + d) := by
  have hindex : (8 * k.index + k.offset + d) / 8 = k.index := by omega
  rw [Chunk.load, Nat.testBit_mod_two_pow, Nat.testBit_div_two_pow, decide_eq_true (k.rank_lt bio d hd),
    Bool.true_and, Nat.add_comm, k.shift_add_rank bio d hk hd, Memory.bit, hindex]
  rfl

section
variable (k : Chunk) (byo : ByteOrder) {v piece : Nat} (hpiece : piece < 2 ^ k.size) (hv : v < 2 ^ k.start)
include hpiece hv

theorem Chunk.join_lt : k.join byo v piece < 2 ^ (k.start + k.size) := by
  cases byo with
  | msbyte =>
    calc v * 2 ^ k.size + piece < (v + 1) * 2 ^ k.size := by rw [Nat.succ_mul]; omega
      _ ≤ 2 ^ k.start * 2 ^ k.size := Nat.mul_le_mul_right _ hv
      _ = 2 ^ (k.start + k.size) := (pow_add ..).symm
  | lsbyte =>
    calc v + piece * 2 ^ k.start < (piece + 1) * 2 ^ k.start := by rw [Nat.succ_mul]; omega
      _ ≤ 2 ^ k.size * 2 ^ k.start := Nat.mul_le_mul_right _ hpiece
      _ = 2 ^ (k.start + k.size) := by rw [← pow_add, Nat.add_comm]

/-- Joining a chunk puts its bits at its weight in the bits read so far. -/
theorem Chunk.join_testBit_piece (i : Nat) (hi : i < k.size) :
    (k.join byo v piece).testBit (i + bitWeight byo (k.start + k.size) k.start k.size) = piece.testBit i := by
  cases byo with
  | msbyte =>
    have hweight : i + bitWeight .msbyte (k.start + k.size) k.start k.size = i := by simp only [bitWeight]; omega
    rw [hweight, Chunk.join, Nat.mul_comm, Nat.testBit_two_pow_mul_add _ hpiece, if_pos hi]
  | lsbyte =>
    have hweight : ¬ i + k.start < k.start := by omega
    rw [Chunk.join, Nat.add_comm v, Nat.mul_comm, bitWeight, Nat.testBit_two_pow_mul_add _ hv, if_neg hweight,
      Nat.add_sub_cancel]

/-- Joining a chunk keeps the bits read before, moved up by what has come below them. -/
theorem Chunk.join_testBit_value (i : Nat) (hi : i < k.start) :
    (k.join byo v piece).testBit (i + bitWeight byo (k.start + k.size) 0 k.start) = v.testBit i := by
  cases byo with
  | msbyte =>
    have hweight : i + bitWeight .msbyte (k.start + k.size) 0 k.start = i + k.size := by
      simp only [bitWeight]; omega
    rw [hweight, Chunk.join, Nat.mul_comm, Nat.testBit_two_pow_mul_add _ hpiece, if_neg (by omega),
      Nat.add_sub_cancel]
  | lsbyte =>
    rw [Chunk.join, Nat.add_comm v, Nat.mul_comm, bitWeight, Nat.add_zero, Nat.testBit_two_pow_mul_add _ hv,
      if_pos hi]

end

/-- A field seen inside itself has weight 0. -/
theorem bitWeight_self (byo : ByteOrder) (w : Nat) : bitWeight byo w 0 w = 0 := by
  cases byo <;> simp [bitWeight]

/-- Weights add up when a field is seen inside a longer one. -/
theorem bitWeight_add (byo : ByteOrder) (w start size mid : Nat) (h : start + size ≤ mid) (hm : mid ≤ w) :
    bitWeight byo mid start size + bitWeight byo w 0 mid = bitWeight byo w start size := by
  cases byo <;> simp only [bitWeight] <;> omega

/-- The loop of `Extract` (41_bitcodec.md R90): the chunks joined to the value `v` read so far, where `f` gives what
each holds. -/
def joinAll (byo : ByteOrder) (f : Chunk → Nat) (v : Nat) (ks : List Chunk) : Nat :=
  ks.foldl (fun v k => k.join byo v (f k)) v

theorem Memory.extract_eq_joinAll (m : Memory) (c w : Nat) (pp : Policy) :
    m.extract c w pp = joinAll pp.byo (fun k => k.load pp.bio m) 0 (cut c w) := rfl

section
variable {c w start v : Nat} {ks : List Chunk} (ht : Tiles c w start ks) (byo : ByteOrder) {f : Chunk → Nat}
  (hf : ∀ k, f k < 2 ^ k.size) (hv : v < 2 ^ start)
include ht hf hv

theorem Tiles.joinAll_lt : joinAll byo f v ks < 2 ^ w := by
  induction ht generalizing v with
  | nil => exact hv
  | cons k ks _ _ _ ih => exact ih (k.join_lt byo (hf k) hv)

/-- The value read so far stands at its weight in the whole. -/
theorem Tiles.joinAll_testBit_value (i : Nat) (hi : i < start) :
    (joinAll byo f v ks).testBit (i + bitWeight byo w 0 start) = v.testBit i := by
  induction ht generalizing v i with
  | nil => rw [bitWeight_self]; rfl
  | cons k ks _ _ hrest ih =>
    have hin : i + bitWeight byo (k.start + k.size) 0 k.start < k.start + k.size := by
      cases byo <;> simp only [bitWeight] <;> omega
    rw [← k.join_testBit_value byo (hf k) hv i hi, ← ih (k.join_lt byo (hf k) hv) _ hin, Nat.add_assoc,
      bitWeight_add byo w 0 k.start _ (by omega) hrest.start_le]
    rfl

/-- Each chunk stands at its weight in the whole. -/
theorem Tiles.joinAll_testBit_chunk (k : Chunk) (hk : k ∈ ks) (i : Nat) (hi : i < k.size) :
    (joinAll byo f v ks).testBit (i + bitWeight byo w k.start k.size) = (f k).testBit i := by
  induction ht generalizing v with
  | nil => cases hk
  | cons head ks _ _ hrest ih =>
    have hjoin := head.join_lt byo (hf head) hv
    rcases List.mem_cons.mp hk with rfl | hk
    · have hin : i + bitWeight byo (k.start + k.size) k.start k.size < k.start + k.size := by
        cases byo <;> simp only [bitWeight] <;> omega
      rw [← k.join_testBit_piece byo (hf k) hv i hi, ← hrest.joinAll_testBit_value byo hf hjoin _ hin, Nat.add_assoc,
        bitWeight_add byo w k.start k.size _ le_rfl hrest.start_le]
      rfl
    · exact ih hjoin hk

end

theorem Memory.extract_lt (m : Memory) (c w : Nat) (pp : Policy) : m.extract c w pp < 2 ^ w :=
  (cut_tiles c w).joinAll_lt pp.byo (fun k => k.load_lt pp.bio m) (by decide)

/-- Value bit `fieldBit` of a field read is its stream bit `j` (41_bitcodec.md R90, R92). -/
theorem Memory.extract_testBit (m : Memory) (c w : Nat) (pp : Policy) (j : Nat) (hj : j < w) :
    (m.extract c w pp).testBit (fieldBit c w j pp) = m.bit pp.bio (c + j) := by
  obtain ⟨k, hk, d, hd, rfl⟩ := exists_chunk c w j hj
  obtain ⟨-, hbyte, -, hplace⟩ := cut_mem c w k hk
  rw [fieldBit_chunk c w pp k hk d hd, ← Nat.add_assoc, ← hplace, ← k.load_testBit pp.bio m d hbyte hd]
  exact (cut_tiles c w).joinAll_testBit_chunk pp.byo (fun k => k.load_lt pp.bio m) (by decide) k hk _
    (k.rank_lt pp.bio d hd)

/-! ### Writing: what storing the chunks does to every bit (41_bitcodec.md R91) -/

/-- Bits `sh` to `sh + n - 1` of a byte replaced by those of `x`, the others kept. -/
theorem getLsbD_replaceBits (old : Byte) (n sh x b : Nat) (hx : x < 2 ^ n) (hb : b < 8) :
    ((old &&& ~~~(BitVec.ofNat 8 (mask n * 2 ^ sh))) ||| BitVec.ofNat 8 (x * 2 ^ sh)).getLsbD b =
      if sh ≤ b ∧ b < sh + n then x.testBit (b - sh) else old.getLsbD b := by
  simp only [BitVec.getLsbD_or, BitVec.getLsbD_and, BitVec.getLsbD_not, BitVec.getLsbD_ofNat, mask,
    Nat.testBit_mul_two_pow, Nat.testBit_two_pow_sub_one, hb, decide_true, Bool.true_and]
  by_cases hlo : sh ≤ b
  · by_cases hhi : b < sh + n
    · have hin : b - sh < n := by omega
      simp [hlo, hhi, hin]
    · have hout : ¬ b - sh < n := by omega
      have hpow : 2 ^ n ≤ 2 ^ (b - sh) := Nat.pow_le_pow_right (by decide) (Nat.le_of_not_lt hout)
      simp [hlo, hhi, hout, Nat.testBit_lt_two_pow (hx.trans_le hpow)]
  · simp [hlo]

theorem physicalBit_lt (bio : BitOrder) (p : Nat) : physicalBit bio p < 8 := by
  cases bio <;> simp only [physicalBit] <;> omega

section
variable (k : Chunk) (bio : BitOrder) {x : Nat} {m : Memory} (h : m.wf) (hk : k.offset + k.size ≤ 8)
  (hx : x < 2 ^ k.size)
include h hk hx

/-- Storing a chunk sets the stream bits of its place. -/
theorem Chunk.bit_store_inside (d : Nat) (hd : d < k.size) :
    (k.store bio x m).bit bio (8 * k.index + k.offset + d) = x.testBit (k.rank bio d) := by
  have hindex : k.index = (8 * k.index + k.offset + d) / 8 := by omega
  have hrank := k.rank_lt bio d hd
  rw [Memory.bit, Chunk.store, m.read_write h, if_pos hindex, getLsbD_replaceBits _ _ _ _ _ hx (physicalBit_lt ..),
    ← k.shift_add_rank bio d hk hd, if_pos (by omega), Nat.add_sub_cancel_left]

/-- Storing a chunk keeps every bit outside its place. -/
theorem Chunk.bit_store_outside (p : Nat)
    (hp : p < 8 * k.index + k.offset ∨ 8 * k.index + k.offset + k.size ≤ p) :
    (k.store bio x m).bit bio p = m.bit bio p := by
  rw [Memory.bit, Chunk.store, m.read_write h]
  split
  · next hindex =>
    rw [getLsbD_replaceBits _ _ _ _ _ hx (physicalBit_lt ..), hindex, if_neg, Memory.bit]
    cases bio <;> simp only [Chunk.shift, physicalBit] <;> omega
  · rfl

end

section
variable {c w start : Nat} {ks : List Chunk} (ht : Tiles c w start ks) (bio : BitOrder) {f : Chunk → Nat}
  (hf : ∀ k, f k < 2 ^ k.size) {m : Memory} (h : m.wf)
include ht hf h

/-- Storing the chunks keeps every bit before the first and after the last of them. -/
theorem Tiles.bit_storeAll_outside (p : Nat) (hp : p < c + start ∨ c + w ≤ p) :
    (ks.foldl (fun m k => k.store bio (f k) m) m).bit bio p = m.bit bio p := by
  induction ht generalizing m with
  | nil => rfl
  | cons k ks hbyte hplace hrest ih =>
    have hle := hrest.start_le
    rw [List.foldl_cons, ih (k.store_wf bio _ m h) (by omega),
      k.bit_store_outside bio h hbyte (hf k) p (by omega)]

/-- After the chunks are stored each of them holds what was stored in it. -/
theorem Tiles.bit_storeAll_chunk (k : Chunk) (hk : k ∈ ks) (d : Nat) (hd : d < k.size) :
    (ks.foldl (fun m k => k.store bio (f k) m) m).bit bio (c + (k.start + d)) = (f k).testBit (k.rank bio d) := by
  induction ht generalizing m with
  | nil => cases hk
  | cons head ks hbyte hplace hrest ih =>
    have hwf := head.store_wf bio (f head) m h
    rcases List.mem_cons.mp hk with rfl | hk
    · rw [List.foldl_cons, hrest.bit_storeAll_outside bio hf hwf _ (by omega), ← Nat.add_assoc, ← hplace,
        k.bit_store_inside bio h hbyte (hf k) d hd]
    · exact ih hwf hk

end

theorem Chunk.piece_lt (k : Chunk) (byo : ByteOrder) (w x : Nat) : k.piece byo w x < 2 ^ k.size := by
  cases byo <;> exact Nat.mod_lt _ (Nat.two_pow_pos _)

/-- The chunk's piece of a value is the value's bits at the chunk's weight. -/
theorem Chunk.piece_testBit (k : Chunk) (byo : ByteOrder) (w x i : Nat) (hi : i < k.size) :
    (k.piece byo w x).testBit i = x.testBit (i + bitWeight byo w k.start k.size) := by
  cases byo <;>
    rw [Chunk.piece, Nat.testBit_mod_two_pow, Nat.testBit_div_two_pow, decide_eq_true hi, Bool.true_and] <;> rfl

section
variable {m : Memory} (h : m.wf) (c w val : Nat) (pp : Policy)
include h

/-- Stream bit `j` of a field written is value bit `fieldBit` (41_bitcodec.md R91, R92). -/
theorem Memory.bit_insert_inside (j : Nat) (hj : j < w) :
    (m.insert c w val pp).bit pp.bio (c + j) = val.testBit (fieldBit c w j pp) := by
  have hlt := fieldBit_lt c w j pp hj
  obtain ⟨k, hk, d, hd, rfl⟩ := exists_chunk c w j hj
  have hpieces : ∀ k : Chunk, k.piece pp.byo w (val % 2 ^ w) < 2 ^ k.size := fun k => k.piece_lt pp.byo w _
  rw [Memory.insert, (cut_tiles c w).bit_storeAll_chunk pp.bio hpieces h k hk d hd,
    k.piece_testBit pp.byo w _ _ (k.rank_lt pp.bio d hd), ← fieldBit_chunk c w pp k hk d hd, Nat.testBit_mod_two_pow,
    decide_eq_true hlt, Bool.true_and]

/-- A field written keeps every bit outside it (41_bitcodec.md R91). -/
theorem Memory.bit_insert_outside (p : Nat) (hp : p < c ∨ c + w ≤ p) :
    (m.insert c w val pp).bit pp.bio p = m.bit pp.bio p :=
  (cut_tiles c w).bit_storeAll_outside pp.bio (fun k => k.piece_lt pp.byo w _) h p hp

/-- A field written and read back gives the value modulo `2^w`. -/
theorem Memory.extract_insert : (m.insert c w val pp).extract c w pp = val % 2 ^ w := by
  refine eq_of_testBit_fieldBit c w pp (Memory.extract_lt ..) (Nat.mod_lt _ (Nat.two_pow_pos w)) fun j hj => ?_
  rw [Memory.extract_testBit _ c w pp j hj, Memory.bit_insert_inside h c w val pp j hj, Nat.testBit_mod_two_pow,
    decide_eq_true (fieldBit_lt c w j pp hj), Bool.true_and]

end

/-- Settles O50: the closed form of the loop of R90, bit by bit. -/
theorem extractClosedForm : Obligations.ExtractClosedForm := by
  intro m c w pp
  refine ⟨fun k hk => ⟨fieldBit_lt c w k pp hk, m.extract_testBit c w pp k hk, ?_, ?_⟩,
    fun k k' hk hk' => fieldBit_injective c w k k' pp hk hk', m.extract_lt c w pp⟩
  · rintro rfl; exact fieldBit_bm c w k hk
  · rintro rfl; exact fieldBit_ll c w k hk

/-- Settles O51: the closed form of the loop of R91, and the field read back. -/
theorem insertClosedForm : Obligations.InsertClosedForm := fun _ c w val pp h =>
  ⟨Memory.bit_insert_inside h c w val pp, Memory.bit_insert_outside h c w val pp, Memory.extract_insert h c w val pp⟩

end Sys2Proof.Machine
end

section
/-! The statements about the Bit Codec commands (41_bitcodec.md R94 to R98). `PEEK` and `READ` share their checks and
their value, whose outcomes are said once; the laws of R98 are read off the closed form of R92. -/

namespace Sys2Proof.Machine

/-- The opcode of a codec command (30_encoding.md R52). -/
theorem opc_fieldHeader (b : SlotNo) (pp : Policy) (w : WidthField) (opc : BitVec 8) :
    (fieldHeader b pp w opc).extractLsb' 0 8 = opc :=
  opc_header ..

theorem not_widthLegal_iff (w : WidthField) : (!widthLegal w) = true ↔ w.toNat < 1 ∨ 64 < w.toNat := by
  rw [Bool.not_eq_true', ← Bool.not_eq_true, widthLegal_iff]
  omega

/-! ### The value of a field at the cursor -/

/-- The result word of a field read at the cursor (41_bitcodec.md R94). -/
def Slot.fieldWord (sl : Slot) (pp : Policy) (w : Nat) : Word :=
  BitVec.ofNat 64 (sl.bytes.extract sl.cursor.toNat w pp)

/-- A field of a legal width fits the result word. -/
theorem Slot.toNat_fieldWord (sl : Slot) (pp : Policy) (w : Nat) (hw : w ≤ 64) :
    (sl.fieldWord pp w).toNat = sl.bytes.extract sl.cursor.toNat w pp :=
  (BitVec.toNat_ofNat _ 64).trans <| Nat.mod_eq_of_lt
    ((sl.bytes.extract_lt sl.cursor.toNat w pp).trans_le (Nat.pow_le_pow_right (by decide) hw))

theorem Slot.toNat_fieldWord_lt (sl : Slot) (pp : Policy) (w : Nat) (hw : w ≤ 64) :
    (sl.fieldWord pp w).toNat < 2 ^ w :=
  sl.toNat_fieldWord pp w hw ▸ sl.bytes.extract_lt ..

theorem Slot.getLsbD_fieldWord (sl : Slot) (pp : Policy) (w : Nat) (hw : w ≤ 64) (k : Nat) (hk : k < w) :
    (sl.fieldWord pp w).getLsbD (fieldBit sl.cursor.toNat w k pp) = sl.bytes.bit pp.bio (sl.cursor.toNat + k) := by
  rw [← BitVec.testBit_toNat, sl.toNat_fieldWord pp w hw, Memory.extract_testBit _ _ _ _ k hk]

/-! ### The shared read -/

section
variable {sl : Slot} {w : WidthField} (s : State) (pp : Policy) (k : Word → Effect)

theorem readField_of_illegal (hw : w.toNat < 1 ∨ 64 < w.toNat) :
    readField sl pp w s k = raise .widthRange s :=
  if_pos ((not_widthLegal_iff w).mpr hw)

variable (hw : 1 ≤ w.toNat ∧ w.toNat ≤ 64)
include hw

theorem readField_of_beyond (hend : sl.bitCount.toNat < sl.cursor.toNat + w.toNat) :
    readField sl pp w s k = raise .capacity s := by
  rw [readField, if_neg (mt (not_widthLegal_iff w).mp (by omega)), if_pos hend]

theorem readField_of_within (hsl : sl.wf s.cfg.capBytes) (hend : sl.cursor.toNat + w.toNat ≤ sl.bitCount.toNat) :
    readField sl pp w s k = k (sl.fieldWord pp w.toNat) := by
  have hstore : ¬ (!s.inStore (bytesFor (sl.cursor.toNat + w.toNat))) = true := by
    simpa [State.inStore] using Slot.bytesFor_le_of_wf hsl hend
  rw [readField, if_neg (mt (not_widthLegal_iff w).mp (by omega)), if_neg (Nat.not_lt_of_le hend), if_neg hstore]
  rfl

end

/-- The outcomes of a command that ends in the shared read, in the terms of the statements. -/
theorem readField_outcomes {i : Instr} {s : State} {sl : Slot} {pp : Policy} {w : WidthField} {k : Word → Effect}
    (hsl : sl.wf s.cfg.capBytes) (hexec : exec i s = readField sl pp w s k) :
    (w.toNat < 1 ∨ 64 < w.toNat → Raises i s .widthRange) ∧
      (1 ≤ w.toNat → w.toNat ≤ 64 →
        (sl.bitCount.toNat - sl.cursor.toNat < w.toNat → Raises i s .capacity) ∧
        (w.toNat ≤ sl.bitCount.toNat - sl.cursor.toNat → exec i s = k (sl.fieldWord pp w.toNat))) := by
  have hcursor : sl.cursor.toNat ≤ sl.bitCount.toNat := hsl.1
  refine ⟨fun hw => hexec.trans (readField_of_illegal s pp k hw), fun h1 h64 => ⟨fun hend => ?_, fun hend => ?_⟩⟩
  · exact hexec.trans (readField_of_beyond s pp k ⟨h1, h64⟩ (by omega))
  · exact hexec.trans (readField_of_within s pp k ⟨h1, h64⟩ hsl (by omega))

/-! ### The commands on a slot that holds a buffer -/

section
variable {b : SlotNo} {s : State} {sl : Slot} (h : s.Holds b sl) (pp : Policy) (w : WidthField)
include h

theorem exec_peek_of_holds : exec (.peek b pp w) s = readField sl pp w s fun v => answer v 0 s :=
  needBuffer_present b s _ sl h.1 h.2

theorem exec_read_of_holds :
    exec (.read b pp w) s =
      readField sl pp w s fun v => finish b (sl.seek (sl.cursor.toNat + w.toNat)) v 0 s :=
  needBuffer_present b s _ sl h.1 h.2

theorem exec_write_of_holds (value : Word) :
    exec (.write b pp w value) s =
      if !widthLegal w then raise .widthRange s
      else if s.noRoom (sl.cursor.toNat + w.toNat) then raise .alloc s
      else finish b (sl.writeField pp w.toNat value) 0 0 s :=
  needBuffer_present b s _ sl h.1 h.2

variable {w} (hw : 1 ≤ w.toNat ∧ w.toNat ≤ 64)
include hw

/-- `PEEK` of a field that lies within the buffer. -/
theorem exec_peek_within (hs : s.wf) (hend : sl.cursor.toNat + w.toNat ≤ sl.bitCount.toNat) :
    Answers (.peek b pp w) s (sl.fieldWord pp w.toNat) :=
  (exec_peek_of_holds h pp w).trans (readField_of_within s pp _ hw (s.slot_wf hs b sl h.1) hend)

/-- `READ` of a field that lies within the buffer. -/
theorem exec_read_within (hs : s.wf) (hend : sl.cursor.toNat + w.toNat ≤ sl.bitCount.toNat) :
    Becomes (.read b pp w) s b (sl.seek (sl.cursor.toNat + w.toNat)) ⟨.ok, sl.fieldWord pp w.toNat, 0, []⟩ :=
  (exec_read_of_holds h pp w).trans (readField_of_within s pp _ hw (s.slot_wf hs b sl h.1) hend)

/-- `WRITE` of a field that lies within the store. -/
theorem exec_write_within (value : Word) (hroom : sl.cursor.toNat + w.toNat ≤ 8 * s.cfg.capBytes) :
    Becomes (.write b pp w value) s b (sl.writeField pp w.toNat value) ⟨.ok, 0, 0, []⟩ := by
  have hfits : ¬ s.noRoom (sl.cursor.toNat + w.toNat) = true := by
    simpa [State.noRoom, Config.capBits] using hroom
  rw [Becomes, exec_write_of_holds h, if_neg (mt (not_widthLegal_iff w).mp (by omega)), if_neg hfits, finish_next]

end

/-- `SKIP` to a position within the buffer moves the cursor and nothing else. -/
theorem exec_skip_within {b : SlotNo} {s : State} {sl : Slot} (h : s.Holds b sl) (delta : Word) (t : Nat)
    (ht : sl.skipTarget delta = t) (hsl : sl.wf s.cfg.capBytes) (hend : t ≤ sl.bitCount.toNat) :
    Becomes (.skip b delta) s b (sl.seek t) ⟨.ok, 0, 0, []⟩ := by
  obtain ⟨-, hbits, -⟩ := hsl
  have hgrow : sl.growTo t = sl := if_neg (Nat.not_lt_of_le hend)
  rw [Becomes, exec_skip_of_holds h, ht, if_neg (Int.not_lt.mpr (Int.natCast_nonneg t)), Int.toNat_natCast,
    moveTo_of_le b s sl t (hend.trans hbits), hgrow, finish_next]

/-- The slot after `WRITE`, register by register. -/
theorem Slot.writeField_eq (sl : Slot) (pp : Policy) (w : Nat) (value : Word) (hv : sl.valid = true) :
    sl.writeField pp w value =
      ⟨true, BitVec.ofNat 64 (max sl.bitCount.toNat (sl.cursor.toNat + w)), BitVec.ofNat 64 (sl.cursor.toNat + w),
        (sl.growTo (sl.cursor.toNat + w)).bytes.insert sl.cursor.toNat w value.toNat pp⟩ := by
  have hregs := sl.seek_growTo (sl.cursor.toNat + w) hv
  simp only [Slot.seek, Slot.mk.injEq] at hregs
  obtain ⟨hvalid, hbits, -⟩ := hregs
  simp only [Slot.writeField, Slot.seek, hvalid, hbits]

/-- A grown store, bit by bit (20_memory.md R36). -/
theorem Slot.bit_growTo (sl : Slot) (t : Nat) (bio : BitOrder) (p : Nat) :
    (sl.growTo t).bytes.bit bio p = sl.grownBit t bio p := by
  rw [Memory.bit, sl.read_growTo, Slot.grownBit, Slot.len]
  split
  · exact BitVec.getLsbD_zero
  · rfl

/-! ### The statements -/

/-- Settles O31: the outcomes of the shared read; its value is given by the closed form. -/
theorem peek : Obligations.Peek := by
  intro b pp w s hs
  refine ⟨opc_fieldHeader b pp w 0x10, needBuffer_absent b s _, fun sl hsl => ?_⟩
  obtain ⟨hillegal, hlegal⟩ := readField_outcomes (s.slot_wf hs b sl hsl.1) (exec_peek_of_holds hsl pp w)
  refine ⟨hillegal, fun h1 h64 => ⟨(hlegal h1 h64).1, fun hend => ?_⟩⟩
  exact ⟨_, (hlegal h1 h64).2 hend, sl.toNat_fieldWord_lt pp _ h64, sl.getLsbD_fieldWord pp _ h64⟩

/-- Settles O32: the outcomes of the shared read; the value is that of `PEEK`, and the cursor alone moves. -/
theorem read : Obligations.Read := by
  intro b pp w s hs
  refine ⟨opc_fieldHeader b pp w 0x11, needBuffer_absent b s _, fun sl hsl => ?_⟩
  obtain ⟨hillegal, hlegal⟩ := readField_outcomes (s.slot_wf hs b sl hsl.1) (exec_read_of_holds hsl pp w)
  refine ⟨hillegal, fun h1 h64 => ⟨(hlegal h1 h64).1, fun hend => ?_⟩⟩
  exact ⟨_, (hlegal h1 h64).2 hend, sl.toNat_fieldWord_lt pp _ h64, sl.getLsbD_fieldWord pp _ h64⟩

/-- Settles O33: the store is the grown one with the field inserted. -/
theorem write : Obligations.Write := by
  intro b pp w value s hs
  refine ⟨opc_fieldHeader b pp w 0x12, needBuffer_absent b s _, fun sl hsl => ?_⟩
  have hexec := exec_write_of_holds hsl pp w value
  refine ⟨fun hw => hexec.trans (if_pos ((not_widthLegal_iff w).mpr hw)),
    fun h1 h64 => ⟨fun hfull => ?_, fun hroom => ?_⟩⟩
  · rw [if_neg (mt (not_widthLegal_iff w).mp (by omega))] at hexec
    exact hexec.trans (if_pos (decide_eq_true hfull))
  · obtain ⟨-, -, -, hwf, -⟩ := s.slot_wf hs b sl hsl.1
    have hgrown := sl.growTo_bytes_wf (sl.cursor.toNat + w.toNat) hwf
    have hwrite := exec_write_within hsl pp ⟨h1, h64⟩ value hroom
    rw [sl.writeField_eq pp _ value hsl.2] at hwrite
    refine ⟨_, hwrite, fun k hk => ?_, fun p hp => ?_⟩
    · rw [Memory.bit_insert_inside hgrown _ _ _ pp k hk, BitVec.testBit_toNat]
    · rw [Memory.bit_insert_outside hgrown _ _ _ pp p hp, sl.bit_growTo]

end Sys2Proof.Machine
end

section
/-! The laws of the codec (41_bitcodec.md R98), read off the closed form of R92 and the outcomes of the commands. -/

namespace Sys2Proof.Machine

/-! ### Chaining commands on one slot -/

/-- A command leads from good states to good states. -/
theorem exec_keeps_wf (i : Instr) (s t : State) (hs : s.wf) (h : exec i s = .next t) : t.wf := by
  obtain ⟨hcfg, hlen, hslots⟩ := hs
  obtain ⟨hcfg', -, hlen', -, -⟩ := exec_next_ports i s t h
  refine ⟨hcfg' ▸ hcfg, by rw [hlen', hcfg', hlen], hcfg' ▸ ?_⟩
  exact exec_forall_slots (Slot.wf s.cfg.capBytes) i s t (fun a sl hfits => a.apply_wf s.cfg hcfg sl hfits) hslots h

/-- The slot a command has changed to a valid one holds it. -/
theorem State.Holds.setSlot_respond {s : State} {b : SlotNo} {sl : Slot} (h : s.Holds b sl) {sl' : Slot}
    (hv : sl'.valid = true) (r : Response) : ((s.setSlot b sl').respond r).Holds b sl' :=
  ⟨s.slot?_setSlot_same b sl sl' h.1, hv⟩

theorem State.Holds.setSlot_seek {s : State} {b : SlotNo} {sl : Slot} (h : s.Holds b sl) (t : Nat) (r : Response) :
    ((s.setSlot b (sl.seek t)).respond r).Holds b (sl.seek t) :=
  h.setSlot_respond (sl' := sl.seek t) h.2 r

/-- A cursor put within the buffer stands where it was put. -/
theorem Slot.toNat_cursor_seek (sl : Slot) {t : Nat} (ht : t ≤ sl.bitCount.toNat) : (sl.seek t).cursor.toNat = t :=
  (BitVec.toNat_ofNat t 64).trans (Nat.mod_eq_of_lt (ht.trans_lt sl.bitCount.isLt))

/-- The registers of a buffer after `WRITE` of a field that lies within the store. -/
theorem Slot.writeField_registers (cfg : Config) (hcfg : cfg.wf) (sl : Slot) (hsl : sl.wf cfg.capBytes) (pp : Policy)
    (w : Nat) (value : Word) (hv : sl.valid = true) (hroom : sl.cursor.toNat + w ≤ 8 * cfg.capBytes) :
    (sl.writeField pp w value).valid = true ∧
      (sl.writeField pp w value).bitCount.toNat = max sl.bitCount.toNat (sl.cursor.toNat + w) ∧
      (sl.writeField pp w value).cursor.toNat = sl.cursor.toNat + w := by
  obtain ⟨-, hbits, -⟩ := hsl
  rw [sl.writeField_eq pp w value hv]
  exact ⟨rfl, toNat_position cfg hcfg (max_le hbits hroom), toNat_position cfg hcfg hroom⟩

/-! ### Round trip -/

/-- The target of a seek back by a width of at most 64 bits. -/
theorem Slot.skipTarget_back (sl : Slot) (w c : Nat) (hw : w ≤ 64) (hc : sl.cursor.toNat = c + w) :
    sl.skipTarget (BitVec.ofInt 64 (-(w : ℤ))) = c := by
  have hdelta : (BitVec.ofInt 64 (-(w : ℤ))).toInt = -w :=
    BitVec.toInt_ofInt_eq_self (by decide) (by omega) (by omega)
  rw [Slot.skipTarget, signedWord, hdelta, hc]
  omega

/-- The target of a skip forward by a width of at most 64 bits. -/
theorem Slot.skipTarget_forward (sl : Slot) (w : Nat) (hw : w ≤ 64) :
    sl.skipTarget (BitVec.ofNat 64 w) = (sl.cursor.toNat + w : ℕ) := by
  have hword : (BitVec.ofNat 64 w).toNat = w := (BitVec.toNat_ofNat w 64).trans (Nat.mod_eq_of_lt (by omega))
  rw [Slot.skipTarget, signedWord, BitVec.toInt_eq_toNat_of_lt (by omega), hword, Nat.cast_add]

/-- The field just written is the value, where the value has no more bits than the field. -/
theorem Slot.fieldWord_writeField (sl : Slot) (hwf : sl.bytes.wf) (pp : Policy) (w : Nat) (value : Word) (hw : w ≤ 64)
    (hvalue : value.toNat < 2 ^ w) (hc : sl.cursor.toNat ≤ (sl.writeField pp w value).bitCount.toNat) :
    ((sl.writeField pp w value).seek sl.cursor.toNat).fieldWord pp w = value := by
  refine BitVec.eq_of_toNat_eq ?_
  rw [Slot.toNat_fieldWord _ pp w hw, Slot.toNat_cursor_seek _ hc]
  exact (Memory.extract_insert (sl.growTo_bytes_wf _ hwf) ..).trans (Nat.mod_eq_of_lt hvalue)

/-- Settles O53: `SEEK` leads back to the start of the field, which now holds the value. -/
theorem fieldRoundTrip : Obligations.FieldRoundTrip := by
  intro b pp w v s sl hs hsl h1 h64 hv hroom
  have hgood := s.slot_wf hs b sl hsl.1
  obtain ⟨hvalid, hbits, hcursor⟩ := sl.writeField_registers s.cfg hs.1 hgood pp w.toNat v hsl.2 hroom
  have hback : sl.cursor.toNat ≤ (sl.writeField pp w.toNat v).bitCount.toNat := by omega
  have hword := sl.fieldWord_writeField hgood.2.2.2.1 pp w.toNat v h64 hv hback
  have hwrite := exec_write_within hsl pp ⟨h1, h64⟩ v hroom
  generalize sl.writeField pp w.toNat v = y at *
  have hs1 := exec_keeps_wf _ _ _ hs hwrite
  have hsl1 := hsl.setSlot_respond hvalid ⟨.ok, 0, 0, []⟩
  have hskip := exec_skip_within hsl1 _ _ (y.skipTarget_back _ _ h64 hcursor) (State.slot_wf _ hs1 b y hsl1.1) hback
  have hs2 := exec_keeps_wf _ _ _ hs1 hskip
  have hsl2 := hsl1.setSlot_seek sl.cursor.toNat ⟨.ok, 0, 0, []⟩
  have hstart := y.toNat_cursor_seek hback
  have hend : (y.seek sl.cursor.toNat).cursor.toNat + w.toNat ≤ y.bitCount.toNat := by omega
  have hread := exec_read_within hsl2 pp ⟨h1, h64⟩ hs2 hend
  rw [hword, hstart] at hread
  have hfinish : ((y.seek sl.cursor.toNat).seek (sl.cursor.toNat + w.toNat)).cursor.toNat =
      sl.cursor.toNat + w.toNat := toNat_position s.cfg hs.1 hroom
  exact ⟨_, _, _, y, _, hwrite, hskip, hread, rfl, hsl1, hsl2.setSlot_seek _ _, hfinish,
    BitVec.eq_of_toNat_eq (hfinish.trans hcursor.symm)⟩

/-! ### `READ` as `PEEK` and `SKIP` -/

/-- What it takes for `PEEK` to answer `OK`. -/
theorem exec_peek_ok {b : SlotNo} {pp : Policy} {w : WidthField} {v : Word} {s t : State}
    (hexec : exec (.peek b pp w) s = .next t) (hok : t.response = some ⟨.ok, v, 0, []⟩) :
    ∃ sl, s.Holds b sl ∧ (1 ≤ w.toNat ∧ w.toNat ≤ 64) ∧ sl.cursor.toNat + w.toNat ≤ sl.bitCount.toNat ∧
      v = sl.fieldWord pp w.toNat ∧ t = s.respond ⟨.ok, v, 0, []⟩ := by
  rcases needBuffer_cases b s fun sl => readField sl pp w s fun v => answer v 0 s with
    ⟨sl, hslot, hvalid, hrun⟩ | ⟨-, hrun⟩
  · have hread := (hexec.symm.trans hrun).symm
    rcases readField_cases sl pp w s fun v => answer v 0 s with
      ⟨-, he⟩ | ⟨-, -, he⟩ | ⟨-, -, -, he⟩ | ⟨hw, hend, -, he⟩ <;> rw [he] at hread <;> cases hread
    · cases hok
    · cases hok
    · cases hok
      exact ⟨sl, ⟨hslot, hvalid⟩, (widthLegal_iff w).mp hw, hend, rfl, rfl⟩
  · cases hexec.symm.trans hrun
    cases hok

/-- Settles O54: `PEEK` leaves the slot as it found it, and both ways lead to it with its cursor after the field. -/
theorem readIsPeekThenSkip : Obligations.ReadIsPeekThenSkip := by
  intro b pp w v s t hs hpeek hok
  obtain ⟨sl, hsl, hw, hend, rfl, rfl⟩ := exec_peek_ok hpeek hok
  have hs1 := State.respond_wf s hs ⟨.ok, sl.fieldWord pp w.toNat, 0, []⟩
  have hgood := s.slot_wf hs b sl hsl.1
  exact ⟨exec_peek_within hsl pp hw hs1 hend, rfl, _, _,
    exec_skip_within hsl _ _ (sl.skipTarget_forward _ hw.2) hgood hend, exec_read_within hsl pp hw hs hend, rfl, rfl⟩

/-! ### Splitting reads -/

section
variable (m : Memory) (c w : Nat)

/-- Under `.BM` the most significant bit of a field comes first. -/
theorem Memory.extract_bm_testBit (i : Nat) :
    (m.extract c w ⟨.msbyte, .msbit⟩).testBit i = (decide (i < w) && m.bit .msbit (c + (w - 1 - i))) := by
  by_cases hi : i < w
  · have hbit : fieldBit c w (w - 1 - i) ⟨.msbyte, .msbit⟩ = i := by rw [fieldBit_bm c w _ (by omega)]; omega
    have hvalue := m.extract_testBit c w ⟨.msbyte, .msbit⟩ (w - 1 - i) (by omega)
    rwa [hbit, ← Bool.true_and (Memory.bit ..), ← decide_eq_true hi] at hvalue
  · have hpow := Nat.pow_le_pow_right (n := 2) (by decide) (Nat.le_of_not_lt hi)
    rw [Nat.testBit_lt_two_pow ((m.extract_lt ..).trans_le hpow), decide_eq_false hi, Bool.false_and]

/-- Under `.LL` the least significant bit of a field comes first. -/
theorem Memory.extract_ll_testBit (i : Nat) :
    (m.extract c w ⟨.lsbyte, .lsbit⟩).testBit i = (decide (i < w) && m.bit .lsbit (c + i)) := by
  by_cases hi : i < w
  · have hvalue := m.extract_testBit c w ⟨.lsbyte, .lsbit⟩ i hi
    rwa [fieldBit_ll c w i hi, ← Bool.true_and (Memory.bit ..), ← decide_eq_true hi] at hvalue
  · have hpow := Nat.pow_le_pow_right (n := 2) (by decide) (Nat.le_of_not_lt hi)
    rw [Nat.testBit_lt_two_pow ((m.extract_lt ..).trans_le hpow), decide_eq_false hi, Bool.false_and]

end

section
variable (m : Memory) (c w1 w2 : Nat)

/-- Under `.BM` the bits read first are the more significant ones (41_bitcodec.md R98 item 5). -/
theorem Memory.extract_bm_add :
    m.extract c (w1 + w2) ⟨.msbyte, .msbit⟩ =
      m.extract c w1 ⟨.msbyte, .msbit⟩ * 2 ^ w2 + m.extract (c + w1) w2 ⟨.msbyte, .msbit⟩ := by
  refine Nat.eq_of_testBit_eq fun i => ?_
  rw [Nat.mul_comm, Nat.testBit_two_pow_mul_add _ (m.extract_lt ..), m.extract_bm_testBit, m.extract_bm_testBit,
    m.extract_bm_testBit]
  split
  · next hlow =>
    have hpos : c + (w1 + w2 - 1 - i) = c + w1 + (w2 - 1 - i) := by omega
    rw [hpos, decide_eq_true hlow, decide_eq_true (by omega : i < w1 + w2)]
  · next hhigh =>
    have hpos : w1 + w2 - 1 - i = w1 - 1 - (i - w2) := by omega
    rw [hpos, decide_eq_decide.mpr (by omega : i < w1 + w2 ↔ i - w2 < w1)]

/-- Under `.LL` the bits read first are the less significant ones (41_bitcodec.md R98 item 5). -/
theorem Memory.extract_ll_add :
    m.extract c (w1 + w2) ⟨.lsbyte, .lsbit⟩ =
      m.extract c w1 ⟨.lsbyte, .lsbit⟩ + m.extract (c + w1) w2 ⟨.lsbyte, .lsbit⟩ * 2 ^ w1 := by
  refine Nat.eq_of_testBit_eq fun i => ?_
  rw [Nat.add_comm (m.extract ..), Nat.mul_comm, Nat.testBit_two_pow_mul_add _ (m.extract_lt ..),
    m.extract_ll_testBit, m.extract_ll_testBit, m.extract_ll_testBit]
  split
  · next hlow => rw [decide_eq_true hlow, decide_eq_true (by omega : i < w1 + w2)]
  · next hhigh =>
    have hpos : c + w1 + (i - w1) = c + i := by omega
    rw [hpos, decide_eq_decide.mpr (by omega : i < w1 + w2 ↔ i - w1 < w2)]

end

/-- Settles O55: the second read starts where the first has left the cursor, and the fields join by the laws above. -/
theorem splitReads : Obligations.SplitReads := by
  intro b pp w w1 w2 s sl hs hsl h1 h2 hw h64 hend
  have hmid : sl.cursor.toNat + w1.toNat ≤ sl.bitCount.toNat := by omega
  have hstart := sl.toNat_cursor_seek hmid
  have hpeek := exec_peek_within hsl pp (w := w) (by omega) hs hend
  have hread1 := exec_read_within hsl pp (w := w1) (by omega) hs hmid
  have hs1 := exec_keeps_wf _ _ _ hs hread1
  have hsl1 := hsl.setSlot_seek (sl.cursor.toNat + w1.toNat) ⟨.ok, sl.fieldWord pp w1.toNat, 0, []⟩
  have hread2 := exec_read_within hsl1 pp (w := w2) (by omega) hs1 (by rw [hstart, Slot.seek_bitCount]; omega)
  refine ⟨_, _, _, _, _, hpeek, hread1, rfl, hread2, rfl, ?_⟩
  rw [sl.toNat_fieldWord pp _ h64, sl.toNat_fieldWord pp _ (by omega), Slot.toNat_fieldWord _ pp _ (by omega), hstart,
    hw]
  refine ⟨?_, ?_⟩
  · rintro rfl; exact sl.bytes.extract_bm_add ..
  · rintro rfl; exact sl.bytes.extract_ll_add ..

end Sys2Proof.Machine
end

section
/-! The statement about headers that select no row (30_encoding.md R57, R58; 42_varlen.md R116). -/

namespace Sys2Proof

open Sys2Proof.Machine

/-- The assigned opcodes (30_encoding.md R56, R58). -/
theorem opcode_of_mem_opcodeMap : ∀ r ∈ opcodeMap,
    (0x01 ≤ r.pattern.toNat % 256 ∧ r.pattern.toNat % 256 ≤ 0x07) ∨
    (0x10 ≤ r.pattern.toNat % 256 ∧ r.pattern.toNat % 256 ≤ 0x12) ∨
    (0x20 ≤ r.pattern.toNat % 256 ∧ r.pattern.toNat % 256 ≤ 0x23) ∨
    (0x30 ≤ r.pattern.toNat % 256 ∧ r.pattern.toNat % 256 ≤ 0x31) ∨
    (0x40 ≤ r.pattern.toNat % 256 ∧ r.pattern.toNat % 256 ≤ 0x41) := by
  decide

/-- `TRUNC` and the reserved bits must be zero in every row (30_encoding.md R52). -/
theorem zeroBits_of_mem_opcodeMap : ∀ r ∈ opcodeMap, ∀ j < 32, j = 25 ∨ 27 ≤ j →
    r.mask.getLsbD j = true ∧ r.pattern.getLsbD j = false := by
  decide

section
variable {h : Header} {r : Row} (hr : r ∈ opcodeMap) (hsel : h &&& r.mask = r.pattern)
include hr hsel

/-- A header that selects a row has the row's `OPC`. -/
theorem toNat_mod_of_selects : h.toNat % 256 = r.pattern.toNat % 256 := by
  have hopc := opcode_of_selects r hr h (by simpa [Row.selects] using hsel)
  simpa [BitVec.toNat_setWidth] using congrArg BitVec.toNat hopc

/-- A header that selects a row has `TRUNC` and the reserved bits 0. -/
theorem getLsbD_of_selects {j : Nat} (hj : j < 32) (hzero : j = 25 ∨ 27 ≤ j) : h.getLsbD j = false := by
  obtain ⟨hmask, hpattern⟩ := zeroBits_of_mem_opcodeMap r hr j hj hzero
  simpa [← hsel, hmask] using hpattern

end

/-- A packet whose header selects no row (30_encoding.md R57). -/
theorem runPacket_of_rowOf_none {p : Packet} (hrow : rowOf p.header = none) (s : State) :
    runPacket p s = raise .illegalEncoding s := by
  simp only [runPacket, decode_eq_encoding_error hrow, decodeStatus]

/-- Settles O4: a header that selects a row has an assigned opcode, and 0 in `TRUNC` and in the reserved bits. -/
theorem illegalHeaders : Obligations.IllegalHeaders := by
  intro s p hillegal
  refine runPacket_of_rowOf_none (rowOf_eq_none_iff.mpr fun r hr hsel => ?_) s
  have hassigned := opcode_of_mem_opcodeMap r hr
  rw [← toNat_mod_of_selects hr hsel] at hassigned
  have htrunc := getLsbD_of_selects hr hsel (j := 25) (by decide) (.inl rfl)
  rcases hillegal with hopc | hopc | hopc | hopc | hopc | hopc | hset | ⟨j, hlo, hhi, hset⟩
  iterate 6 omega
  · exact absurd (htrunc.symm.trans hset) (by decide)
  · exact absurd ((getLsbD_of_selects hr hsel (by omega) (.inr hlo)).symm.trans hset) (by decide)

end Sys2Proof
end

section
/-! One-bit fields, and the two codes in the store: which bits a code written at a position sets and which it keeps
(42_varlen.md R110 to R114). -/

namespace Sys2Proof.Machine

/-! ### One-bit fields (42_varlen.md R110) -/

/-- The one bit of a one-bit field has the value's lowest bit. -/
theorem fieldBit_one (p : Nat) (pp : Policy) : fieldBit p 1 0 pp = 0 :=
  Nat.lt_one_iff.mp (fieldBit_lt p 1 0 pp Nat.one_pos)

/-- A one-bit field read is the bit at its position, under every policy pair. -/
theorem Memory.extract_one (m : Memory) (p : Nat) (pp : Policy) : m.extract p 1 pp = (m.bit pp.bio p).toNat := by
  have hbit := m.extract_testBit p 1 pp 0 Nat.one_pos
  rw [fieldBit_one, Nat.add_zero] at hbit
  rw [← hbit, Nat.toNat_testBit, Nat.pow_zero, Nat.div_one]
  exact (Nat.mod_eq_of_lt (m.extract_lt p 1 pp)).symm

theorem Memory.bitAt_eq (m : Memory) (p : Nat) (bio : BitOrder) : m.bitAt p bio = (m.bit bio p).toNat :=
  m.extract_one p ⟨.msbyte, bio⟩

/-- The one chunk of a one-bit field takes the same bit of the value under both byte orders. -/
theorem Memory.putBit_eq_insert (m : Memory) (p x : Nat) (byo : ByteOrder) (bio : BitOrder) :
    m.putBit p x bio = m.insert p 1 x ⟨byo, bio⟩ := by
  simp only [Memory.putBit, Memory.insert, cut_one]
  cases byo <;> rfl

/-- A bit written stands at its position, and every other bit is kept. -/
theorem Memory.bit_putBit (m : Memory) (h : m.wf) (p x : Nat) (bio : BitOrder) (q : Nat) :
    (m.putBit p x bio).bit bio q = if q = p then x.testBit 0 else m.bit bio q := by
  by_cases hq : q = p
  · subst hq
    have hbit := Memory.bit_insert_inside h q 1 x ⟨.msbyte, bio⟩ 0 Nat.one_pos
    rw [fieldBit_one] at hbit
    rw [if_pos rfl]
    exact hbit
  · rw [if_neg hq]
    exact Memory.bit_insert_outside h p 1 x ⟨.msbyte, bio⟩ q (by omega)

/-- Settles O52: a one-bit field is one bit of one chunk, and the unary commands look at no other field. -/
theorem oneBit : Obligations.OneBit := by
  refine ⟨fun m p byo bio => ⟨?_, ?_⟩, fun m p x byo bio h => ⟨m.putBit_eq_insert p x byo bio, fun q => ?_⟩, ?_⟩
  · rw [m.bitAt_eq, m.extract_one]
  · rw [m.bitAt_eq, Memory.bit]
    cases bio <;> rfl
  · rw [Memory.bitAt_eq, Memory.bitAt_eq, m.bit_putBit h]
    split
    · rw [Nat.toNat_testBit, Nat.pow_zero, Nat.div_one]
    · rfl
  · intro b pp pp' flavor stop value s hbio
    simp only [exec, execRdun, execWrun, hbio, and_self]

/-! ### The unary code (42_varlen.md R111) -/

/-- The unary code of `k` stands at position `c`: `k` non-stop bits and one stop bit. -/
structure Memory.UnaryAt (m : Memory) (bio : BitOrder) (stop : StopField) (c k : Nat) : Prop where
  stopBit : m.bit bio (c + k) = stopValue stop
  run : ∀ j, j < k → m.bit bio (c + j) ≠ stopValue stop

/-- The two legal values of `STOP`. -/
theorem stop_cases {stop : StopField} (h : stop.toNat ≤ 1) : stop = 0 ∨ stop = 1 := by
  rcases Nat.le_one_iff_eq_zero_or_eq_one.mp h with h0 | h1
  · exact .inl (BitVec.eq_of_toNat_eq h0)
  · exact .inr (BitVec.eq_of_toNat_eq h1)

theorem stopValue_eq_testBit {stop : StopField} (h : stop.toNat ≤ 1) : stop.toNat.testBit 0 = stopValue stop := by
  rcases stop_cases h with rfl | rfl <;> rfl

theorem not_stopValue_eq_testBit {stop : StopField} (h : stop.toNat ≤ 1) :
    (1 - stop.toNat).testBit 0 = !stopValue stop := by
  rcases stop_cases h with rfl | rfl <;> rfl

/-- A bit as the scan compares it is the stop bit exactly where its truth value is that of the stop bit. -/
theorem Memory.bitAt_eq_stop_iff (m : Memory) (p : Nat) (bio : BitOrder) {stop : StopField} (h : stop.toNat ≤ 1) :
    m.bitAt p bio = stop.toNat ↔ m.bit bio p = stopValue stop := by
  rw [m.bitAt_eq]
  rcases stop_cases h with rfl | rfl <;> cases m.bit bio p <;> decide

section
variable (m : Memory) (h : m.wf) (c : Nat) (bio : BitOrder)
include h

/-- A run of `k` bits written stands at its position, and every other bit is kept. -/
theorem Memory.bit_putRun (x k p : Nat) :
    (m.putRun c x bio k).bit bio p = if c ≤ p ∧ p < c + k then x.testBit 0 else m.bit bio p := by
  induction k with
  | zero => rw [if_neg (by omega), Memory.putRun]
  | succ k ih =>
    rw [Memory.putRun, Memory.bit_putBit _ (m.putRun_wf h c x bio k), ih]
    by_cases hlast : p = c + k
    · rw [if_pos hlast, if_pos (by omega)]
    · rw [if_neg hlast, if_congr (by omega : c ≤ p ∧ p < c + k ↔ c ≤ p ∧ p < c + (k + 1)) rfl rfl]

variable (k : Nat)

/-- A unary code written keeps every bit outside it. -/
theorem Memory.bit_putUnary_outside (stop p : Nat) (hp : p < c ∨ c + k + 1 ≤ p) :
    (m.putUnary c k stop bio).bit bio p = m.bit bio p := by
  rw [Memory.putUnary, Memory.bit_putBit _ (m.putRun_wf h c _ bio k), if_neg (by omega), m.bit_putRun h,
    if_neg (by omega)]

variable {stop : StopField} (hstop : stop.toNat ≤ 1)
include hstop

theorem Memory.bit_putUnary_stop : (m.putUnary c k stop.toNat bio).bit bio (c + k) = stopValue stop := by
  rw [Memory.putUnary, Memory.bit_putBit _ (m.putRun_wf h c _ bio k), if_pos rfl, stopValue_eq_testBit hstop]

theorem Memory.bit_putUnary_run (j : Nat) (hj : j < k) :
    (m.putUnary c k stop.toNat bio).bit bio (c + j) = !stopValue stop := by
  rw [Memory.putUnary, Memory.bit_putBit _ (m.putRun_wf h c _ bio k), if_neg (by omega), m.bit_putRun h,
    if_pos (by omega), not_stopValue_eq_testBit hstop]

theorem Memory.putUnary_unaryAt : (m.putUnary c k stop.toNat bio).UnaryAt bio stop c k where
  stopBit := m.bit_putUnary_stop h c bio k hstop
  run j hj := by
    rw [m.bit_putUnary_run h c bio k hstop j hj]
    exact Bool.not_ne_self _

end

/-! ### The Exponential-Golomb code (42_varlen.md R114) -/

/-- With `k = floor(log2(u + 1))` the payload `u + 1 - 2^k` is a number of `k` bits. -/
theorem golombPrefix_spec (u : Nat) :
    u + 1 = 2 ^ golombPrefix u + (u + 1 - 2 ^ golombPrefix u) ∧ u + 1 - 2 ^ golombPrefix u < 2 ^ golombPrefix u := by
  have hle : 2 ^ golombPrefix u ≤ u + 1 := Nat.log2_self_le (Nat.succ_ne_zero u)
  have hlt : u + 1 < 2 ^ (golombPrefix u + 1) := Nat.lt_log2_self
  rw [Nat.pow_succ] at hlt
  omega

/-- A number below `2^64 - 1` has a code of at most 63 non-stop bits (42_varlen.md R118). -/
theorem golombPrefix_le {u : Nat} (hu : u ≤ 2 ^ 64 - 2) : golombPrefix u ≤ 63 :=
  Nat.le_of_lt_succ ((Nat.log2_lt (Nat.succ_ne_zero u)).mpr (by omega))

/-- A number of `k + 1` bits, with `k` at most 63, is coded by a number below `2^64 - 1`. -/
theorem two_pow_add_sub_one_le {k payload : Nat} (hk : k ≤ 63) (hpayload : payload < 2 ^ k) :
    2 ^ k + payload - 1 ≤ 2 ^ 64 - 2 := by
  have hpow : 2 ^ k ≤ 2 ^ 63 := Nat.pow_le_pow_right (by decide) hk
  omega

/-- The payload is a field of `k` bits, also where `k` is 0 and there is nothing to read. -/
theorem Memory.golombPayload_eq (m : Memory) (c k : Nat) (pp : Policy) :
    m.golombPayload c k pp = m.extract (c + k + 1) k pp := by
  rw [Memory.golombPayload]
  split
  · next hk => subst hk; rfl
  · rfl

/-- The code is the unary code of `k` with the payload field after it, also where that field has no bits. -/
theorem Memory.putGolomb_eq (m : Memory) (c u stop : Nat) (pp : Policy) :
    m.putGolomb c u stop pp =
      (m.putUnary c (golombPrefix u) stop pp.bio).insert (c + golombPrefix u + 1) (golombPrefix u)
        (u + 1 - 2 ^ golombPrefix u) pp := by
  rw [Memory.putGolomb]
  split
  · next hk => rw [hk]; rfl
  · rfl

section
variable (m : Memory) (h : m.wf) (c u : Nat) (pp : Policy)
include h

/-- An Exponential-Golomb code written keeps every bit outside it. -/
theorem Memory.bit_putGolomb_outside (stop p : Nat) (hp : p < c ∨ c + golombLength u ≤ p) :
    (m.putGolomb c u stop pp).bit pp.bio p = m.bit pp.bio p := by
  rw [golombLength] at hp
  rw [m.putGolomb_eq, Memory.bit_insert_outside (m.putUnary_wf h ..) _ _ _ _ _ (by omega),
    m.bit_putUnary_outside h _ _ _ _ _ (by omega)]

/-- The payload field is behind the unary code, so writing it keeps that. -/
theorem Memory.bit_putGolomb_unary (stop j : Nat) (hj : j ≤ golombPrefix u) :
    (m.putGolomb c u stop pp).bit pp.bio (c + j) =
      (m.putUnary c (golombPrefix u) stop pp.bio).bit pp.bio (c + j) := by
  rw [m.putGolomb_eq, Memory.bit_insert_outside (m.putUnary_wf h ..) _ _ _ _ _ (by omega)]

theorem Memory.bit_putGolomb_payload (stop j : Nat) (hj : j < golombPrefix u) :
    (m.putGolomb c u stop pp).bit pp.bio (c + golombPrefix u + 1 + j) =
      (u + 1 - 2 ^ golombPrefix u).testBit (fieldBit (c + golombPrefix u + 1) (golombPrefix u) j pp) := by
  rw [m.putGolomb_eq, Memory.bit_insert_inside (m.putUnary_wf h ..) _ _ _ _ _ hj]

/-- The payload field just written holds the payload. -/
theorem Memory.golombPayload_putGolomb (stop : Nat) :
    (m.putGolomb c u stop pp).golombPayload c (golombPrefix u) pp = u + 1 - 2 ^ golombPrefix u := by
  obtain ⟨-, hlt⟩ := golombPrefix_spec u
  rw [Memory.golombPayload_eq, m.putGolomb_eq, Memory.extract_insert (m.putUnary_wf h ..), Nat.mod_eq_of_lt hlt]

theorem Memory.putGolomb_unaryAt {stop : StopField} (hstop : stop.toNat ≤ 1) :
    (m.putGolomb c u stop.toNat pp).UnaryAt pp.bio stop c (golombPrefix u) where
  stopBit := by rw [m.bit_putGolomb_unary h c u pp _ _ le_rfl, m.bit_putUnary_stop h c pp.bio _ hstop]
  run j hj := by
    rw [m.bit_putGolomb_unary h c u pp _ _ hj.le]
    exact (m.putUnary_unaryAt h c pp.bio _ hstop).run j hj

end

/-! ### The numbers that are coded (42_varlen.md R115) -/

theorem zigzag_of_nonneg {v : ℤ} (hv : 0 ≤ v) : (zigzag v : ℤ) = 2 * v := by
  rw [zigzag, if_pos hv, Int.toNat_of_nonneg (by omega)]

theorem zigzag_of_neg {v : ℤ} (hv : v < 0) : (zigzag v : ℤ) = -2 * v - 1 := by
  rw [zigzag, if_neg (by omega), Int.toNat_of_nonneg (by omega)]

theorem unzigzag_of_even {u : Nat} (hu : u % 2 = 0) : unzigzag u = u / 2 := by
  rw [unzigzag, if_pos hu, Int.natCast_ediv, Nat.cast_ofNat]

theorem unzigzag_of_odd {u : Nat} (hu : u % 2 = 1) : unzigzag u = -((u + 1) / 2) := by
  rw [unzigzag, if_neg (by omega)]
  norm_cast

theorem unzigzag_zigzag (v : ℤ) : unzigzag (zigzag v) = v := by
  rcases lt_or_ge v 0 with hneg | hnonneg
  · have hz := zigzag_of_neg hneg
    rw [unzigzag_of_odd (by omega), hz]
    omega
  · have hz := zigzag_of_nonneg hnonneg
    rw [unzigzag_of_even (by omega), hz]
    omega

theorem zigzag_unzigzag (u : Nat) : zigzag (unzigzag u) = u := by
  rcases Nat.mod_two_eq_zero_or_one u with heven | hodd
  · have hz := zigzag_of_nonneg (v := unzigzag u) (by rw [unzigzag_of_even heven]; omega)
    rw [unzigzag_of_even heven] at hz ⊢
    omega
  · have hz := zigzag_of_neg (v := unzigzag u) (by rw [unzigzag_of_odd hodd]; omega)
    rw [unzigzag_of_odd hodd] at hz ⊢
    omega

/-- The zigzag image of a signed word that has a code fits a word and is not its largest value. -/
theorem zigzag_le {v : ℤ} (hlo : -2 ^ 63 < v) (hhi : v < 2 ^ 63) : zigzag v ≤ 2 ^ 64 - 2 := by
  rcases lt_or_ge v 0 with hneg | hnonneg
  · have hz := zigzag_of_neg hneg
    omega
  · have hz := zigzag_of_nonneg hnonneg
    omega

theorem unzigzag_bounds {u : Nat} (hu : u ≤ 2 ^ 64 - 2) : -2 ^ 63 < unzigzag u ∧ unzigzag u < 2 ^ 63 := by
  rcases Nat.mod_two_eq_zero_or_one u with heven | hodd
  · rw [unzigzag_of_even heven]
    omega
  · rw [unzigzag_of_odd hodd]
    omega

/-- Settles O59: the two formulas, each way, and the one value that is left out. -/
theorem zigzag_bijection : Obligations.Zigzag := by
  refine ⟨fun v hlo hhi => ⟨zigzag_of_nonneg, zigzag_of_neg, zigzag_le hlo hhi, unzigzag_zigzag v⟩,
    fun u hu => ⟨unzigzag_of_even, unzigzag_of_odd, (unzigzag_bounds hu).1, (unzigzag_bounds hu).2,
      zigzag_unzigzag u⟩, by decide, by decide⟩

end Sys2Proof.Machine
end

section
/-! The statements about the Variable-Length Coder (42_varlen.md R112 to R119). The reading commands share one scan and
the writing commands one kind of action on the slot, whose outcomes are said once; the round trips are read off them. -/

namespace Sys2Proof.Machine

/-! ### Operands -/

/-- The opcode of a unary command (30_encoding.md R52). -/
theorem opc_unaryHeader (b : SlotNo) (pp : Policy) (flavor : Flavor) (stop : StopField) (opc : BitVec 8) :
    (unaryHeader b pp flavor stop opc).extractLsb' 0 8 = opc :=
  opc_header ..

/-- The opcode of an Exponential-Golomb command (30_encoding.md R52). -/
theorem opc_golombHeader (b : SlotNo) (pp : Policy) (sgn : Signedness) (stop : StopField) (opc : BitVec 8) :
    (golombHeader b pp sgn stop opc).extractLsb' 0 8 = opc :=
  opc_header ..

theorem not_stopLegal_iff (stop : StopField) : (!stopLegal stop) = true ↔ 1 < stop.toNat := by
  simp [stopLegal]

/-- The check of a legal stop bit passes. -/
theorem stopLegal_check {stop : StopField} (h : stop.toNat ≤ 1) : ¬ (!stopLegal stop) = true :=
  mt (not_stopLegal_iff stop).mp (Nat.not_lt_of_le h)

/-- The value of a unary code as the statements write it. -/
theorem add_flavorOffset (flavor : Flavor) (k : Nat) :
    k + flavorOffset flavor = if flavor = .count then k + 1 else k := by
  cases flavor <;> rfl

section
variable {flavor : Flavor} {value : Word} {k : Nat} (hvalue : value.toNat = if flavor = .count then k + 1 else k)
include hvalue

/-- A value that is coded by `k` non-stop bits is in the domain of its flavor. -/
theorem unaryDomain_check : ¬ (flavor = .count ∧ value = 0) := by
  rintro ⟨rfl, rfl⟩
  exact absurd hvalue (Nat.succ_ne_zero k).symm

theorem unaryCount_eq : unaryCount flavor value = k := by
  rw [unaryCount, hvalue, ← add_flavorOffset, Nat.add_sub_cancel]

theorem unaryValue_eq : BitVec.ofNat 64 (k + flavorOffset flavor) = value := by
  rw [add_flavorOffset, ← hvalue, BitVec.ofNat_toNat, BitVec.setWidth_eq]

end

/-! ### The result word and the operand word of an Exponential-Golomb code -/

section
variable {u : Nat} (hu : u ≤ 2 ^ 64 - 2)
include hu

theorem toNat_golombResult_unsigned : (golombResult .unsigned u).toNat = u :=
  (BitVec.toNat_ofNat u 64).trans (Nat.mod_eq_of_lt (by omega))

theorem toInt_golombResult_signed : (golombResult .signed u).toInt = unzigzag u := by
  obtain ⟨hlo, hhi⟩ := unzigzag_bounds hu
  exact BitVec.toInt_ofInt_eq_self (by decide) hlo.le hhi

end

/-- The one unsigned and the one signed operand without a code (42_varlen.md R118). -/
def NoCode (sgn : Signedness) (value : Word) : Prop :=
  sgn = .unsigned ∧ value.toNat = 2 ^ 64 - 1 ∨ sgn = .signed ∧ value.toInt = -2 ^ 63

section
variable {sgn : Signedness} {value : Word}

theorem golombNumber_of_noCode (h : NoCode sgn value) : golombNumber sgn value = none := by
  rcases h with ⟨rfl, hmax⟩ | ⟨rfl, hmin⟩
  · exact if_pos hmax
  · exact if_pos hmin

theorem exists_golombNumber (h : ¬ NoCode sgn value) : ∃ u, golombNumber sgn value = some u := by
  cases sgn with
  | unsigned => exact ⟨_, if_neg fun hmax => h (.inl ⟨rfl, hmax⟩)⟩
  | signed => exact ⟨_, if_neg fun hmin => h (.inr ⟨rfl, hmin⟩)⟩

theorem golombNumber_unsigned {u : Nat} (h : golombNumber .unsigned value = some u) :
    u = value.toNat ∧ value.toNat ≠ 2 ^ 64 - 1 := by
  obtain ⟨hmax, hnumber⟩ := Option.ite_none_left_eq_some.mp h
  exact ⟨(Option.some.inj hnumber).symm, hmax⟩

theorem golombNumber_signed {u : Nat} (h : golombNumber .signed value = some u) :
    u = zigzag value.toInt ∧ value.toInt ≠ -2 ^ 63 := by
  obtain ⟨hmin, hnumber⟩ := Option.ite_none_left_eq_some.mp h
  exact ⟨(Option.some.inj hnumber).symm, hmin⟩

/-- A number that is coded is below `2^64 - 1` (42_varlen.md R115, R118). -/
theorem le_of_golombNumber {u : Nat} (h : golombNumber sgn value = some u) : u ≤ 2 ^ 64 - 2 := by
  cases sgn with
  | unsigned =>
    obtain ⟨rfl, hmax⟩ := golombNumber_unsigned h
    have hlt := value.isLt
    omega
  | signed =>
    obtain ⟨rfl, hmin⟩ := golombNumber_signed h
    have hlo := value.le_toInt
    have hhi := value.toInt_lt
    exact zigzag_le (lt_of_le_of_ne hlo (Ne.symm hmin)) hhi

/-- Decoding the number that codes a value gives the value back. -/
theorem golombResult_golombNumber {u : Nat} (h : golombNumber sgn value = some u) : golombResult sgn u = value := by
  have hu := le_of_golombNumber h
  cases sgn with
  | unsigned =>
    obtain ⟨rfl, -⟩ := golombNumber_unsigned h
    exact BitVec.eq_of_toNat_eq (toNat_golombResult_unsigned hu)
  | signed =>
    obtain ⟨rfl, -⟩ := golombNumber_signed h
    exact BitVec.eq_of_toInt_eq ((toInt_golombResult_signed hu).trans (unzigzag_zigzag _))

end

/-! ### The shared scan -/

section
variable {s : State} {sl : Slot} {bio : BitOrder} {stop : StopField} (hsl : sl.wf s.cfg.capBytes)
  (hstop : stop.toNat ≤ 1) (k : Nat → Effect)
include hsl hstop

theorem scanPrefix_of_unaryAt {n : Nat} (hend : sl.cursor.toNat + n < sl.bitCount.toNat)
    (hcode : sl.bytes.UnaryAt bio stop sl.cursor.toNat n) : scanPrefix sl bio stop s k = k n := by
  obtain ⟨-, hbits, -⟩ := hsl
  exact scanPrefix_found sl bio stop s k n hend hbits ((Memory.bitAt_eq_stop_iff _ _ _ hstop).mpr hcode.stopBit)
    fun j hj => mt (Memory.bitAt_eq_stop_iff _ _ _ hstop).mp (hcode.run j hj)

theorem scanPrefix_of_no_stop
    (hnone : ∀ p, sl.cursor.toNat ≤ p → p < sl.bitCount.toNat → sl.bytes.bit bio p ≠ stopValue stop) :
    scanPrefix sl bio stop s k = raise .capacity s := by
  obtain ⟨-, hbits, -⟩ := hsl
  rcases scanPrefix_cases sl bio stop s k with ⟨n, hscan, -⟩ | ⟨-, -, he⟩ | ⟨-, hbeyond, -⟩
  · obtain ⟨-, hlt, hbit, -⟩ := Memory.scan_some _ _ _ _ _ _ n hscan
    exact absurd ((Memory.bitAt_eq_stop_iff _ _ _ hstop).mp hbit) (hnone _ (by omega) (by omega))
  · exact he
  · rw [Config.capBits] at hbeyond
    omega

end

/-- The outcomes of a command that starts with the shared scan, in the terms of the statements. -/
theorem scanPrefix_outcomes {i : Instr} {s : State} {sl : Slot} {bio : BitOrder} {stop : StopField} {k : Nat → Effect}
    (hsl : sl.wf s.cfg.capBytes)
    (hexec : exec i s = if !stopLegal stop then raise .stopBit s else scanPrefix sl bio stop s k) :
    (1 < stop.toNat → Raises i s .stopBit) ∧
      (stop.toNat ≤ 1 →
        ((∀ p, sl.cursor.toNat ≤ p → p < sl.bitCount.toNat → sl.bytes.bit bio p ≠ stopValue stop) →
          Raises i s .capacity) ∧
        ∀ n, sl.cursor.toNat + n < sl.bitCount.toNat → sl.bytes.UnaryAt bio stop sl.cursor.toNat n →
          exec i s = k n) := by
  refine ⟨fun hbad => hexec.trans (if_pos ((not_stopLegal_iff stop).mpr hbad)), fun hstop => ?_⟩
  rw [if_neg (stopLegal_check hstop)] at hexec
  exact ⟨fun hnone => hexec.trans (scanPrefix_of_no_stop hsl hstop k hnone),
    fun n hend hcode => hexec.trans (scanPrefix_of_unaryAt hsl hstop k hend hcode)⟩

/-! ### The commands on a slot that holds a buffer -/

section
variable {b : SlotNo} {s : State} {sl : Slot} (h : s.Holds b sl) (pp : Policy) (flavor : Flavor) (sgn : Signedness)
  (stop : StopField) (value : Word)
include h

theorem exec_rdun_of_holds :
    exec (.rdun b pp flavor stop) s =
      if !stopLegal stop then raise .stopBit s
      else scanPrefix sl pp.bio stop s fun k =>
        finish b (sl.seek (sl.cursor.toNat + k + 1)) (BitVec.ofNat 64 (k + flavorOffset flavor)) 0 s :=
  needBuffer_present b s _ sl h.1 h.2

theorem exec_rdeg_of_holds :
    exec (.rdeg b pp sgn stop) s =
      if !stopLegal stop then raise .stopBit s
      else scanPrefix sl pp.bio stop s fun k =>
        if k > 63 then raise .valueDomain s
        else if sl.cursor.toNat + 2 * k + 1 > sl.bitCount.toNat then raise .capacity s
        else if !s.inStore (bytesFor (sl.cursor.toNat + 2 * k + 1)) then .fault .outsideStore
        else finish b (sl.seek (sl.cursor.toNat + 2 * k + 1))
          (golombResult sgn (2 ^ k + sl.bytes.golombPayload sl.cursor.toNat k pp - 1)) 0 s :=
  needBuffer_present b s _ sl h.1 h.2

theorem exec_wrun_of_holds :
    exec (.wrun b pp flavor stop value) s =
      if !stopLegal stop then raise .stopBit s
      else if flavor = .count ∧ value = 0 then raise .valueDomain s
      else if s.noRoom (sl.cursor.toNat + unaryCount flavor value + 1) then raise .alloc s
      else finish b (sl.writeUnary pp.bio stop.toNat (unaryCount flavor value)) 0 0 s :=
  needBuffer_present b s _ sl h.1 h.2

theorem exec_wreg_of_holds :
    exec (.wreg b pp sgn stop value) s =
      if !stopLegal stop then raise .stopBit s
      else
        match golombNumber sgn value with
        | none => raise .valueDomain s
        | some u =>
          if s.noRoom (sl.cursor.toNat + golombLength u) then raise .alloc s
          else finish b (sl.writeGolomb pp stop.toNat u) 0 0 s :=
  needBuffer_present b s _ sl h.1 h.2

end

/-! ### Reading a code that stands at the cursor -/

section
variable {b : SlotNo} {s : State} {sl : Slot} (hs : s.wf) (h : s.Holds b sl) (pp : Policy) {stop : StopField}
  (hstop : stop.toNat ≤ 1) {k : Nat} (hcode : sl.bytes.UnaryAt pp.bio stop sl.cursor.toNat k)
include hs h hstop hcode

/-- `RDUN` of a code that lies within the buffer. -/
theorem exec_rdun_within (flavor : Flavor) (hend : sl.cursor.toNat + k < sl.bitCount.toNat) :
    Becomes (.rdun b pp flavor stop) s b (sl.seek (sl.cursor.toNat + k + 1))
      ⟨.ok, BitVec.ofNat 64 (k + flavorOffset flavor), 0, []⟩ := by
  have houtcomes := scanPrefix_outcomes (s.slot_wf hs b sl h.1) (exec_rdun_of_holds h pp flavor stop)
  exact (houtcomes.2 hstop).2 k hend hcode

variable (sgn : Signedness)

/-- `RDEG` of more than 63 non-stop bits (60_exceptions.md R176 item 6). -/
theorem exec_rdeg_of_long_run (hend : sl.cursor.toNat + k < sl.bitCount.toNat) (hk : 63 < k) :
    Raises (.rdeg b pp sgn stop) s .valueDomain := by
  have houtcomes := scanPrefix_outcomes (s.slot_wf hs b sl h.1) (exec_rdeg_of_holds h pp sgn stop)
  exact ((houtcomes.2 hstop).2 k hend hcode).trans (if_pos hk)

/-- `RDEG` of a code whose payload ends beyond the buffer. -/
theorem exec_rdeg_beyond (hend : sl.cursor.toNat + k < sl.bitCount.toNat) (hk : k ≤ 63)
    (hlen : sl.bitCount.toNat < sl.cursor.toNat + 2 * k + 1) : Raises (.rdeg b pp sgn stop) s .capacity := by
  have houtcomes := scanPrefix_outcomes (s.slot_wf hs b sl h.1) (exec_rdeg_of_holds h pp sgn stop)
  rw [Raises, (houtcomes.2 hstop).2 k hend hcode, if_neg (Nat.not_lt_of_le hk), if_pos hlen, raise_next]

/-- `RDEG` of a code that lies within the buffer. -/
theorem exec_rdeg_within (hk : k ≤ 63) (hlen : sl.cursor.toNat + 2 * k + 1 ≤ sl.bitCount.toNat) :
    Becomes (.rdeg b pp sgn stop) s b (sl.seek (sl.cursor.toNat + 2 * k + 1))
      ⟨.ok, golombResult sgn (2 ^ k + sl.bytes.golombPayload sl.cursor.toNat k pp - 1), 0, []⟩ := by
  have hsl := s.slot_wf hs b sl h.1
  have houtcomes := scanPrefix_outcomes hsl (exec_rdeg_of_holds h pp sgn stop)
  have hstore : ¬ (!s.inStore (bytesFor (sl.cursor.toNat + 2 * k + 1))) = true := by
    simpa [State.inStore] using Slot.bytesFor_le_of_wf hsl hlen
  rw [Becomes, (houtcomes.2 hstop).2 k (by omega) hcode, if_neg (Nat.not_lt_of_le hk),
    if_neg (Nat.not_lt_of_le hlen), if_neg hstore, finish_next]

end

/-! ### Writing a code at the cursor -/

/-- The slot after a code has been put at its cursor, register by register. -/
theorem SlotAction.apply_put (sl : Slot) (t : Nat) (f : Memory → Memory) (hv : sl.valid = true) :
    (SlotAction.put t f).apply sl =
      ⟨true, BitVec.ofNat 64 (max sl.bitCount.toNat t), BitVec.ofNat 64 t, f (sl.growTo t).bytes⟩ := by
  have hregs := sl.seek_growTo t hv
  simp only [Slot.seek, Slot.mk.injEq] at hregs
  obtain ⟨hvalid, hbits, -⟩ := hregs
  simp only [SlotAction.apply, Slot.seek, hvalid, hbits]

/-- Both outcomes of a command that has only its room left to check, in the terms of the statements. -/
theorem put_outcomes {i : Instr} {b : SlotNo} {s : State} {sl : Slot} {t : Nat} {f : Memory → Memory}
    (hv : sl.valid = true)
    (hexec : exec i s = if s.noRoom t then raise .alloc s else finish b ((SlotAction.put t f).apply sl) 0 0 s) :
    (8 * s.cfg.capBytes < t → Raises i s .alloc) ∧
      (t ≤ 8 * s.cfg.capBytes → Becomes i s b
        ⟨true, BitVec.ofNat 64 (max sl.bitCount.toNat t), BitVec.ofNat 64 t, f (sl.growTo t).bytes⟩
        ⟨.ok, 0, 0, []⟩) := by
  refine ⟨fun hfull => hexec.trans (if_pos (decide_eq_true hfull)), fun hroom => ?_⟩
  have hfits : ¬ s.noRoom t = true := by simpa [State.noRoom, Config.capBits] using hroom
  rw [Becomes, hexec, if_neg hfits, SlotAction.apply_put sl t f hv, finish_next]

section
variable {b : SlotNo} {s : State} {sl : Slot} (h : s.Holds b sl) (pp : Policy) {stop : StopField}
  (hstop : stop.toNat ≤ 1) {value : Word}
include h hstop

/-- `WRUN` of a value that is coded by `k` non-stop bits. -/
theorem exec_wrun_of_value {flavor : Flavor} {k : Nat}
    (hvalue : value.toNat = if flavor = .count then k + 1 else k) :
    exec (.wrun b pp flavor stop value) s =
      if s.noRoom (sl.cursor.toNat + k + 1) then raise .alloc s
      else finish b ((SlotAction.put (sl.cursor.toNat + k + 1) fun m =>
        m.putUnary sl.cursor.toNat k stop.toNat pp.bio).apply sl) 0 0 s := by
  rw [exec_wrun_of_holds h, if_neg (stopLegal_check hstop), if_neg (unaryDomain_check hvalue), unaryCount_eq hvalue]
  rfl

variable {sgn : Signedness}

/-- `WREG` of a value without a code (42_varlen.md R118). -/
theorem exec_wreg_of_noCode (hnone : NoCode sgn value) : Raises (.wreg b pp sgn stop value) s .valueDomain := by
  rw [Raises, exec_wreg_of_holds h, if_neg (stopLegal_check hstop), golombNumber_of_noCode hnone, raise_next]

/-- `WREG` of a value that is coded by the number `u`. -/
theorem exec_wreg_of_number {u : Nat} (hnumber : golombNumber sgn value = some u) :
    exec (.wreg b pp sgn stop value) s =
      if s.noRoom (sl.cursor.toNat + golombLength u) then raise .alloc s
      else finish b ((SlotAction.put (sl.cursor.toNat + golombLength u) fun m =>
        m.putGolomb sl.cursor.toNat u stop.toNat pp).apply sl) 0 0 s := by
  rw [exec_wreg_of_holds h, if_neg (stopLegal_check hstop), hnumber]
  rfl

end

/-! ### The statements about the commands -/

/-- Settles O34: the outcomes of the shared scan; the cursor alone moves. -/
theorem rdun : Obligations.Rdun := by
  intro b pp flavor stop s hs
  refine ⟨opc_unaryHeader b pp flavor stop 0x20, needBuffer_absent b s _, fun sl hsl => ?_⟩
  obtain ⟨hbad, hlegal⟩ := scanPrefix_outcomes (s.slot_wf hs b sl hsl.1) (exec_rdun_of_holds hsl pp flavor stop)
  refine ⟨hbad, fun hstop => ⟨(hlegal hstop).1, fun k hend hbit hrun => ?_⟩⟩
  rw [← add_flavorOffset]
  exact exec_rdun_within hs hsl pp hstop ⟨hbit, hrun⟩ flavor hend

/-- Settles O35: the store is the grown one with the unary code put into it. -/
theorem wrun : Obligations.Wrun := by
  intro b pp flavor stop value s hs
  refine ⟨opc_unaryHeader b pp flavor stop 0x21, needBuffer_absent b s _, fun sl hsl => ?_⟩
  have hexec := exec_wrun_of_holds hsl pp flavor stop value
  refine ⟨fun hbad => hexec.trans (if_pos ((not_stopLegal_iff stop).mpr hbad)), fun hstop hcount hzero => ?_,
    fun k hstop hvalue => ?_⟩
  · rw [if_neg (stopLegal_check hstop)] at hexec
    exact hexec.trans (if_pos ⟨hcount, hzero⟩)
  · obtain ⟨hfull, hroom⟩ := put_outcomes hsl.2 (exec_wrun_of_value hsl pp hstop hvalue)
    obtain ⟨-, -, -, hwf, -⟩ := s.slot_wf hs b sl hsl.1
    have hgrown := sl.growTo_bytes_wf (sl.cursor.toNat + k + 1) hwf
    refine ⟨hfull, fun hend => ⟨_, hroom hend, ?_, ?_, fun p hp => ?_⟩⟩
    · exact Memory.bit_putUnary_run _ hgrown _ pp.bio k hstop
    · exact Memory.bit_putUnary_stop _ hgrown _ pp.bio k hstop
    · rw [Memory.bit_putUnary_outside _ hgrown _ pp.bio k _ p hp, sl.bit_growTo]

/-- Settles O36: the outcomes of the shared scan and of the two checks after it; the payload is given by the closed
form of 41_bitcodec.md R92. -/
theorem rdeg : Obligations.Rdeg := by
  intro b pp sgn stop s hs
  refine ⟨opc_golombHeader b pp sgn stop 0x22, needBuffer_absent b s _, fun sl hsl => ?_⟩
  obtain ⟨hbad, hlegal⟩ := scanPrefix_outcomes (s.slot_wf hs b sl hsl.1) (exec_rdeg_of_holds hsl pp sgn stop)
  refine ⟨hbad, fun hstop => ⟨(hlegal hstop).1, fun k hend hbit hrun => ?_⟩⟩
  have hcode : sl.bytes.UnaryAt pp.bio stop sl.cursor.toNat k := ⟨hbit, hrun⟩
  refine ⟨exec_rdeg_of_long_run hs hsl pp hstop hcode sgn hend, exec_rdeg_beyond hs hsl pp hstop hcode sgn hend,
    fun hk hlen => ?_⟩
  have hread := exec_rdeg_within hs hsl pp hstop hcode sgn hk hlen
  rw [Memory.golombPayload_eq] at hread
  have hpayload := sl.bytes.extract_lt (sl.cursor.toNat + k + 1) k pp
  have hu := two_pow_add_sub_one_le hk hpayload
  have hpos : 1 ≤ 2 ^ k := Nat.two_pow_pos k
  refine ⟨_, _, _, hread, hpayload, Nat.sub_add_cancel (Nat.le_add_right_of_le hpos),
    sl.bytes.extract_testBit _ k pp, ?_, ?_, ?_⟩
  · rintro rfl; exact toNat_golombResult_unsigned hu
  · rintro rfl heven; exact (toInt_golombResult_signed hu).trans (unzigzag_of_even heven)
  · rintro rfl hodd; exact (toInt_golombResult_signed hu).trans (unzigzag_of_odd hodd)

/-- Settles O37: the store is the grown one with the code of the number put into it. -/
theorem wreg : Obligations.Wreg := by
  intro b pp sgn stop value s hs
  refine ⟨opc_golombHeader b pp sgn stop 0x23, needBuffer_absent b s _, fun sl hsl => ?_⟩
  have hexec := exec_wreg_of_holds hsl pp sgn stop value
  refine ⟨fun hbad => hexec.trans (if_pos ((not_stopLegal_iff stop).mpr hbad)),
    fun hstop hnone => exec_wreg_of_noCode hsl pp hstop hnone, fun hstop hcode => ?_⟩
  obtain ⟨u, hnumber⟩ := exists_golombNumber (sgn := sgn) hcode
  obtain ⟨hsum, hpayload⟩ := golombPrefix_spec u
  obtain ⟨hfull, hroom⟩ := put_outcomes hsl.2 (exec_wreg_of_number hsl pp hstop hnumber)
  obtain ⟨-, -, -, hwf, -⟩ := s.slot_wf hs b sl hsl.1
  have hgrown := sl.growTo_bytes_wf (sl.cursor.toNat + golombLength u) hwf
  have hunary := Memory.bit_putGolomb_unary _ hgrown sl.cursor.toNat u pp stop.toNat
  refine ⟨u, golombPrefix u, _, ?_, ?_, ?_, hsum, hpayload, hfull, fun hend => ⟨_, hroom hend, fun j hj => ?_, ?_, ?_,
    fun p hp => ?_⟩⟩
  · rintro rfl; exact (golombNumber_unsigned hnumber).1
  · rintro rfl hnonneg; exact (golombNumber_signed hnumber).1 ▸ zigzag_of_nonneg hnonneg
  · rintro rfl hneg; exact (golombNumber_signed hnumber).1 ▸ zigzag_of_neg hneg
  · rw [hunary j hj.le, Memory.bit_putUnary_run _ hgrown _ pp.bio _ hstop j hj]
  · rw [hunary _ le_rfl, Memory.bit_putUnary_stop _ hgrown _ pp.bio _ hstop]
  · exact Memory.bit_putGolomb_payload _ hgrown _ u pp _
  · rw [Memory.bit_putGolomb_outside _ hgrown _ u pp _ p hp, sl.bit_growTo]
    rfl

/-! ### The round trips (42_varlen.md R119) -/

/-- The target of a seek back by a length that a signed word can hold the negative of. -/
theorem Slot.skipTarget_back_of_le (sl : Slot) (len c : Nat) (hlen : len ≤ 2 ^ 63) (hc : sl.cursor.toNat = c + len) :
    sl.skipTarget (BitVec.ofInt 64 (-(len : ℤ))) = c := by
  have hdelta : (BitVec.ofInt 64 (-(len : ℤ))).toInt = -len :=
    BitVec.toInt_ofInt_eq_self (by decide) (by omega) (by omega)
  rw [Slot.skipTarget, signedWord, hdelta, hc]
  omega

/-- A code of `len` bits has been put at the cursor, and `SEEK` leads back to its start: the cursor is where it was, the
code stands there, and it lies within the buffer. -/
theorem put_then_seek_back {i : Instr} {b : SlotNo} {s : State} {sl : Slot} {len : Nat} {f : Memory → Memory}
    (hs : s.wf) (hsl : s.Holds b sl) (hlen : len ≤ 2 ^ 63) (hroom : sl.cursor.toNat + len ≤ 8 * s.cfg.capBytes)
    (hexec : exec i s = if s.noRoom (sl.cursor.toNat + len) then raise .alloc s
      else finish b ((SlotAction.put (sl.cursor.toNat + len) f).apply sl) 0 0 s) :
    ∃ s1 s2 sl2, exec i s = .next s1 ∧ exec (.skip b (BitVec.ofInt 64 (-(len : ℤ)))) s1 = .next s2 ∧ s2.wf ∧
      s2.Holds b sl2 ∧ sl2.cursor.toNat = sl.cursor.toNat ∧ sl.cursor.toNat + len ≤ sl2.bitCount.toNat ∧
      sl2.bytes = f (sl.growTo (sl.cursor.toNat + len)).bytes := by
  obtain ⟨-, hbits, -⟩ := s.slot_wf hs b sl hsl.1
  have hput := (put_outcomes hsl.2 hexec).2 hroom
  have hcount := toNat_position s.cfg hs.1 (max_le hbits hroom)
  have hcursor := toNat_position s.cfg hs.1 hroom
  generalize BitVec.ofNat 64 (max sl.bitCount.toNat (sl.cursor.toNat + len)) = count at hput hcount
  generalize BitVec.ofNat 64 (sl.cursor.toNat + len) = cursor at hput hcursor
  have hs1 := exec_keeps_wf _ _ _ hs hput
  have hsl1 := hsl.setSlot_respond (sl' := ⟨true, count, cursor, f (sl.growTo (sl.cursor.toNat + len)).bytes⟩) rfl
    ⟨.ok, 0, 0, []⟩
  have hback : sl.cursor.toNat ≤ count.toNat := by omega
  have hskip := exec_skip_within hsl1 _ _ (Slot.skipTarget_back_of_le _ _ _ hlen hcursor)
    (State.slot_wf _ hs1 b _ hsl1.1) hback
  exact ⟨_, _, _, hput, hskip, exec_keeps_wf _ _ _ hs1 hskip, hsl1.setSlot_seek _ _, Slot.toNat_cursor_seek _ hback,
    hcount ▸ le_max_right _ _, rfl⟩

/-- Settles O57: `SEEK` leads back to the unary code just written, which the scan finds. -/
theorem unaryRoundTrip : Obligations.UnaryRoundTrip := by
  intro b pp flavor stop value k s sl hs hsl hstop hvalue hlen hroom
  obtain ⟨s1, s2, sl2, hwrite, hseek, hs2, hsl2, hcursor, hcount, hbytes⟩ :=
    put_then_seek_back (len := k + 1) hs hsl hlen hroom (exec_wrun_of_value hsl pp hstop hvalue)
  obtain ⟨-, -, -, hwf, -⟩ := s.slot_wf hs b sl hsl.1
  have hcode : sl2.bytes.UnaryAt pp.bio stop sl2.cursor.toNat k := by
    rw [hbytes, hcursor]
    exact Memory.putUnary_unaryAt _ (sl.growTo_bytes_wf _ hwf) _ pp.bio k hstop
  have hread := exec_rdun_within hs2 hsl2 pp hstop hcode flavor (by omega)
  rw [unaryValue_eq hvalue] at hread
  exact ⟨s1, s2, _, hwrite, Nat.cast_succ (R := ℤ) k ▸ hseek, hread, rfl⟩

/-- Settles O58: `SEEK` leads back to the code just written, of which the scan finds the unary part and the payload
field holds what was put into it. -/
theorem golombRoundTrip : Obligations.GolombRoundTrip := by
  intro b pp sgn stop value u s sl hs hsl hstop hnumber hroom
  have hk := golombPrefix_le (le_of_golombNumber hnumber)
  have hlength : golombLength u = 2 * golombPrefix u + 1 := rfl
  obtain ⟨s1, s2, sl2, hwrite, hseek, hs2, hsl2, hcursor, hcount, hbytes⟩ :=
    put_then_seek_back hs hsl (by omega) hroom (exec_wreg_of_number hsl pp hstop hnumber)
  obtain ⟨-, -, -, hwf, -⟩ := s.slot_wf hs b sl hsl.1
  have hgrown := sl.growTo_bytes_wf (sl.cursor.toNat + golombLength u) hwf
  have hcode : sl2.bytes.UnaryAt pp.bio stop sl2.cursor.toNat (golombPrefix u) := by
    rw [hbytes, hcursor]
    exact Memory.putGolomb_unaryAt _ hgrown _ u pp hstop
  have hpayload : sl2.bytes.golombPayload sl2.cursor.toNat (golombPrefix u) pp = u + 1 - 2 ^ golombPrefix u := by
    rw [hbytes, hcursor]
    exact Memory.golombPayload_putGolomb _ hgrown _ u pp _
  have hread := exec_rdeg_within hs2 hsl2 pp hstop hcode sgn hk (by omega)
  obtain ⟨hsum, -⟩ := golombPrefix_spec u
  rw [hpayload, ← hsum, Nat.add_sub_cancel, golombResult_golombNumber hnumber] at hread
  exact ⟨s1, s2, _, hwrite, hseek, hread, rfl⟩

end Sys2Proof.Machine
end

section
/-! The division and its laws (43_crc.md R130, R135). One step of the register is described three times: in unbounded
integers, over XOR, and by what can be told from its result; the laws carry that over bytes and lists of bytes. -/

namespace Sys2Proof.Machine

/-! ### The low bits of a word -/

@[simp] theorem toNat_lowBits (a : Word) (w : Nat) : (lowBits a w).toNat = a.toNat % 2 ^ w :=
  (BitVec.toNat_ofNat _ _).trans (Nat.mod_eq_of_lt ((Nat.mod_le _ _).trans_lt a.isLt))

theorem toNat_lowBits_lt (a : Word) (w : Nat) : (lowBits a w).toNat < 2 ^ w := by
  rw [toNat_lowBits]
  exact Nat.mod_lt _ (Nat.two_pow_pos w)

theorem lowBits_of_lt {a : Word} {w : Nat} (h : a.toNat < 2 ^ w) : lowBits a w = a :=
  BitVec.eq_of_toNat_eq ((toNat_lowBits a w).trans (Nat.mod_eq_of_lt h))

theorem getLsbD_lowBits (a : Word) (w i : Nat) : (lowBits a w).getLsbD i = (decide (i < w) && a.getLsbD i) := by
  rw [← BitVec.testBit_toNat, toNat_lowBits, Nat.testBit_mod_two_pow, BitVec.testBit_toNat]

theorem getLsbD_of_toNat_lt {n w i : Nat} {r : BitVec n} (h : r.toNat < 2 ^ w) (hi : w ≤ i) : r.getLsbD i = false := by
  rw [← BitVec.testBit_toNat]
  exact Nat.testBit_eq_false_of_lt (h.trans_le (Nat.pow_le_pow_right (by decide) hi))

/-! ### One step of the register -/

/-- One step of the division in unbounded integers (43_crc.md R130). -/
def crcStepNat (pm r : ℕ) : ℕ := if r % 2 = 1 then r / 2 ^^^ pm else r / 2

/-- The step of the model is the step in unbounded integers. -/
theorem toNat_crcStep (pm : Word) : Function.Semiconj BitVec.toNat (crcStep pm) (crcStepNat pm.toNat) := by
  intro r
  rw [crcStep, crcStepNat]
  split <;> simp [Nat.shiftRight_eq_div_pow]

/-- The step without a case split on the register: the polynomial is added under the bit shifted out. -/
theorem crcStep_eq (pm r : Word) : crcStep pm r = r >>> 1 ^^^ if r.getLsbD 0 = true then pm else 0 := by
  have hbit : r.getLsbD 0 = true ↔ r.toNat % 2 = 1 := by
    rw [← BitVec.testBit_toNat, Nat.testBit_zero, decide_eq_true_iff]
  rw [crcStep]
  by_cases h : r.toNat % 2 = 1
  · rw [if_pos h, if_pos (hbit.mpr h)]
  · rw [if_neg h, if_neg (mt hbit.mp h)]
    exact BitVec.xor_zero.symm

theorem crcStep_xor (pm r s : Word) : crcStep pm (r ^^^ s) = crcStep pm r ^^^ crcStep pm s := by
  have hpoly : (if (r ^^^ s).getLsbD 0 = true then pm else 0) =
      (if r.getLsbD 0 = true then pm else 0) ^^^ (if s.getLsbD 0 = true then pm else 0) := by
    rw [BitVec.getLsbD_xor]
    cases r.getLsbD 0 <;> cases s.getLsbD 0 <;> simp
  rw [crcStep_eq, crcStep_eq, crcStep_eq, BitVec.ushiftRight_xor_distrib, hpoly]
  ac_rfl

/-- A step takes one bit off the register, down to the width of the polynomial. -/
theorem crcStep_lt {pm r : Word} {w : Nat} (hpm : pm.toNat < 2 ^ w) (hr : r.toNat < 2 ^ (w + 1)) :
    (crcStep pm r).toNat < 2 ^ w := by
  have hhalf : r.toNat / 2 < 2 ^ w := by omega
  rw [toNat_crcStep, crcStepNat]
  split
  · exact Nat.xor_lt_two_pow hhalf hpm
  · exact hhalf

/-- The registers of width `w`: those the division by a polynomial of width `w` stays within. -/
def crcRegisters (w : Nat) : Set Word := {r | r.toNat < 2 ^ w}

theorem crcStep_mapsTo {pm : Word} {w : Nat} (hpm : pm.toNat < 2 ^ w) :
    Set.MapsTo (crcStep pm) (crcRegisters w) (crcRegisters w) := fun _ hr =>
  crcStep_lt hpm (hr.trans (Nat.pow_lt_pow_right (by decide) w.lt_succ_self))

section
variable {pm : Word} {w : Nat} (hw : 1 ≤ w) (htop : pm.getLsbD (w - 1) = true)
include hw htop

/-- When bit `w - 1` of the polynomial is set, bit `w - 1` tells after the step which bit was shifted out. -/
theorem getLsbD_crcStep_top {r : Word} (hr : r ∈ crcRegisters w) :
    (crcStep pm r).getLsbD (w - 1) = r.getLsbD 0 := by
  have hshifted : (r >>> 1).getLsbD (w - 1) = false := by
    rw [BitVec.getLsbD_ushiftRight]
    exact getLsbD_of_toNat_lt hr (by omega)
  rw [crcStep_eq, BitVec.getLsbD_xor, hshifted, Bool.false_xor]
  cases r.getLsbD 0
  · exact BitVec.getLsbD_zero
  · exact htop

/-- So the step can be undone. -/
theorem crcStep_injOn : Set.InjOn (crcStep pm) (crcRegisters w) := by
  intro r hr s hs h
  have hlow : r.getLsbD 0 = s.getLsbD 0 := by
    rw [← getLsbD_crcStep_top hw htop hr, h, getLsbD_crcStep_top hw htop hs]
  have hrest : r >>> 1 = s >>> 1 := by
    rw [crcStep_eq, crcStep_eq, hlow] at h
    exact (BitVec.xor_left_inj _).mp h
  refine BitVec.eq_of_getLsbD_eq fun i _ => ?_
  cases i with
  | zero => exact hlow
  | succ i => simpa [Nat.add_comm] using congrArg (·.getLsbD i) hrest

end

/-! ### Several steps -/

theorem crcSteps_eq_iterate (pm : Word) (n : Nat) : crcSteps pm n = (crcStep pm)^[n] := by
  induction n with
  | zero => rfl
  | succ n ih => exact congrArg (· ∘ crcStep pm) ih

theorem crcSteps_xor (pm r s : Word) (n : Nat) : crcSteps pm n (r ^^^ s) = crcSteps pm n r ^^^ crcSteps pm n s := by
  induction n generalizing r s with
  | zero => rfl
  | succ n ih => rw [crcSteps, crcStep_xor, ih]; rfl

theorem crcSteps_lt {pm r : Word} {w n : Nat} (hpm : pm.toNat < 2 ^ w) (hr : r.toNat < 2 ^ (w + n)) :
    (crcSteps pm n r).toNat < 2 ^ w := by
  induction n generalizing r with
  | zero => exact hr
  | succ n ih => exact ih (crcStep_lt (hpm.trans_le (Nat.pow_le_pow_right (by decide) (w.le_add_right n))) hr)

/-! ### One byte -/

/-- A byte in the low bits of the register (43_crc.md R130) keeps it within any width of at least 8. -/
theorem toNat_xor_byte_lt {r : Word} {n : Nat} (hr : r.toNat < 2 ^ n) (x : Byte) (hn : 8 ≤ n) :
    (r ^^^ x.setWidth 64).toNat < 2 ^ n := by
  rw [BitVec.toNat_xor, BitVec.toNat_setWidth_of_le (by decide)]
  exact Nat.xor_lt_two_pow hr (x.isLt.trans_le (Nat.pow_le_pow_right (by decide) hn))

theorem crcByte_lt {pm r : Word} {w : Nat} (hpm : pm.toNat < 2 ^ w) (hr : r.toNat < 2 ^ w) (x : Byte) :
    (crcByte pm r x).toNat < 2 ^ w :=
  crcSteps_lt hpm (toNat_xor_byte_lt (hr.trans_le (Nat.pow_le_pow_right (by decide) (w.le_add_right 8))) x (by omega))

theorem crcByte_xor (pm r s : Word) (x y : Byte) :
    crcByte pm (r ^^^ s) (x ^^^ y) = crcByte pm r x ^^^ crcByte pm s y := by
  rw [crcByte, crcByte, crcByte, ← crcSteps_xor, BitVec.setWidth_xor]
  congr 1
  ac_rfl

/-- With bit `w - 1` of the polynomial set and a width that holds a byte, a byte step confuses nothing but registers and
bytes with the same XOR. -/
theorem crcByte_eq_iff {pm : Word} {w : Nat} (hpm : pm.toNat < 2 ^ w) (hw : 8 ≤ w)
    (htop : pm.getLsbD (w - 1) = true) {r s : Word} (hr : r.toNat < 2 ^ w) (hs : s.toNat < 2 ^ w) (x y : Byte) :
    crcByte pm r x = crcByte pm s y ↔ r ^^^ x.setWidth 64 = s ^^^ y.setWidth 64 := by
  rw [crcByte, crcByte, crcSteps_eq_iterate]
  exact ((crcStep_injOn (by omega) htop).iterate (crcStep_mapsTo hpm) 8).eq_iff
    (toNat_xor_byte_lt hr x hw) (toNat_xor_byte_lt hs y hw)

/-! ### A list of bytes -/

/-- The register after a list of bytes that have been through the data transform. -/
def crcBytes (pm r : Word) (data : List Byte) : Word := data.foldl (crcByte pm) r

@[simp] theorem crcBytes_nil (pm r : Word) : crcBytes pm r [] = r := rfl

@[simp] theorem crcBytes_cons (pm r : Word) (x : Byte) (data : List Byte) :
    crcBytes pm r (x :: data) = crcBytes pm (crcByte pm r x) data := by
  rw [crcBytes, List.foldl_cons, crcBytes]

theorem crcBytes_append (pm r : Word) (d e : List Byte) :
    crcBytes pm r (d ++ e) = crcBytes pm (crcBytes pm r d) e :=
  List.foldl_append

theorem crcGen_eq_crcBytes (cfg : Config) (data : List Byte) (be : DataOrder) (poly : Word) (w : Nat) (start : Word) :
    crcGen cfg data be poly w start = crcBytes (lowBits poly w) (lowBits start w) (data.map (dataByte cfg be)) :=
  List.foldl_map.symm

theorem crcBytes_lt {pm r : Word} {w : Nat} (hpm : pm.toNat < 2 ^ w) (hr : r.toNat < 2 ^ w) (data : List Byte) :
    (crcBytes pm r data).toNat < 2 ^ w := by
  induction data generalizing r with
  | nil => exact hr
  | cons x data ih => exact ih (crcByte_lt hpm hr x)

theorem crcBytes_xor (pm r s : Word) (d e : List Byte) (h : d.length = e.length) :
    crcBytes pm (r ^^^ s) (List.zipWith (fun x y => x ^^^ y) d e) = crcBytes pm r d ^^^ crcBytes pm s e := by
  induction d generalizing r s e with
  | nil => rw [List.length_eq_zero_iff.mp h.symm]; rfl
  | cons x d ih =>
    cases e with
    | nil => exact absurd h (Nat.succ_ne_zero _)
    | cons y e => simpa only [List.zipWith_cons_cons, crcBytes_cons, crcByte_xor] using ih _ _ e (Nat.succ.inj h)

/-- The same bytes keep two different registers different. -/
theorem crcBytes_inj {pm : Word} {w : Nat} (hpm : pm.toNat < 2 ^ w) (hw : 8 ≤ w) (htop : pm.getLsbD (w - 1) = true)
    {r s : Word} (hr : r.toNat < 2 ^ w) (hs : s.toNat < 2 ^ w) (data : List Byte)
    (h : crcBytes pm r data = crcBytes pm s data) : r = s := by
  induction data generalizing r s with
  | nil => exact h
  | cons x data ih =>
    have hbyte := ih (crcByte_lt hpm hr x) (crcByte_lt hpm hs x) h
    exact (BitVec.xor_left_inj _).mp ((crcByte_eq_iff hpm hw htop hr hs x x).mp hbyte)

/-! ### The data transform (43_crc.md R132) -/

theorem dataByte_eq (cfg : Config) (be : DataOrder) (x : Byte) :
    dataByte cfg be x = if be = .big then cfg.crcBeXform x else x := by
  cases be <;> rfl

theorem dataByte_xor {cfg : Config} {be : DataOrder}
    (h : be = .big → ∀ x y : Byte, cfg.crcBeXform (x ^^^ y) = cfg.crcBeXform x ^^^ cfg.crcBeXform y) (x y : Byte) :
    dataByte cfg be (x ^^^ y) = dataByte cfg be x ^^^ dataByte cfg be y := by
  cases be with
  | little => rfl
  | big => exact h rfl x y

theorem dataByte_injective {cfg : Config} {be : DataOrder} (h : be = .big → Function.Injective cfg.crcBeXform) :
    Function.Injective (dataByte cfg be) := by
  cases be with
  | little => exact Function.injective_id
  | big => exact h rfl

/-! ### `CrcGen` -/

theorem crcGen_lt (cfg : Config) (data : List Byte) (be : DataOrder) (poly : Word) (w : Nat) (start : Word) :
    (crcGen cfg data be poly w start).toNat < 2 ^ w := by
  rw [crcGen_eq_crcBytes]
  exact crcBytes_lt (toNat_lowBits_lt poly w) (toNat_lowBits_lt start w) _

theorem crcGen_concat (cfg : Config) (data : List Byte) (x : Byte) (be : DataOrder) (poly : Word) (w : Nat)
    (start : Word) :
    crcGen cfg (data ++ [x]) be poly w start =
      crcByte (lowBits poly w) (crcGen cfg data be poly w start) (dataByte cfg be x) := by
  simp only [crcGen_eq_crcBytes, List.map_append, crcBytes_append, List.map_cons, List.map_nil, crcBytes_cons,
    crcBytes_nil]

/-! ### The laws -/

/-- Settles O40: the step of the model is the step in unbounded integers, eight times over. -/
theorem crcDivision : Obligations.CrcDivision := by
  intro cfg data be poly start w _ _
  refine ⟨toNat_lowBits start w, fun x => ?_, crcGen_lt ..⟩
  rw [crcGen_concat, crcByte, crcSteps_eq_iterate, (toNat_crcStep _).iterate_right 8, BitVec.toNat_xor,
    BitVec.toNat_setWidth_of_le (by decide), dataByte_eq, toNat_lowBits]
  rfl

/-- Settles O42: the result is a register of width `w`, which starting with it leaves as it is. -/
theorem crcChaining : Obligations.CrcChaining := by
  intro cfg d1 d2 be poly start w _ _
  have hstart := lowBits_of_lt (crcGen_lt cfg d1 be poly w start)
  rw [crcGen_eq_crcBytes cfg d2, hstart, crcGen_eq_crcBytes, crcGen_eq_crcBytes, List.map_append, crcBytes_append]

/-- Settles O43: every byte step is linear, and the start values 0 add up to 0. -/
theorem crcLinearity : Obligations.CrcLinearity := by
  intro cfg d e be poly w _ _ hlen hxform
  have hdata : (List.zipWith (fun x y => x ^^^ y) d e).map (dataByte cfg be) =
      List.zipWith (fun x y => x ^^^ y) (d.map (dataByte cfg be)) (e.map (dataByte cfg be)) := by
    simp only [List.map_zipWith, List.zipWith_map, dataByte_xor hxform]
  have hstart : lowBits 0 w = lowBits 0 w ^^^ lowBits 0 w := by
    rw [lowBits_of_lt (Nat.two_pow_pos w)]
    rfl
  rw [crcGen_eq_crcBytes, crcGen_eq_crcBytes, crcGen_eq_crcBytes, hdata,
    ← crcBytes_xor _ _ _ _ _ (by simpa using hlen), ← hstart]

/-- Settles O44: the register differs after the changed byte, and no later byte makes it equal again. -/
theorem crcSensitivity : Obligations.CrcSensitivity := by
  intro cfg d1 d2 x y be poly start w hw _ htop hxform hxy heq
  have hpm := toNat_lowBits_lt poly w
  have hr := crcGen_lt cfg d1 be poly w start
  have hmask : (lowBits poly w).getLsbD (w - 1) = true := by
    rw [getLsbD_lowBits, htop, decide_eq_true (by omega)]
    rfl
  simp only [crcGen_eq_crcBytes, List.map_append, List.map_cons, crcBytes_append, crcBytes_cons] at heq hr
  have hbyte := crcBytes_inj hpm hw hmask (crcByte_lt hpm hr _) (crcByte_lt hpm hr _) _ heq
  have hwide := (BitVec.xor_right_inj _).mp ((crcByte_eq_iff hpm hw hmask hr hr _ _).mp hbyte)
  have hdata : dataByte cfg be x = dataByte cfg be y := by
    simpa using congrArg (BitVec.setWidth 8) hwide
  exact hxy (dataByte_injective hxform hdata)

end Sys2Proof.Machine
end

section
/-! The CRC as the remainder of a polynomial division over the two-element field (43_crc.md R131). A string of bits is
read as a polynomial, its first bit the highest power; a register of width `w` is the string of its bits 0 to `w - 1`. A
step does not change the class of the register modulo the generator if the register is read one bit longer before it. -/

namespace Sys2Proof.Machine

open Polynomial

/-! ### Strings of bits as polynomials -/

/-- The polynomial of the first `n` bits of `f`, the first bit the highest power. -/
noncomputable def bitPoly (f : ℕ → Bool) (n : ℕ) : (ZMod 2)[X] :=
  ∑ i ∈ Finset.range n, if f i = true then X ^ (n - 1 - i) else 0

/-- The register polynomial of 43_crc.md R131: bit `w - 1 - j` is the coefficient of `x^j`. -/
theorem sum_coeff_eq_bitPoly (f : ℕ → Bool) (w : ℕ) :
    (∑ j ∈ Finset.range w, if f (w - 1 - j) = true then (X : (ZMod 2)[X]) ^ j else 0) = bitPoly f w := by
  rw [bitPoly, ← Finset.sum_range_reflect]
  refine Finset.sum_congr rfl fun j hj => ?_
  have hj' : w - 1 - (w - 1 - j) = j := by have := Finset.mem_range.mp hj; omega
  rw [hj']

theorem bitPoly_congr {f g : ℕ → Bool} {n : ℕ} (h : ∀ i, i < n → f i = g i) : bitPoly f n = bitPoly g n :=
  Finset.sum_congr rfl fun i hi => by rw [h i (Finset.mem_range.mp hi)]

theorem bitPoly_of_false {f : ℕ → Bool} {n : ℕ} (h : ∀ i, i < n → f i = false) : bitPoly f n = 0 :=
  Finset.sum_eq_zero fun i hi => by rw [h i (Finset.mem_range.mp hi)]; rfl

/-- A string of bits followed by another. -/
theorem bitPoly_add (f : ℕ → Bool) (n m : ℕ) :
    bitPoly f (n + m) = bitPoly f n * X ^ m + bitPoly (fun i => f (n + i)) m := by
  rw [bitPoly, bitPoly, bitPoly, Finset.sum_range_add, Finset.sum_mul]
  congr 1
  · refine Finset.sum_congr rfl fun i hi => ?_
    have hpow : n + m - 1 - i = n - 1 - i + m := by have := Finset.mem_range.mp hi; omega
    rw [ite_mul, zero_mul, ← pow_add, hpow]
  · refine Finset.sum_congr rfl fun i _ => ?_
    have hpow : n + m - 1 - (n + i) = m - 1 - i := by omega
    rw [hpow]

/-- A string of bits followed by zeros. -/
theorem bitPoly_add_of_false {f : ℕ → Bool} {n : ℕ} (m : ℕ) (h : ∀ i, n ≤ i → f i = false) :
    bitPoly f (n + m) = bitPoly f n * X ^ m := by
  rw [bitPoly_add, bitPoly_of_false fun i _ => h (n + i) (n.le_add_right i), add_zero]

/-- The first bit of a string and the rest. -/
theorem bitPoly_succ (f : ℕ → Bool) (n : ℕ) :
    bitPoly f (n + 1) = (if f 0 = true then X ^ n else 0) + bitPoly (fun i => f (i + 1)) n := by
  rw [bitPoly, bitPoly, Finset.sum_range_succ', add_comm]
  congr 1
  refine Finset.sum_congr rfl fun i _ => ?_
  have hpow : n + 1 - 1 - (i + 1) = n - 1 - i := by omega
  rw [hpow]

theorem bitPoly_xor (f g : ℕ → Bool) (n : ℕ) :
    bitPoly (fun i => f i ^^ g i) n = bitPoly f n + bitPoly g n := by
  rw [bitPoly, bitPoly, bitPoly, ← Finset.sum_add_distrib]
  refine Finset.sum_congr rfl fun i _ => ?_
  cases f i <;> cases g i <;> simp [CharTwo.add_self_eq_zero]

theorem degree_bitPoly_lt (f : ℕ → Bool) (n : ℕ) : (bitPoly f n).degree < n := by
  refine mem_degreeLT.mp (Submodule.sum_mem _ fun i hi => ?_)
  have hpow : n - 1 - i < n := by have := Finset.mem_range.mp hi; omega
  split
  · exact mem_degreeLT.mpr ((degree_X_pow_le _).trans_lt (by exact_mod_cast hpow))
  · exact Submodule.zero_mem _

/-! ### The generator -/

/-- The generator of a polynomial word of width `w`: the coefficient of `x^w` is 1 and not stored (43_crc.md R131). -/
noncomputable def crcGenerator (poly : Word) (w : ℕ) : (ZMod 2)[X] := X ^ w + bitPoly poly.getLsbD w

theorem monic_crcGenerator (poly : Word) (w : ℕ) : (crcGenerator poly w).Monic :=
  monic_X_pow_add (degree_bitPoly_lt _ w)

theorem degree_crcGenerator (poly : Word) (w : ℕ) : (crcGenerator poly w).degree = w := by
  rw [crcGenerator, degree_add_eq_left_of_degree_lt] <;> rw [degree_X_pow]
  exact degree_bitPoly_lt _ w

theorem bitPoly_lowBits (a : Word) (w : ℕ) : bitPoly (lowBits a w).getLsbD w = bitPoly a.getLsbD w :=
  bitPoly_congr fun i hi => by rw [getLsbD_lowBits, decide_eq_true hi, Bool.true_and]

/-! ### The register modulo the generator -/

section
variable {poly : Word} {w : ℕ}

/-- Read over `w + m` bits, the stored polynomial is the generator times `x^m`, up to the power that is not stored. -/
theorem bitPoly_lowBits_add (m : ℕ) :
    X ^ (w + m) + bitPoly (lowBits poly w).getLsbD (w + m) = crcGenerator poly w * X ^ m := by
  rw [bitPoly_add_of_false m fun i hi => getLsbD_of_toNat_lt (toNat_lowBits_lt poly w) hi, bitPoly_lowBits,
    crcGenerator, add_mul, pow_add]

/-- One step keeps the class of the register, read over one bit more before it. -/
theorem mk_bitPoly_crcStep (r : Word) (m : ℕ) :
    AdjoinRoot.mk (crcGenerator poly w) (bitPoly (crcStep (lowBits poly w) r).getLsbD (w + m)) =
      AdjoinRoot.mk (crcGenerator poly w) (bitPoly r.getLsbD (w + m + 1)) := by
  have hshift : bitPoly (r >>> 1).getLsbD (w + m) = bitPoly (fun i => r.getLsbD (i + 1)) (w + m) :=
    bitPoly_congr fun i _ => by rw [BitVec.getLsbD_ushiftRight, Nat.add_comm]
  rw [AdjoinRoot.mk_eq_mk, crcStep_eq, bitPoly_succ, ← hshift]
  cases r.getLsbD 0
  · simp
  · refine ⟨X ^ m, ?_⟩
    rw [← bitPoly_lowBits_add, bitPoly_congr (fun i _ => BitVec.getLsbD_xor), bitPoly_xor, if_pos rfl, if_pos rfl,
      CharTwo.sub_eq_add]
    linear_combination CharTwo.add_self_eq_zero (bitPoly (r >>> 1).getLsbD (w + m))

theorem mk_bitPoly_crcSteps (r : Word) (n : ℕ) :
    AdjoinRoot.mk (crcGenerator poly w) (bitPoly (crcSteps (lowBits poly w) n r).getLsbD w) =
      AdjoinRoot.mk (crcGenerator poly w) (bitPoly r.getLsbD (w + n)) := by
  induction n generalizing r with
  | zero => rfl
  | succ n ih => rw [crcSteps, ih, mk_bitPoly_crcStep, Nat.add_assoc]

/-- One byte multiplies the register by `x^8` and adds the byte times `x^w`, modulo the generator. -/
theorem mk_bitPoly_crcByte {r : Word} (hr : r.toNat < 2 ^ w) (x : Byte) :
    AdjoinRoot.mk (crcGenerator poly w) (bitPoly (crcByte (lowBits poly w) r x).getLsbD w) =
      AdjoinRoot.mk (crcGenerator poly w) (bitPoly r.getLsbD w * X ^ 8 + bitPoly x.getLsbD 8 * X ^ w) := by
  have hregister : bitPoly r.getLsbD (w + 8) = bitPoly r.getLsbD w * X ^ 8 :=
    bitPoly_add_of_false 8 fun i hi => getLsbD_of_toNat_lt hr hi
  have hwide : ∀ i, (x.setWidth 64).getLsbD i = x.getLsbD i := fun i => by
    rw [← BitVec.testBit_toNat, BitVec.toNat_setWidth_of_le (by decide), BitVec.testBit_toNat]
  have hbyte : bitPoly (x.setWidth 64).getLsbD (w + 8) = bitPoly x.getLsbD 8 * X ^ w := by
    rw [bitPoly_congr fun i _ => hwide i, Nat.add_comm, bitPoly_add_of_false w (BitVec.getLsbD_of_ge x)]
  rw [crcByte, mk_bitPoly_crcSteps, bitPoly_congr (fun i _ => BitVec.getLsbD_xor), bitPoly_xor, hregister, hbyte]

end

/-! ### The message -/

/-- The bit at position `t` of a message, bit 0 of the first byte first (43_crc.md R131). -/
def messageBit (data : List Byte) (t : ℕ) : Bool := (data.getD (t / 8) 0).getLsbD (t % 8)

theorem bitPoly_messageBit_concat (data : List Byte) (x : Byte) :
    bitPoly (messageBit (data ++ [x])) (8 * (data ++ [x]).length) =
      bitPoly (messageBit data) (8 * data.length) * X ^ 8 + bitPoly x.getLsbD 8 := by
  have hlength : 8 * (data ++ [x]).length = 8 * data.length + 8 := by rw [List.length_append]; rfl
  have hdata : bitPoly (messageBit (data ++ [x])) (8 * data.length) = bitPoly (messageBit data) (8 * data.length) :=
    bitPoly_congr fun t ht => by rw [messageBit, messageBit, List.getD_append _ _ _ _ (by omega)]
  have hbyte : bitPoly (fun i => messageBit (data ++ [x]) (8 * data.length + i)) 8 = bitPoly x.getLsbD 8 :=
    bitPoly_congr fun i hi => by
      have hindex : (8 * data.length + i) / 8 = data.length := by omega
      have hoffset : (8 * data.length + i) % 8 = i := by omega
      rw [messageBit, hindex, hoffset, List.getD_append_right _ _ _ _ le_rfl, Nat.sub_self, List.getD_cons_zero]
  rw [hlength, bitPoly_add, hdata, hbyte]

/-! ### The remainder -/

/-- The CRC is in the class of the start value moved up by the message, plus the message moved up by the width. -/
theorem mk_bitPoly_crcGen (cfg : Config) (data : List Byte) (poly start : Word) (w : ℕ) :
    AdjoinRoot.mk (crcGenerator poly w) (bitPoly (crcGen cfg data .little poly w start).getLsbD w) =
      AdjoinRoot.mk (crcGenerator poly w) (bitPoly start.getLsbD w * X ^ (8 * data.length) +
        bitPoly (messageBit data) (8 * data.length) * X ^ w) := by
  induction data using List.reverseRecOn with
  | nil =>
    have hempty : bitPoly (messageBit []) 0 = 0 := bitPoly_of_false fun i hi => absurd hi i.not_lt_zero
    rw [List.length_nil, Nat.mul_zero, hempty, pow_zero, mul_one, zero_mul, add_zero, ← bitPoly_lowBits start]
    rfl
  | append_singleton data x ih =>
    have hbyte : dataByte cfg .little x = x := rfl
    rw [crcGen_concat, mk_bitPoly_crcByte (crcGen_lt ..), hbyte, map_add, map_mul, ih, bitPoly_messageBit_concat,
      List.length_append, List.length_singleton, ← map_mul, ← map_add]
    exact congrArg _ (by ring)

/-- Settles O41: the CRC is in the class of the dividend, and its degree is below that of the generator. -/
theorem crcIsPolynomialRemainder : Obligations.CrcIsPolynomialRemainder := by
  intro cfg data poly start w _ _ x value message
  have hvalue : ∀ r, value r = bitPoly r.getLsbD w := fun r => sum_coeff_eq_bitPoly r.getLsbD w
  have hmonic := monic_crcGenerator poly w
  have hclass := modByMonic_eq_of_dvd_sub hmonic (AdjoinRoot.mk_eq_mk.mp (mk_bitPoly_crcGen cfg data poly start w))
  rw [(modByMonic_eq_self_iff hmonic).mpr (degree_crcGenerator poly w ▸ degree_bitPoly_lt _ w)] at hclass
  rw [hvalue, hvalue, hvalue]
  exact hclass

end Sys2Proof.Machine
end

section
/-! The statements about the CRC commands (43_crc.md R133, R134), which use no slot. -/

namespace Sys2Proof.Machine

/-- The opcode of a CRC command (30_encoding.md R52). -/
theorem opc_crcHeader (w : WidthField) (be : DataOrder) (opc : BitVec 8) :
    (crcHeader w be opc).extractLsb' 0 8 = opc :=
  opc_header ..

section
variable {w : WidthField} (hw : 1 ≤ w.toNat ∧ w.toNat ≤ 64) (be : DataOrder) (poly start : Word) (data : List Byte)
  (s : State)
include hw

theorem exec_crcgen_of_legal :
    exec (.crcgen w be poly start data) s = answer (crcGen s.cfg data be poly w.toNat start) 0 s :=
  if_neg (mt (not_widthLegal_iff w).mp (by omega))

theorem exec_crcvfy_of_legal (embedded : Word) :
    exec (.crcvfy w be poly start embedded data) s =
      if crcGen s.cfg data be poly w.toNat start = embedded then answer 1 0 s else answer 0 0 s :=
  if_neg (mt (not_widthLegal_iff w).mp (by omega))

end

/-- Settles O38: the width decides, and nothing else is checked. -/
theorem crcgen : Obligations.Crcgen := by
  intro w be poly start data s
  refine ⟨opc_crcHeader w be 0x30, fun hillegal => if_pos ((not_widthLegal_iff w).mpr hillegal), fun h1 h64 => ?_⟩
  exact exec_crcgen_of_legal ⟨h1, h64⟩ be poly start data s

/-- Settles O39: after the width, the comparison of the two words decides. -/
theorem crcvfy : Obligations.Crcvfy := by
  intro w be poly start embedded data s
  refine ⟨opc_crcHeader w be 0x31, fun hillegal => if_pos ((not_widthLegal_iff w).mpr hillegal), fun h1 h64 => ?_⟩
  have hexec := exec_crcvfy_of_legal ⟨h1, h64⟩ be poly start data s embedded
  exact ⟨fun heq => hexec.trans (if_pos heq), fun hne => hexec.trans (if_neg hne)⟩

end Sys2Proof.Machine
end

section
/-! The statements about the stream commands (44_stream.md R151 to R153). Both move the bytes of their slot down by whole
bytes, and the registers with them. -/

namespace Sys2Proof.Machine

/-! ### The slot after a transfer -/

section
variable {sl : Slot} (hwf : sl.bytes.wf)
include hwf

/-- `REFILL` moves the bytes it keeps down to the start of the store (44_stream.md R151). -/
theorem Slot.read_refilled_kept (fresh : List Byte) {i : Nat} (hi : i < sl.keptBytes) :
    (sl.refilled fresh).bytes.read i = sl.bytes.read (sl.cursor.toNat / 8 + i) := by
  rw [Slot.refilled, Memory.read_writeAll _ (sl.bytes.moveDown_wf hwf _ _), if_neg (by omega),
    Memory.read_moveDown _ hwf, if_pos hi]

/-- `REFILL` puts the bytes it takes after those it keeps (44_stream.md R151). -/
theorem Slot.read_refilled_fresh (fresh : List Byte) {i : Nat} (hi : i < fresh.length) :
    (sl.refilled fresh).bytes.read (sl.keptBytes + i) = fresh[i] := by
  rw [Slot.refilled, Memory.read_writeAll _ (sl.bytes.moveDown_wf hwf _ _), if_pos (by omega), Nat.add_sub_cancel_left,
    List.getD_eq_getElem _ _ hi]

/-- `FLUSH` moves the bytes in use that it has not emitted down to the start of the store (44_stream.md R152). -/
theorem Slot.read_flushed (k : Nat) {i : Nat} (hi : i < sl.len - k) :
    (sl.flushed k).bytes.read i = sl.bytes.read (k + i) := by
  rw [Slot.flushed, Memory.read_moveDown _ hwf, if_pos hi]

end

/-! ### The commands on a slot that holds a buffer -/

/-- The check that bytes exist, where they do (log entry 7). -/
theorem State.inStore_check {s : State} {n : Nat} (hn : n ≤ s.cfg.capBytes) : ¬ (!s.inStore n) = true := by
  simpa [State.inStore] using hn

section
variable {b : SlotNo} {s : State} {sl : Slot} (h : s.Holds b sl)
include h

theorem exec_refill_of_holds (n : Word) :
    exec (.refill b n) s =
      if sl.bitCount.toNat % 8 ≠ 0 then raise .partialTail s
      else if sl.keptBytes + n.toNat > s.cfg.capBytes then raise .alloc s
      else if !s.inStore sl.keptEnd then .fault .outsideStore
      else transfer b (sl.refilled (s.streamIn.take n.toNat)) n.toNat (s.streamIn.take n.toNat).length [] s :=
  needBuffer_present b s _ sl h.1 h.2

theorem exec_flush_of_holds :
    exec (.flush b) s =
      if !s.inStore (max (sl.emitCount s.streamAccept) sl.len) then .fault .outsideStore
      else transfer b (sl.flushed (sl.emitCount s.streamAccept)) sl.usedBytes (sl.emitCount s.streamAccept)
        (sl.bytes.firstBytes (sl.emitCount s.streamAccept)) s :=
  needBuffer_present b s _ sl h.1 h.2

variable (hs : s.wf)
include hs

/-- `REFILL` of a buffer of whole bytes, where the bytes asked for fit the store beside those kept. -/
theorem exec_refill_within {n : Word} (hwhole : sl.bitCount.toNat % 8 = 0)
    (hroom : sl.keptBytes + n.toNat ≤ s.cfg.capBytes) :
    exec (.refill b n) s =
      transfer b (sl.refilled (s.streamIn.take n.toNat)) n.toNat (s.streamIn.take n.toNat).length [] s := by
  have hkept := State.inStore_check (Slot.keptEnd_le_of_wf (s.slot_wf hs b sl h.1))
  rw [exec_refill_of_holds h, if_neg (not_not.mpr hwhole), if_neg (Nat.not_lt_of_le hroom), if_neg hkept]

/-- From a good state `FLUSH` of a buffer has no check left that can fail. -/
theorem exec_flush_within :
    exec (.flush b) s =
      transfer b (sl.flushed (sl.emitCount s.streamAccept)) sl.usedBytes (sl.emitCount s.streamAccept)
        (sl.bytes.firstBytes (sl.emitCount s.streamAccept)) s := by
  have hsl := s.slot_wf hs b sl h.1
  have hbytes := State.inStore_check
    (max_le (Slot.emitCount_le_of_wf hsl s.streamAccept) (Slot.bytesFor_le_of_wf hsl le_rfl))
  rw [exec_flush_of_holds h]
  exact if_neg hbytes

end

/-! ### `REFILL` and `FLUSH` -/

/-- Settles O45: past the checks, the slot is the one that has taken the first `k` bytes of the stream. -/
theorem refill : Obligations.Refill := by
  intro b n s hs
  refine ⟨opc_bufHeader b 0x40, needBuffer_absent b s _, fun sl hsl => ?_⟩
  have hexec := exec_refill_of_holds hsl n
  refine ⟨fun hpartial => hexec.trans (if_pos hpartial), ?_⟩
  rintro _ _ k rfl rfl hk hwhole
  refine ⟨fun hfull => ?_, fun hroom => ?_⟩
  · rw [if_neg (not_not.mpr hwhole)] at hexec
    exact hexec.trans (if_pos hfull)
  · obtain ⟨-, -, -, hwf, -⟩ := s.slot_wf hs b sl hsl.1
    have htaken : (s.streamIn.take n.toNat).length = k := by rw [List.length_take, min_comm, hk]
    have hslot : sl.refilled (s.streamIn.take n.toNat) =
        ⟨true, BitVec.ofNat 64 (8 * (sl.keptBytes + k)), BitVec.ofNat 64 (sl.cursor.toNat % 8),
          (sl.refilled (s.streamIn.take n.toNat)).bytes⟩ := by
      rw [← hsl.2, ← htaken, Slot.refilled]
    refine ⟨(sl.refilled (s.streamIn.take n.toNat)).bytes, ?_, fun i hi => sl.read_refilled_kept hwf _ hi,
      fun i hi => ?_⟩
    · rw [Becomes, exec_refill_within hsl hs hwhole hroom, transfer_next, htaken, hslot, BitVec.ofNat_toNat,
        BitVec.setWidth_eq]
      rfl
    · have hfresh := Slot.read_refilled_fresh hwf (s.streamIn.take n.toNat) (htaken.symm ▸ hi)
      rw [List.getElem_take] at hfresh
      exact List.getElem?_eq_some_iff.mpr ⟨by omega, hfresh.symm⟩

/-- Settles O46: from a good state `FLUSH` always ends in the transfer of the first `k` bytes. -/
theorem flush : Obligations.Flush := by
  intro b s hs
  refine ⟨opc_bufHeader b 0x41, needBuffer_absent b s _, fun sl hsl => ?_⟩
  rintro _ k rfl rfl
  obtain ⟨-, -, -, hwf, -⟩ := s.slot_wf hs b sl hsl.1
  refine ⟨(sl.flushed (sl.emitCount s.streamAccept)).bytes, ?_, fun i hi => ?_⟩
  · rw [Becomes, exec_flush_within hsl hs, transfer_next, Slot.flushed, hsl.2]
    rfl
  · rw [Nat.add_comm]
    exact Slot.read_flushed hwf _ hi

/-! ### What `FLUSH` emits and what it keeps -/

/-- The first bytes of a store, cut in two. -/
theorem Memory.firstBytes_add (m : Memory) (k l : Nat) :
    m.firstBytes (k + l) = m.firstBytes k ++ (List.range l).map fun i => m.read (k + i) := by
  rw [Memory.firstBytes, List.range_add, List.map_append, List.map_map]
  rfl

/-- The whole bytes below the cursor are in use. -/
theorem Slot.emitCount_le_len {sl : Slot} (hcursor : sl.cursor.toNat ≤ sl.bitCount.toNat) (accept : Nat) :
    sl.emitCount accept ≤ sl.len := by
  rw [Slot.emitCount, Slot.usedBytes, Slot.len, bytesFor]
  omega

/-- `FLUSH` of `k` bytes leaves `k` bytes less in use. -/
theorem Slot.len_flushed (sl : Slot) (k : Nat) : (sl.flushed k).len = sl.len - k := by
  have hbits : (sl.flushed k).bitCount.toNat = sl.bitCount.toNat - 8 * k :=
    (BitVec.toNat_ofNat _ 64).trans (Nat.mod_eq_of_lt ((Nat.sub_le ..).trans_lt sl.bitCount.isLt))
  rw [Slot.len, Slot.len, hbits, bytesFor, bytesFor]
  omega

/-- The first `k` bytes and the bytes in use after `FLUSH` has emitted them. -/
theorem Slot.firstBytes_append_flushed {sl : Slot} (hwf : sl.bytes.wf) {k : Nat} (hk : k ≤ sl.len) :
    sl.bytes.firstBytes k ++ (sl.flushed k).bytes.firstBytes (sl.flushed k).len = sl.bytes.firstBytes sl.len := by
  have hkept : (sl.flushed k).bytes.firstBytes (sl.len - k) =
      (List.range (sl.len - k)).map fun i => sl.bytes.read (k + i) :=
    List.map_congr_left fun i hi => Slot.read_flushed hwf k (List.mem_range.mp hi)
  rw [sl.len_flushed, hkept, ← Memory.firstBytes_add, Nat.add_sub_cancel' hk]

/-- Settles O49: the emitted bytes are those the rest has been moved down by. -/
theorem flushKeepsEveryByte : Obligations.FlushKeepsEveryByte := by
  intro b s t x hs hx hexec
  rw [exec_flush_within hx hs, transfer_next] at hexec
  cases hexec
  obtain ⟨hcursor, -, -, hwf, -⟩ := s.slot_wf hs b x hx.1
  exact ⟨_, _, rfl, hx.setSlot_respond (sl' := x.flushed _) hx.2 _,
    Slot.firstBytes_append_flushed hwf (Slot.emitCount_le_len hcursor _)⟩

/-! ### Reading across a transfer -/

/-- The bit map of a field does not depend on the byte it starts in (41_bitcodec.md R92). -/
theorem fieldBit_add_bytes (q c w j : Nat) (pp : Policy) : fieldBit (8 * q + c) w j pp = fieldBit c w j pp := by
  simp only [fieldBit, chunkSize, chunkStart, Nat.mul_add_mod]

/-- A field reads the same after its bytes have been moved down by `q`. -/
theorem Memory.extract_moved {m m' : Memory} {q c w : Nat} (pp : Policy)
    (h : ∀ i, i < bytesFor (c + w) → m'.read i = m.read (q + i)) :
    m'.extract c w pp = m.extract (8 * q + c) w pp := by
  refine eq_of_testBit_fieldBit c w pp (m'.extract_lt c w pp) (m.extract_lt _ w pp) fun j hj => ?_
  have hbyte : (c + j) / 8 < bytesFor (c + w) := by rw [bytesFor]; omega
  have hmoved : (8 * q + c + j) / 8 = q + (c + j) / 8 := by omega
  have hphysical : physicalBit pp.bio (8 * q + c + j) = physicalBit pp.bio (c + j) := by
    simp only [physicalBit, Nat.add_assoc, Nat.mul_add_mod]
  calc (m'.extract c w pp).testBit (fieldBit c w j pp)
      = m'.bit pp.bio (c + j) := m'.extract_testBit c w pp j hj
    _ = m.bit pp.bio (8 * q + c + j) := by rw [Memory.bit, Memory.bit, h _ hbyte, hmoved, hphysical]
    _ = (m.extract (8 * q + c) w pp).testBit (fieldBit c w j pp) := by
      rw [← fieldBit_add_bytes q, m.extract_testBit _ w pp j hj]

/-- The bytes in use of `x` from index `q` on stand at the start of the buffer `y`, whose cursor names the same bit as
that of `x` and which holds all the bits of `x` from there on. -/
structure Slot.MovedDown (x : Slot) (q : Nat) (y : Slot) : Prop where
  valid : y.valid = true
  cursor : 8 * q + y.cursor.toNat = x.cursor.toNat
  bitCount : x.bitCount.toNat ≤ 8 * q + y.bitCount.toNat
  bytes : ∀ i, q + i < x.len → y.bytes.read i = x.bytes.read (q + i)

/-- `REFILL` moves a buffer down by the whole bytes already read (44_stream.md R151). -/
theorem Slot.movedDown_refilled {cfg : Config} (hcfg : cfg.wf) {sl : Slot} (hsl : sl.wf cfg.capBytes)
    {fresh : List Byte} (hfits : (SlotAction.refill fresh).Fits cfg sl) :
    sl.MovedDown (sl.cursor.toNat / 8) (sl.refilled fresh) := by
  obtain ⟨hcursor, hbits, -, hwf, -⟩ := hsl
  obtain ⟨hvalid, hwhole, hroom⟩ := hfits
  have hkept : sl.keptBytes = sl.bitCount.toNat / 8 - sl.cursor.toNat / 8 := rfl
  have hnewCursor : (sl.refilled fresh).cursor.toNat = sl.cursor.toNat % 8 := toNat_position cfg hcfg (by omega)
  have hnewBits : (sl.refilled fresh).bitCount.toNat = 8 * (sl.keptBytes + fresh.length) :=
    toNat_position cfg hcfg (by omega)
  exact {
    valid := hvalid
    cursor := by omega
    bitCount := by omega
    bytes := fun i hi => Slot.read_refilled_kept hwf fresh (by rw [Slot.len, bytesFor] at hi; omega) }

/-- `FLUSH` moves a buffer down by the bytes it emits (44_stream.md R152). -/
theorem Slot.movedDown_flushed {cfg : Config} (hcfg : cfg.wf) {sl : Slot} (hsl : sl.wf cfg.capBytes) {k : Nat}
    (hfits : (SlotAction.flush k).Fits cfg sl) : sl.MovedDown k (sl.flushed k) := by
  obtain ⟨hcursor, hbits, -, hwf, -⟩ := hsl
  obtain ⟨hvalid, hused⟩ := hfits
  rw [Slot.usedBytes] at hused
  have hnewCursor : (sl.flushed k).cursor.toNat = sl.cursor.toNat - 8 * k := toNat_position cfg hcfg (by omega)
  have hnewBits : (sl.flushed k).bitCount.toNat = sl.bitCount.toNat - 8 * k := toNat_position cfg hcfg (by omega)
  exact {
    valid := hvalid
    cursor := by omega
    bitCount := by omega
    bytes := fun i hi => Slot.read_flushed hwf k (by omega) }

/-- Everything `REFILL` and `FLUSH` can do to a good buffer: leave it as it is, or move it down. -/
theorem transfer_outcomes {b : SlotNo} {n : Word} {s t : State} {sl : Slot} (hs : s.wf) (hsl : s.Holds b sl)
    (hexec : exec (.refill b n) s = .next t ∨ exec (.flush b) s = .next t) :
    (∃ r, t = s.respond r) ∨ ∃ q y r, sl.MovedDown q y ∧ t = (s.setSlot b y).respond r := by
  have hgood := s.slot_wf hs b sl hsl.1
  rcases hexec with hexec | hexec <;>
    obtain ⟨r, ht⟩ | ⟨_, a, x, r, ⟨⟩, hx, hop, hfits, ht⟩ := exec_cases _ s t hexec
  · exact .inl ⟨r, ht⟩
  · cases hsl.1.symm.trans hx
    cases a with
    | refill fresh => exact .inr ⟨_, _, r, Slot.movedDown_refilled hs.1 hgood hfits, ht⟩
    | create | destroy | advance | put | flush => simp [SlotAction.opcodes, opcodeOf] at hop
  · exact .inl ⟨r, ht⟩
  · cases hsl.1.symm.trans hx
    cases a with
    | flush k => exact .inr ⟨_, _, r, Slot.movedDown_flushed hs.1 hgood hfits, ht⟩
    | create | destroy | advance | put | refill => simp [SlotAction.opcodes, opcodeOf] at hop

/-- A field at the cursor that lies within the buffer reads the same after the buffer has been moved down. -/
theorem Slot.MovedDown.fieldWord_eq {x y : Slot} {q w : Nat} (h : x.MovedDown q y) (pp : Policy)
    (hend : x.cursor.toNat + w ≤ x.bitCount.toNat) : y.fieldWord pp w = x.fieldWord pp w := by
  have hbytes : ∀ i, i < bytesFor (y.cursor.toNat + w) → y.bytes.read i = x.bytes.read (q + i) := fun i hi =>
    h.bytes i (by
      rw [← h.cursor] at hend
      rw [bytesFor] at hi
      rw [Slot.len, bytesFor]
      omega)
  rw [Slot.fieldWord, Memory.extract_moved pp hbytes, h.cursor, Slot.fieldWord]

/-- Settles O48: the field that `PEEK` reads has moved down with the cursor. -/
theorem peekAcrossTransfer : Obligations.PeekAcrossTransfer := by
  intro b pp w v n s t hs hpeek hexec
  obtain ⟨sl, hsl, hw, hend, rfl, -⟩ := exec_peek_ok hpeek rfl
  have ht : t.wf := hexec.elim (exec_keeps_wf _ s t hs) (exec_keeps_wf _ s t hs)
  rcases transfer_outcomes hs hsl hexec with ⟨r, rfl⟩ | ⟨q, y, r, hmoved, rfl⟩
  · exact exec_peek_within hsl pp hw ht hend
  · have hcursor := hmoved.cursor
    have hbits := hmoved.bitCount
    rw [← hmoved.fieldWord_eq pp hend]
    exact exec_peek_within (hsl.setSlot_respond hmoved.valid r) pp hw ht (by omega)

end Sys2Proof.Machine
end

section
/-! The statements about exceptions (60_exceptions.md R170 to R178). Which statuses a command can end with, and that an
error leaves the slots alone, is said once for all 18 commands and for every state, good or not: each command ends by its
row of R170. -/

namespace Sys2Proof.Machine

/-! ### Progress (60_exceptions.md R178) -/

/-- Settles O14: the steps without a decoded command end in a next state by definition, and from a good state every command
responds. -/
theorem stepNeverStops : Obligations.StepNeverStops := by
  intro s hs
  rcases step_cases s with ⟨-, hstep⟩ | ⟨rest, -, hstep⟩ | ⟨p, input, rest, e, -, -, hstep⟩ |
    ⟨p, input, rest, i, -, -, hstep⟩ <;> rw [hstep]
  · exact ⟨_, rfl⟩
  · exact ⟨_, rfl⟩
  · exact ⟨_, rfl⟩
  · obtain ⟨t, -, hexec, -⟩ := exec_responds (State.present_wf s hs input rest) i
    exact ⟨t, hexec⟩

/-! ### Ending by a row of the status table -/

/-- The command of the row `op` run from `s` has ended as 60_exceptions.md R170 and R177 allow. -/
inductive EndsByRow (op : Opcode) (s : State) : Effect → Prop
  /-- It has stopped, which no good state makes it do (log entry 7). -/
  | stop : EndsByRow op s (.fault .outsideStore)
  /-- It has ended with a status of its row and changed nothing but the ports. -/
  | error (st : Status) (hst : st ∈ statusesOf op) : EndsByRow op s (.next (s.respond (Response.error st)))
  /-- It has ended with `OK` or with a `SHORT` that its row names. -/
  | done (t : State) (r : Response) (hr : t.response = some r) (hst : r.st ∈ statusesOf op)
      (hdone : r.st = .ok ∨ r.st = .short) : EndsByRow op s (.next t)

theorem ok_mem_statusesOf (op : Opcode) : .ok ∈ statusesOf op := by
  cases op <;> decide

/-- The block never produces the status reserved for the host-side adapter (60_exceptions.md R175). -/
theorem rstate_notMem_statusesOf (op : Opcode) : .rstate ∉ statusesOf op := by
  cases op <;> decide

section
variable {op : Opcode} {s : State} {b : SlotNo}

theorem EndsByRow.raise {st : Status} (hst : st ∈ statusesOf op := by decide) : EndsByRow op s (raise st s) :=
  .error st hst

theorem EndsByRow.answer (r0 r1 : Word) : EndsByRow op s (answer r0 r1 s) :=
  .done _ _ rfl (ok_mem_statusesOf op) (.inl rfl)

theorem EndsByRow.finish (sl : Slot) (r0 r1 : Word) : EndsByRow op s (finish b sl r0 r1 s) :=
  .done _ _ rfl (ok_mem_statusesOf op) (.inl rfl)

theorem EndsByRow.transfer (sl : Slot) (asked moved : Nat) (out : List Byte)
    (hshort : .short ∈ statusesOf op := by decide) : EndsByRow op s (transfer b sl asked moved out s) := by
  by_cases hall : moved = asked
  · exact .done _ _ rfl ((if_pos hall).symm ▸ ok_mem_statusesOf op) (.inl (if_pos hall))
  · exact .done _ _ rfl ((if_neg hall).symm ▸ hshort) (.inr (if_neg hall))

theorem EndsByRow.ite {c : Prop} [Decidable c] {e f : Effect} (hthen : EndsByRow op s e) (helse : EndsByRow op s f) :
    EndsByRow op s (if c then e else f) := by
  split
  · exact hthen
  · exact helse

/-- A check that raises a status of the row, and what comes after it. -/
theorem EndsByRow.check {c : Prop} [Decidable c] {st : Status} {f : Effect} (hpass : EndsByRow op s f)
    (hst : st ∈ statusesOf op := by decide) : EndsByRow op s (if c then Machine.raise st s else f) :=
  .ite (.raise hst) hpass

/-- The check that the bytes below index `n` exist (log entry 7). -/
theorem EndsByRow.guard {n : Nat} {f : Effect} (hpass : EndsByRow op s f) :
    EndsByRow op s (if !s.inStore n then .fault .outsideStore else f) :=
  .ite .stop hpass

theorem EndsByRow.needBuffer {k : Slot → Effect} (hk : ∀ sl, EndsByRow op s (k sl))
    (habsent : .absentBuffer ∈ statusesOf op := by decide) : EndsByRow op s (needBuffer b s k) := by
  rcases needBuffer_cases b s k with ⟨sl, -, -, he⟩ | ⟨-, he⟩
  · exact he ▸ hk sl
  · exact he ▸ .raise habsent

theorem EndsByRow.readField {sl : Slot} {pp : Policy} {w : WidthField} {k : Word → Effect}
    (hk : ∀ v, EndsByRow op s (k v)) (hwidth : .widthRange ∈ statusesOf op := by decide)
    (hcapacity : .capacity ∈ statusesOf op := by decide) : EndsByRow op s (readField sl pp w s k) :=
  .check (.check (.guard (hk _)) hcapacity) hwidth

theorem EndsByRow.scanPrefix {sl : Slot} {bio : BitOrder} {stop : StopField} {k : Nat → Effect}
    (hk : ∀ n, EndsByRow op s (k n)) (hcapacity : .capacity ∈ statusesOf op := by decide) :
    EndsByRow op s (scanPrefix sl bio stop s k) := by
  rcases scanPrefix_cases sl bio stop s k with ⟨n, -, he⟩ | ⟨-, -, he⟩ | ⟨-, -, he⟩
  · exact he ▸ hk n
  · exact he ▸ .raise hcapacity
  · exact he ▸ .stop

/-! ### The commands -/

variable (s b)

theorem execCreate_endsByRow (cap : Word) : EndsByRow .create s (execCreate b cap s) := by
  unfold execCreate
  cases s.slot? b with
  | none => exact .raise
  | some sl => exact .check (.check (.finish _ 0 0))

theorem execIsalign_endsByRow (g : Word) : EndsByRow .isalign s (execIsalign b g s) :=
  .needBuffer fun _ => .check (.ite (.answer 1 0) (.answer 0 0))

theorem execAlign_endsByRow (g : Word) : EndsByRow .align s (execAlign b g s) :=
  .needBuffer fun _ => .check (.check (.finish _ 0 0))

theorem execSkip_endsByRow (delta : Word) : EndsByRow .skip s (execSkip b delta s) :=
  .needBuffer fun _ => .check (.check (.finish _ 0 0))

theorem execPeek_endsByRow (pp : Policy) (w : WidthField) : EndsByRow .peek s (execPeek b pp w s) :=
  .needBuffer fun _ => .readField fun v => .answer v 0

theorem execRead_endsByRow (pp : Policy) (w : WidthField) : EndsByRow .read s (execRead b pp w s) :=
  .needBuffer fun _ => .readField fun v => .finish _ v 0

theorem execWrite_endsByRow (pp : Policy) (w : WidthField) (value : Word) :
    EndsByRow .write s (execWrite b pp w value s) :=
  .needBuffer fun _ => .check (.check (.finish _ 0 0))

theorem execRdun_endsByRow (pp : Policy) (flavor : Flavor) (stop : StopField) :
    EndsByRow .rdun s (execRdun b pp flavor stop s) :=
  .needBuffer fun _ => .check (.scanPrefix fun _ => .finish _ _ 0)

theorem execWrun_endsByRow (pp : Policy) (flavor : Flavor) (stop : StopField) (value : Word) :
    EndsByRow .wrun s (execWrun b pp flavor stop value s) :=
  .needBuffer fun _ => .check (.check (.check (.finish _ 0 0)))

theorem execRdeg_endsByRow (pp : Policy) (sgn : Signedness) (stop : StopField) :
    EndsByRow .rdeg s (execRdeg b pp sgn stop s) :=
  .needBuffer fun _ => .check (.scanPrefix fun _ => .check (.check (.guard (.finish _ _ 0))))

theorem execWreg_endsByRow (pp : Policy) (sgn : Signedness) (stop : StopField) (value : Word) :
    EndsByRow .wreg s (execWreg b pp sgn stop value s) := by
  refine .needBuffer fun sl => .check ?_
  cases golombNumber sgn value with
  | none => exact .raise
  | some u => exact .check (.finish _ 0 0)

theorem execCrcgen_endsByRow (w : WidthField) (be : DataOrder) (poly start : Word) (data : List Byte) :
    EndsByRow .crcgen s (execCrcgen w be poly start data s) :=
  .check (.answer _ 0)

theorem execCrcvfy_endsByRow (w : WidthField) (be : DataOrder) (poly start embedded : Word) (data : List Byte) :
    EndsByRow .crcvfy s (execCrcvfy w be poly start embedded data s) :=
  .check (.ite (.answer 1 0) (.answer 0 0))

theorem execRefill_endsByRow (n : Word) : EndsByRow .refill s (execRefill b n s) :=
  .needBuffer fun _ => .check (.check (.guard (.transfer _ _ _ [])))

theorem execFlush_endsByRow : EndsByRow .flush s (execFlush b s) :=
  .needBuffer fun _ => .guard (.transfer _ _ _ _)

/-- Every command ends by its row, from every state. -/
theorem exec_endsByRow (i : Instr) : EndsByRow (opcodeOf i) s (exec i s) := by
  cases i with
  | create b cap => exact execCreate_endsByRow s b cap
  | destroy b => exact .needBuffer (op := .destroy) fun _ => .finish _ 0 0
  | bitlen b => exact .needBuffer (op := .bitlen) fun sl => .answer sl.bitCount 0
  | pos b => exact .needBuffer (op := .pos) fun sl => .answer sl.cursor 0
  | isalign b g => exact execIsalign_endsByRow s b g
  | align b g => exact execAlign_endsByRow s b g
  | skip b delta => exact execSkip_endsByRow s b delta
  | peek b pp w => exact execPeek_endsByRow s b pp w
  | read b pp w => exact execRead_endsByRow s b pp w
  | write b pp w value => exact execWrite_endsByRow s b pp w value
  | rdun b pp flavor stop => exact execRdun_endsByRow s b pp flavor stop
  | wrun b pp flavor stop value => exact execWrun_endsByRow s b pp flavor stop value
  | rdeg b pp sgn stop => exact execRdeg_endsByRow s b pp sgn stop
  | wreg b pp sgn stop value => exact execWreg_endsByRow s b pp sgn stop value
  | crcgen w be poly start data => exact execCrcgen_endsByRow s w be poly start data
  | crcvfy w be poly start embedded data => exact execCrcvfy_endsByRow s w be poly start embedded data
  | refill b n => exact execRefill_endsByRow s b n
  | flush b => exact execFlush_endsByRow s b

end

/-! ### What the endings have in common -/

section
variable {op : Opcode} {s t : State} {r : Response}

/-- The response has a status of the row (60_exceptions.md R170). -/
theorem EndsByRow.mem_statusesOf (h : EndsByRow op s (.next t)) (hr : t.response = some r) : r.st ∈ statusesOf op := by
  cases h with
  | error st hst =>
    cases hr
    exact hst
  | done _ r' hr' hst =>
    cases hr'.symm.trans hr
    exact hst

/-- A command that ends with an error has only sent its response out (60_exceptions.md R177). -/
theorem EndsByRow.eq_respond_error (h : EndsByRow op s (.next t)) (hr : t.response = some r) (hok : r.st ≠ .ok)
    (hshort : r.st ≠ .short) : t = s.respond (Response.error r.st) := by
  cases h with
  | error st hst =>
    cases hr
    rfl
  | done _ r' hr' _ hdone =>
    cases hr'.symm.trans hr
    exact absurd hdone (not_or.mpr ⟨hok, hshort⟩)

end

/-- Settles O16: a packet that does not decode and a command that ends with an error both only send the response out. -/
theorem errorsChangeNothing : Obligations.ErrorsChangeNothing := by
  intro s t p input rest r hp hstep hr hok hshort
  have hend : t = (s.present input rest).respond (Response.error r.st) := by
    cases hd : decode p with
    | error e =>
      cases (step_of_decode_error s p input rest e hp hd).symm.trans hstep
      cases hr
      rfl
    | ok i =>
      have hrow := exec_endsByRow (s.present input rest) i
      rw [← step_of_decode s p input rest i hp hd, hstep] at hrow
      exact hrow.eq_respond_error hr hok hshort
  subst hend
  exact ⟨rfl, rfl, rfl, (Option.some.inj hr).symm⟩

/-- Settles O17: a command ends by its row, and no row names `RSTATE`. -/
theorem statusesByCommand : Obligations.StatusesByCommand := by
  intro s t p r hrun hr
  cases hd : decode p with
  | error e =>
    simp only [runPacket, hd, raise_next] at hrun
    cases hrun
    cases hr
    cases e with
    | encoding => exact ⟨nofun, fun _ _ => .inl rfl, nofun⟩
    | packet => exact ⟨nofun, fun _ _ => .inr rfl, nofun⟩
  | ok i =>
    simp only [runPacket, hd] at hrun
    have hrow := exec_endsByRow s i
    rw [hrun] at hrow
    have hmem := hrow.mem_statusesOf hr
    exact ⟨fun _ hi => Except.ok.inj hi ▸ hmem, nofun, fun h => rstate_notMem_statusesOf _ (h ▸ hmem)⟩

/-! ### The status codes (60_exceptions.md R170) -/

/-- The statuses in the order of the table. -/
def Status.all : List Status :=
  [.ok, .absentBuffer, .widthRange, .stopBit, .granularity, .skipBelowStart, .valueDomain, .slotInUse, .partialTail,
    .capacity, .alloc, .short, .rstate, .illegalEncoding, .illegalPacket]

theorem Status.mem_all (st : Status) : st ∈ Status.all := by
  cases st <;> decide

/-- The class is the high nibble of the code. -/
theorem Status.statusClass_toNat (st : Status) : st.statusClass.toNat = st.code.toNat / 16 := by
  have hlt : st.code.toNat / 16 < 16 := by omega
  rw [Status.statusClass, BitVec.extractLsb'_toNat, Nat.shiftRight_eq_div_pow]
  exact Nat.mod_eq_of_lt hlt

/-- Different statuses have different codes: no code stands twice in the table. -/
theorem Status.code_injective : Function.Injective Status.code := fun st st' =>
  List.inj_on_of_nodup_map (by decide : (Status.all.map Status.code).Nodup) st.mem_all st'.mem_all

/-- Settles O18: the codes are read off the table. -/
theorem statusCodes : Obligations.StatusCodes :=
  ⟨rfl, Status.statusClass_toNat, fun _ _ h => Status.code_injective h⟩

/-! ### `ABSENT_BUFFER` (60_exceptions.md R171) -/

/-- Every command with a `BUF` field but `CREATE` starts with `NeedBuffer`. -/
theorem exists_exec_eq_needBuffer (i : Instr) (s : State) (b : SlotNo) (hb : slotOf i = some b)
    (hcreate : ∀ cap, i ≠ .create b cap) : ∃ k, exec i s = needBuffer b s k := by
  cases i with
  | create b' cap =>
    cases hb
    exact absurd rfl (hcreate cap)
  | crcgen | crcvfy => cases hb
  | destroy | bitlen | pos | isalign | align | skip | peek | read | write | rdun | wrun | rdeg | wreg | refill
  | flush =>
    cases hb
    exact ⟨_, rfl⟩

/-- Settles O24: `NeedBuffer` comes first, and `CREATE` starts by looking for the slot. -/
theorem absentBuffer : Obligations.AbsentBuffer := by
  intro i s b hb
  have absent (hcreate : ∀ cap, i ≠ .create b cap) (habsent : s.Absent b) : Raises i s .absentBuffer := by
    obtain ⟨k, hexec⟩ := exists_exec_eq_needBuffer i s b hb hcreate
    exact hexec.trans (needBuffer_absent b s k habsent)
  refine ⟨absent, fun hnbuf => ?_⟩
  by_cases hcreate : ∀ cap, i ≠ .create b cap
  · exact absent hcreate (.inl hnbuf)
  · push Not at hcreate
    obtain ⟨cap, rfl⟩ := hcreate
    exact exec_create_of_slot?_none b cap s (s.slot?_eq_none b hnbuf)

end Sys2Proof.Machine
end

section
/-! The statements about reset and about a read directly after a write (70_reset_and_hazards.md R200, R201, R207). After
reset no slot holds a buffer, so the next command asks for a slot in vain, creates one, or needs none; that each of them
responds needs no good state. -/

namespace Sys2Proof.Machine

/-! ### The reset transition (70_reset_and_hazards.md R200) -/

/-- A step at a reset request. -/
theorem step_of_resetRequest (s : State) (rest : List Event) (hp : s.pending = .resetRequest :: rest) :
    step s = .next (s.resetTo rest) := by
  simp only [step, hp]

/-- Of the state before, reset looks at the parameters only. -/
theorem State.resetTo_congr {s s' : State} (hcfg : s'.cfg = s.cfg) (rest : List Event) :
    s'.resetTo rest = s.resetTo rest :=
  congrArg (State.afterReset · rest) hcfg

/-- Settles O7: the next state has `NBUF` empty slots, and is made of the parameters and the pending events. -/
theorem resetTransition : Obligations.ResetTransition := by
  intro s rest hp
  have hstep := step_of_resetRequest s rest hp
  refine ⟨⟨_, hstep, List.length_replicate, rfl, rfl, fun sl hsl => ?_⟩, fun s' hcfg hpend => ?_⟩
  · obtain rfl : sl = Slot.empty := List.eq_of_mem_replicate hsl
    exact ⟨rfl, rfl, rfl⟩
  · rw [step_of_resetRequest s' rest (hpend.trans hp), hstep, State.resetTo_congr hcfg]

/-! ### The first command after reset (70_reset_and_hazards.md R201) -/

/-- After reset every slot is absent. -/
theorem State.absent_resetTo (s : State) (rest : List Event) (b : SlotNo) : (s.resetTo rest).Absent b := by
  rcases Nat.lt_or_ge b.toNat s.cfg.nbuf with hb | hb
  · exact .inr ⟨Slot.empty, by rw [State.resetTo_slots, List.getElem?_replicate, if_pos hb], rfl⟩
  · exact .inl hb

/-- A command without a slot answers from its operands and the parameters (43_crc.md R133, R134). -/
theorem exists_exec_eq_respond {i : Instr} (hi : slotOf i = none) (cfg : Config) :
    ∃ r, ∀ s : State, s.cfg = cfg → exec i s = .next (s.respond r) := by
  cases i with
  | crcgen w be poly start data =>
    by_cases hw : (!widthLegal w) = true
    · exact ⟨_, fun s _ => if_pos hw⟩
    · exact ⟨⟨.ok, crcGen cfg data be poly w.toNat start, 0, []⟩, fun s hcfg => hcfg ▸ if_neg hw⟩
  | crcvfy w be poly start embedded data =>
    by_cases hw : (!widthLegal w) = true
    · exact ⟨_, fun s _ => if_pos hw⟩
    · by_cases heq : crcGen cfg data be poly w.toNat start = embedded
      · exact ⟨_, fun s hcfg => (if_neg hw).trans (if_pos (hcfg ▸ heq))⟩
      · exact ⟨_, fun s hcfg => (if_neg hw).trans (if_neg (hcfg ▸ heq))⟩
  | create | destroy | bitlen | pos | isalign | align | skip | peek | read | write | rdun | wrun | rdeg | wreg | refill
  | flush => cases hi

/-- What a command does where no slot holds a buffer: it responds, without a slot from its operands and the parameters,
with a slot and but for `CREATE` by `ABSENT_BUFFER` (60_exceptions.md R171). -/
theorem exec_of_absent (i : Instr) (s : State) (habsent : ∀ b, s.Absent b) :
    ∃ t r, exec i s = .next t ∧ t.response = some r ∧
      (slotOf i = none → ∀ s' : State, s'.cfg = s.cfg → exec i s' = .next (s'.respond r)) ∧
      ∀ b, slotOf i = some b → (∀ cap, i ≠ .create b cap) →
        r = ⟨.absentBuffer, 0, 0, []⟩ ∧ t.slots = s.slots := by
  cases hb : slotOf i with
  | none =>
    obtain ⟨r, hexec⟩ := exists_exec_eq_respond hb s.cfg
    exact ⟨_, r, hexec s rfl, rfl, fun _ => hexec, nofun⟩
  | some b =>
    by_cases hcreate : ∀ cap, i ≠ .create b cap
    · exact ⟨_, _, (absentBuffer i s b hb).1 hcreate (habsent b), rfl, nofun, fun _ _ _ => ⟨rfl, rfl⟩⟩
    · push Not at hcreate
      obtain ⟨cap, rfl⟩ := hcreate
      obtain ⟨t, r, hexec, hr, -⟩ := execCreate_responds (s := s) b cap
      refine ⟨t, r, hexec, hr, nofun, fun b' hb' hother => ?_⟩
      obtain rfl : b = b' := Option.some.inj hb'
      exact absurd rfl (hother cap)

/-- Settles O8: reset leaves no slot that holds a buffer, and the command that follows runs from there. -/
theorem afterReset : Obligations.AfterReset := by
  intro s p input rest i hp hd
  have hreset := step_of_resetRequest s _ hp
  have hstep := step_of_decode (s.resetTo (.command p input :: rest)) p input rest i rfl hd
  have habsent (b : SlotNo) : ((s.resetTo (.command p input :: rest)).present input rest).Absent b :=
    s.absent_resetTo (.command p input :: rest) b
  obtain ⟨u, r, hexec, hr, hnoSlot, hslot⟩ := exec_of_absent i _ habsent
  obtain ⟨-, hpend, -⟩ := exec_next_ports i _ u hexec
  exact ⟨_, u, r, hreset, rfl, hstep.trans hexec, hr, hpend,
    fun hi s' hcfg => ⟨_, hnoSlot hi s' hcfg, rfl⟩, hslot⟩

/-! ### A read after a write (70_reset_and_hazards.md R207) -/

/-- Settles O56: the write ends where the buffer now ends, so no bit is left for the read. -/
theorem readAfterWriteAtEnd : Obligations.ReadAfterWriteAtEnd := by
  intro b pp pp' w w' v s sl hs hsl h1 h64 h1' h64' hend hroom
  obtain ⟨hvalid, hbits, hcursor⟩ :=
    sl.writeField_registers s.cfg hs.1 (s.slot_wf hs b sl hsl.1) pp w.toNat v hsl.2 hroom
  have hsl1 := hsl.setSlot_respond hvalid ⟨.ok, 0, 0, []⟩
  refine ⟨_, _, exec_write_within hsl pp ⟨h1, h64⟩ v hroom, hsl1, BitVec.eq_of_toNat_eq (by omega), ?_⟩
  exact (exec_read_of_holds hsl1 pp' w').trans (readField_of_beyond _ pp' _ ⟨h1', h64'⟩ (by omega))

end Sys2Proof.Machine
end

section
/-! The bytes that may take any value after `CREATE`, `DESTROY`, `REFILL` and `FLUSH` (93_implementation_defined.md U5;
log entry 4): a command whose action is not `put` leaves every byte at or above the new `LEN` as it stood. -/

namespace Sys2Proof.Machine

/-! ### The slot after an action -/

/-- The bytes in use of a slot of `n` whole bytes within the store. -/
theorem Slot.len_of_bitCount {cfg : Config} (hcfg : cfg.wf) {sl : Slot} {n : Nat} (hn : n ≤ cfg.capBytes)
    (hbits : sl.bitCount = BitVec.ofNat 64 (8 * n)) : sl.len = n := by
  rw [Slot.len, hbits, toNat_position cfg hcfg (Nat.mul_le_mul_left 8 hn), bytesFor_mul_eight]

section
variable {sl : Slot} (hwf : sl.bytes.wf)
include hwf

/-- `REFILL` writes no byte above those it keeps and those it takes (44_stream.md R151). -/
theorem Slot.read_refilled_beyond (fresh : List Byte) {i : Nat} (hi : sl.keptBytes + fresh.length ≤ i) :
    (sl.refilled fresh).bytes.read i = sl.bytes.read i := by
  rw [Slot.refilled, Memory.read_writeAll _ (sl.bytes.moveDown_wf hwf _ _), if_neg (by omega),
    Memory.read_moveDown _ hwf, if_neg (by omega)]

/-- `FLUSH` writes no byte above those it keeps (44_stream.md R152). -/
theorem Slot.read_flushed_beyond (k : Nat) {i : Nat} (hi : sl.len - k ≤ i) :
    (sl.flushed k).bytes.read i = sl.bytes.read i := by
  rw [Slot.flushed, Memory.read_moveDown _ hwf, if_neg (Nat.not_lt_of_le hi)]

end

/-- An action that is not `put` changes no byte at or above the new `LEN`. -/
theorem SlotAction.read_apply_beyond {cfg : Config} (hcfg : cfg.wf) (a : SlotAction) {sl : Slot} (hwf : sl.bytes.wf)
    (hfits : a.Fits cfg sl) {op : Opcode} (hop : op ∈ a.opcodes) (hput : op ∉ [.align, .skip, .write, .wrun, .wreg])
    {i : Nat} (hi : (a.apply sl).len ≤ i) : (a.apply sl).bytes.read i = sl.bytes.read i := by
  cases a with
  | create cap =>
    obtain ⟨-, hcap⟩ := hfits
    rw [Slot.len_of_bitCount hcfg hcap rfl] at hi
    exact (sl.bytes.read_zeroFill 0 cap i).trans (if_neg (by omega))
  | destroy => rfl
  | advance u => rfl
  | put u f => exact absurd hop hput
  | refill fresh =>
    obtain ⟨-, -, hroom⟩ := hfits
    rw [Slot.len_of_bitCount hcfg hroom rfl] at hi
    exact Slot.read_refilled_beyond hwf fresh hi
  | flush k => exact Slot.read_flushed_beyond hwf k (sl.len_flushed k ▸ hi)

/-! ### The commands -/

/-- From a good state a command whose action is not `put` leaves the bytes at or above the new `LEN` of every slot as they
stood. -/
theorem exec_read_beyond {i : Instr} {s t : State} {b : SlotNo} {x y : Slot} (hs : s.wf)
    (hput : opcodeOf i ∉ [.align, .skip, .write, .wrun, .wreg]) (hexec : exec i s = .next t)
    (hx : s.slot? b = some x) (hy : t.slot? b = some y) {j : Nat} (hj : y.len ≤ j) :
    y.bytes.read j = x.bytes.read j := by
  rcases exec_slot_cases i s t b x y hexec hx hy with rfl | ⟨a, hop, hfits, rfl⟩
  · rfl
  · obtain ⟨-, -, -, hwf, -⟩ := s.slot_wf hs b x hx
    exact a.read_apply_beyond hs.1 hwf hfits hop hput hj

/-- `DESTROY` of a buffer clears its registers and keeps its store (40_buffer.md R71; log entry 4). -/
theorem exec_destroy_of_holds {b : SlotNo} {s : State} {sl : Slot} (h : s.Holds b sl) :
    exec (.destroy b) s = finish b ⟨false, 0, 0, sl.bytes⟩ 0 0 s :=
  needBuffer_present b s _ sl h.1 h.2

/-- Settles O47: `DESTROY` keeps the store whole, and the action of the three other commands is not `put`. -/
theorem staleBytesStay : Obligations.StaleBytesStay := by
  intro b n s t x y hs hy
  refine ⟨fun hx hexec _ => exec_read_beyond hs (by simp [opcodeOf]) hexec hx.1 hy, fun hx hexec => ?_, ?_⟩
  · rw [exec_destroy_of_holds hx, finish_next] at hexec
    cases hexec
    rw [State.slot?_respond, State.slot?_setSlot_same s b x _ hx.1] at hy
    cases hy
    rfl
  · rintro hx (hexec | hexec) _
    · exact exec_read_beyond hs (by simp [opcodeOf]) hexec hx.1 hy
    · exact exec_read_beyond hs (by simp [opcodeOf]) hexec hx.1 hy

end Sys2Proof.Machine
end

section
/-! The worked encodings (30_encoding.md section 8). -/

namespace Sys2Proof

/-- The packet of a well-formed instruction decodes to it. -/
theorem decode_of_encode_eq {i : Instr} {p : Packet} (hp : encode i = p) (hwf : i.wf = true) : decode p = .ok i :=
  hp ▸ decodeOfEncode i hwf

/-- Settles O5: each packet is the one its instruction encodes to. -/
theorem sampleWords : Obligations.SampleWords := by
  refine ⟨?_, ?_, ?_, ?_, ?_, ?_, ?_⟩ <;> exact decode_of_encode_eq (by decide) rfl

end Sys2Proof
end
